-- ==== Sys2Proof/Word.lean ====
section
/-! DEFINITION. The widths of the bit-stream reader: the 32-bit value and command word, the byte of the source,
and the error payload. -/

namespace Sys2Proof

/-- A response value, the accumulator or the unary counter: `VALUE_W = UC_W = 32` bits (R6), and the command
word, `CMD_W = 32` bits (R51). -/
abbrev Word := BitVec 32

/-- One byte of the source or of the destination, `BYTE_W = 8` bits (R5). `getMsbD 0` is `B[7]` (R8). -/
abbrev Byte := BitVec 8

/-- The payload of an I/O error, the OPEN type parameter `ERR` of R6. The block copies it and never inspects it
(R132), so any countable type serves.
DESIGN CHOICE (log 5), safe: a natural number, which holds a payload of every port width `ERR_W`. -/
abbrev Err := Nat

end Sys2Proof
end

