-- ==== Sys2Proof/Config.lean ====
section
/-! DEFINITION. What the spec fixes for this hardware as a number (R5, R6), and the one free value: what the
working registers hold where the spec says that their value is unspecified. -/

namespace Sys2Proof.Config

/-- Least legal width of READ, READ_SIGNED and SKIP (R5). -/
abbrev bitsMin : Nat := 1

/-- Greatest legal width of READ, READ_SIGNED and SKIP (R5). -/
abbrev bitsMax : Nat := 32

/-- Bits of one byte, the number of entries a refill adds (R5). -/
abbrev byteW : Nat := 8

/-- Bytes of one refill (R5). -/
abbrev refillLen : Nat := 1

/-- Greatest number of buffered bits between operations (R5). -/
abbrev bufMaxRest : Nat := 7

/-- One more than the greatest length of READ_BYTES: `ARG_W = 24` (R6). -/
abbrev lenBound : Nat := 2 ^ 24

/-- The greatest count the 32-bit unary counter holds: `UC_W = 32` (R6, R114). -/
abbrev ucMax : Word := 0xFFFFFFFF

/-- FREE VALUE, no body: what ACC or UC holds where the spec says its value is unspecified (R14, R15, U-7). The
argument is the model's counter of free values, so that no two uses are known to be equal.
DESIGN CHOICE (log 9), safe. -/
opaque freeWord : Nat → Word

end Sys2Proof.Config
end

