-- ==== Sys2Proof/Syntax.lean ====
section
/-! DEFINITION. The closed set of eight commands (R7), one constructor per row of spec/opcode_table.json, and the
four classes of words that are no command (R56). -/

namespace Sys2Proof

/-- A command with its operand: `ARG` taken as an unsigned integer (R53). There is no other operand. -/
inductive Instr where
  /-- READ `bits` (R80). -/
  | read (bits : Nat)
  /-- READ_SIGNED `bits` (R84). -/
  | readSigned (bits : Nat)
  /-- SKIP `bits` (R87). -/
  | skip (bits : Nat)
  /-- READ_BYTES `len` (R100). -/
  | readBytes (len : Nat)
  /-- READ_UNARY0, stop bit 0 (R110). -/
  | readUnary0
  /-- READ_UNARY1, stop bit 1 (R111). -/
  | readUnary1
  /-- BYTE_ALIGNED (R120). -/
  | byteAligned
  /-- BYTE_ALIGN (R121). -/
  | byteAlign
  deriving DecidableEq, Repr

/-- The classes of words that are not defined commands (R56). -/
inductive WordClass where
  /-- `OP` in 0, 1, 2 with `ARG = 0`. -/
  | u1
  /-- `OP` in 0, 1, 2 with `ARG ≥ 33`. -/
  | u2
  /-- `OP` in 4 to 7 with `ARG ≠ 0`. -/
  | u3
  /-- `RSV ≠ 0`. -/
  | u4
  deriving DecidableEq, Repr

end Sys2Proof
end

