-- ==== Sys2Proof/WellFormed.lean ====
section
/-! DEFINITION. The legal operand values (R55): a command is well formed exactly when some word of R54 is it. -/

namespace Sys2Proof

/-- A legal width: "Precondition: `1 ≤ bits ≤ 32`" (R55). -/
abbrev legalBits (bits : Nat) : Prop := Config.bitsMin ≤ bits ∧ bits ≤ Config.bitsMax

/-- A legal length of READ_BYTES: `0 ≤ len ≤ 2^24 − 1` (R55). -/
abbrev legalLen (len : Nat) : Prop := len < Config.lenBound

/-- The operand of the command is legal (R55). -/
def Instr.wf : Instr → Bool
  | .read bits => decide (legalBits bits)
  | .readSigned bits => decide (legalBits bits)
  | .skip bits => decide (legalBits bits)
  | .readBytes len => decide (legalLen len)
  | .readUnary0 => true
  | .readUnary1 => true
  | .byteAligned => true
  | .byteAlign => true

end Sys2Proof
end

