-- ==== Sys2Proof/Decode.lean ====
section
/-! DEFINITION. Decoding (R51 to R59): total on 32-bit words, one of the eight commands or one of the classes
U1 to U4; the encoder, written from the same table (R54); the rows of the opcode table as data (R55). -/

namespace Sys2Proof

/-- `OP = cmd[2:0]` (R51). -/
def opField (w : Word) : Nat := (w.extractLsb' 0 3).toNat

/-- `RSV = cmd[7:3]` (R51). -/
def rsvField (w : Word) : Nat := (w.extractLsb' 3 5).toNat

/-- `ARG = cmd[31:8]`, an unsigned integer (R51, R53). -/
def argField (w : Word) : Nat := (w.extractLsb' 8 24).toNat

/-- A width operand (READ, READ_SIGNED, SKIP): class U1 is named before class U2 (R56, R59). -/
def decodeBits (mk : Nat → Instr) (arg : Nat) : Except WordClass Instr :=
  if arg < Config.bitsMin then .error .u1
  else if Config.bitsMax < arg then .error .u2
  else .ok (mk arg)

/-- A command of format N: `ARG` must be 0 (R52, R56 class U3). -/
def decodeNone (i : Instr) (arg : Nat) : Except WordClass Instr :=
  if arg = 0 then .ok i else .error .u3

/-- Decoding of a command word (R54, R59). Class U4 is named before every other class. -/
def decode (w : Word) : Except WordClass Instr :=
  if rsvField w ≠ 0 then .error .u4
  else match opField w with
    | 0 => decodeBits .read (argField w)
    | 1 => decodeBits .readSigned (argField w)
    | 2 => decodeBits .skip (argField w)
    | 3 => .ok (.readBytes (argField w))
    | 4 => decodeNone .readUnary0 (argField w)
    | 5 => decodeNone .readUnary1 (argField w)
    | 6 => decodeNone .byteAligned (argField w)
    | _ => decodeNone .byteAlign (argField w)

/-- The operation number (R54). -/
def Instr.opNumber : Instr → Nat
  | .read _ => 0
  | .readSigned _ => 1
  | .skip _ => 2
  | .readBytes _ => 3
  | .readUnary0 => 4
  | .readUnary1 => 5
  | .byteAligned => 6
  | .byteAlign => 7

/-- The operand carried in `ARG`; format N carries 0 (R52). -/
def Instr.arg : Instr → Nat
  | .read bits => bits
  | .readSigned bits => bits
  | .skip bits => bits
  | .readBytes len => len
  | .readUnary0 => 0
  | .readUnary1 => 0
  | .byteAligned => 0
  | .byteAlign => 0

/-- The word of a command: `(ARG << 8) | OP`, `RSV` zero (R54). -/
def encode (i : Instr) : Word := (BitVec.ofNat 32 i.arg <<< 8) ||| BitVec.ofNat 32 i.opNumber

/-- One row of spec/opcode_table.json: a word is the command of the row exactly when
`w & mask = match` and `argMin ≤ w[31:8] ≤ argMax` (R55). -/
structure OpcodeRow where
  mask : Word
  bits : Word
  argMin : Nat
  argMax : Nat
  deriving DecidableEq, Repr

/-- The row of a command in spec/opcode_table.json. -/
def Instr.row : Instr → OpcodeRow
  | .read _ => ⟨0x000000FF, 0x00000000, 1, 32⟩
  | .readSigned _ => ⟨0x000000FF, 0x00000001, 1, 32⟩
  | .skip _ => ⟨0x000000FF, 0x00000002, 1, 32⟩
  | .readBytes _ => ⟨0x000000FF, 0x00000003, 0, 16777215⟩
  | .readUnary0 => ⟨0xFFFFFFFF, 0x00000004, 0, 0⟩
  | .readUnary1 => ⟨0xFFFFFFFF, 0x00000005, 0, 0⟩
  | .byteAligned => ⟨0xFFFFFFFF, 0x00000006, 0, 0⟩
  | .byteAlign => ⟨0xFFFFFFFF, 0x00000007, 0, 0⟩

/-- The word is the command of the row (R55). -/
def OpcodeRow.holds (r : OpcodeRow) (w : Word) : Bool :=
  w &&& r.mask == r.bits && decide (r.argMin ≤ argField w) && decide (argField w ≤ r.argMax)

/-- What the decoder reads from an instruction of the opcode table whose bits are `w`: commands have one length,
one 32-bit word (R51), and every bit from `nbits` up is 0. -/
def decodeTableWord (nbits w : Nat) : Option Instr :=
  match decode (BitVec.ofNat 32 (w % 2 ^ nbits)) with
  | .ok i => some i
  | .error _ => none

end Sys2Proof
end

