-- ==== Sys2Proof/Machine/State.lean ====
section
/-! DEFINITION. The state of the reader and of the two agents it talks to, as plain data: the registers, the
command in progress, the source's answers and the client's moves to come, the destination buffers, and the
record of the run. -/

namespace Sys2Proof.Machine

/-- Bytes by destination index (R30(b)): addresses strictly rising. An index that is not listed has no value: it
is a byte of the client's buffer that neither the client's listing nor the block has given (R42; log 7). -/
abbrev Memory := List Host.Cell

/-- An answer of the source to one `SrcRead` (R31, R32 (a), (b)). -/
inductive SrcAnswer where
  /-- `Ok(b)`: the bytes in stream order. -/
  | ok (bytes : List Byte)
  /-- `Err(e)`: no byte, and an opaque payload. -/
  | err (e : Err)
  deriving DecidableEq, Repr

/-- One turn of the source agent while a request is outstanding. -/
inductive SrcMove where
  /-- It answers the request. -/
  | answers (a : SrcAnswer)
  /-- It does not answer yet: the block stays held (R146). -/
  | delays
  deriving DecidableEq, Repr

/-- The response of a command (R57). -/
inductive Response where
  /-- Status OK with its value (R58). -/
  | ok (value : Word)
  /-- Status IOERR with the payload of the failing `SrcRead`, and no value. -/
  | ioerr (e : Err)
  deriving DecidableEq, Repr

/-- What happens at the block's ports, in the one total order of R45. -/
inductive Event where
  /-- `SrcRead(n)` with its answer. -/
  | srcRead (n : Nat) (a : SrcAnswer)
  /-- `DstWrite(i, b)`. -/
  | dstWrite (i : Nat) (b : Byte)
  /-- The response of a command. -/
  | respond (r : Response)
  deriving DecidableEq, Repr

/-- The three commands that run the bit-slice extractor (R20). -/
inductive Extract where
  | read
  | readSigned
  | skip
  deriving DecidableEq, Repr

/-- What is left of a command that is held on a `SrcRead` with no answer yet (R146). ACC and UC hold the rest. -/
inductive Task where
  /-- READ, READ_SIGNED or SKIP of `bits`: `left` of them are still to come. -/
  | extract (op : Extract) (bits left : Nat)
  /-- Aligned READ_BYTES: its one `SrcRead(len)` is outstanding (R101). -/
  | bulk (len : Nat)
  /-- Unaligned READ_BYTES of `len`: byte `i` lacks `left` bits (R102). -/
  | assemble (len i left : Nat)
  /-- A unary read with this stop bit, about to fetch its next bit (R110, R111). -/
  | unary (stop : Bool)
  deriving DecidableEq, Repr

/-- A move of the client (R166). -/
inductive ClientMove where
  /-- Presents a command word on the command port (R50). -/
  | command (w : Word)
  /-- Attaches a destination buffer with these bytes to the destination port (R53, R163, R170). -/
  | attach (cells : Memory)
  /-- Constructs a new instance (R160): over the source it already holds (`none`), which then answers what it
  would have answered, or over another one, given by its answers. -/
  | construct (source : Option (List SrcMove))
  /-- Releases the instance (R165). -/
  | release
  deriving DecidableEq, Repr

/-- The block never stops with a fault: its one error, IOError, is an ordinary response (R130, R136, R147), and
no other exception exists (R130, R133). So there is no constructor. -/
inductive Fault where
  deriving DecidableEq, Repr

/-- Where the model gives no meaning (R147, last row). Every constructor is SAFE: nothing is claimed of a run that
meets it. -/
inductive Refusal where
  /-- Raised by an arm of `exec` whose instruction has no meaning in the model yet. Safe. No arm raises it. -/
  | notModelled (mnemonic : String)
  /-- Raised when a word that is no defined command is presented, by class and word (R56). Safe. -/
  | reservedWord (c : WordClass) (w : Word)
  /-- Raised by the meanings of READ, READ_SIGNED and SKIP on a width outside 1 to 32, which no word decodes to
  (R55, R56, R90). Safe. -/
  | widthOutOfRange (bits : Nat)
  /-- Raised by the meaning of READ_BYTES on a length of 2^24 or more, which no word carries (R55). Safe. -/
  | lengthOutOfRange (len : Nat)
  /-- Raised by READ_UNARY0 and READ_UNARY1 when the count would exceed 2^32 − 1 (R114). Safe. -/
  | unaryOverflow
  /-- Raised by the `SrcRead` that a source answers with the wrong number of bytes: such a source does not keep
  R31 and is outside the model (R163, U-10). Safe. -/
  | sourceContract (asked got : Nat)
  /-- Raised when a command or a release is presented and no instance exists (R27, R165). Safe. -/
  | noInstance
  deriving DecidableEq, Repr

/-- The state of the machine. -/
@[ext]
structure State where
  /-- `SR`, the shift register: the unconsumed bits of the last pulled byte, next bit in `SR[7]` (R12). -/
  sr : Byte
  /-- `CNT`, the number of valid bits of `SR` (R12). -/
  cnt : BitVec 4
  /-- `ACC`, the accumulator of the bit-slice extractor (R14). -/
  acc : Word
  /-- `UC`, the unary counter (R15). -/
  uc : Word
  /-- The command in progress that is held on the source, if there is one (R146). -/
  busy : Option Task
  /-- The instance exists: it was constructed and not yet released (R27). -/
  live : Bool
  /-- What the source will do, one entry a turn; the end of the list is a source that answers no more (R32). -/
  source : List SrcMove
  /-- What the client will do, in order (R166). The block holds no queue of commands (R167): this is the client's
  own future. -/
  client : List ClientMove
  /-- The destination buffer that is attached (R23, R53). There always is one (log 23), and it
  stays attached when a READ_BYTES has ended, until the client attaches another (log 24). Both DESIGN CHOICE. -/
  dst : Memory
  /-- The destination buffers attached before it, oldest first (R181). -/
  detached : List Memory
  /-- GHOST: the events since construction, oldest first (R8, R18, R45, R181). No meaning reads it. -/
  trace : List Event
  /-- THE MODEL'S OWN: how many free values have been taken (log 9). -/
  fresh : Nat
  deriving DecidableEq, Repr

/-- The machine right after reset, that is construction (R26, R160): the buffer empty, no command in progress, no
response given, no source request made. `acc` and `uc` are 0, DESIGN CHOICE (log 8): the spec leaves them
unspecified. `source` and `client` are empty, DESIGN CHOICE (log 1, 6): what the two agents will do is theirs. `dst` is
an attached buffer with no byte listed, and none is put away, DESIGN CHOICE (log 23): the spec says only that reset
leaves the destination untouched (R26) and that the client attaches one before READ_BYTES (R164, R170). -/
def State.reset : State where
  sr := 0x00
  cnt := 0
  acc := 0
  uc := 0
  busy := none
  live := true
  source := []
  client := []
  dst := []
  detached := []
  trace := []
  fresh := 0

end Sys2Proof.Machine
end

