-- ==== Sys2Proof/Machine/Flags.lean ====
section
/-! DEFINITION. What is derived from the state and stored nowhere: the one flag ALIGNED (R16), the bit buffer
`buf` behind SR and CNT (R10, R12), the cursor and the stream bit string (R8, R18), and what the client reads at
the ports (R50, R57). -/

namespace Sys2Proof.Machine

/-- `ALIGNED = (CNT = 0)` (R16). -/
def State.aligned (s : State) : Bool := s.cnt == 0

/-- The `aligned` output as far as a client may rely on it: only when no command is in progress (R50, U-13). -/
def State.alignedPort (s : State) : Option Bool :=
  match s.busy with
  | none => some s.aligned
  | some _ => none

/-- `buf`, front first: the top CNT bits of SR, most significant first (R12). -/
def State.buf (s : State) : List Bool := (List.range s.cnt.toNat).map s.sr.getMsbD

/-- The eight bits of a byte in delivery order, `B[7]` first (R37). -/
def byteBits (b : Byte) : List Bool := (List.range 8).map b.getMsbD

/-- The number whose binary digits are these bits, most significant first (R38). -/
def natOfBits (bits : List Bool) : Nat := bits.foldl (fun v b => 2 * v + b.toNat) 0

/-- Bits left-justified in a byte, zeros below (R12, R13): the register image of a buffer. -/
def leftJustify (bits : List Bool) : Byte := BitVec.ofNat 8 (natOfBits bits * 2 ^ (8 - bits.length))

/-- The bytes an event delivers to the instance (R8). -/
def Event.delivers : Event → List Byte
  | .srcRead _ (.ok bytes) => bytes
  | .srcRead _ (.err _) => []
  | .dstWrite _ _ => []
  | .respond _ => []

/-- `D`, the delivered byte sequence of the instance (R8). -/
def State.delivered (s : State) : List Byte := s.trace.flatMap Event.delivers

/-- The stream bit string `s[0], s[1], …` as far as it has been delivered (R8). -/
def State.streamBits (s : State) : List Bool := s.delivered.flatMap byteBits

/-- `NB`, the number of delivered bytes (R18). -/
def State.nb (s : State) : Nat := s.delivered.length

/-- `POS = 8·NB − |buf|`, the cursor (R18). -/
def State.pos (s : State) : Nat := 8 * s.nb - s.cnt.toNat

/-- The response an event gives. -/
def Event.response : Event → Option Response
  | .respond r => some r
  | .srcRead _ _ => none
  | .dstWrite _ _ => none

/-- The request an event answers, with its answer. -/
def Event.request : Event → Option (Nat × SrcAnswer)
  | .srcRead n a => some (n, a)
  | .dstWrite _ _ => none
  | .respond _ => none

/-- The responses given since construction, oldest first (R181). -/
def State.responses (s : State) : List Response := s.trace.filterMap Event.response

/-- The source requests answered since construction, with their answers, oldest first (R181). -/
def State.requests (s : State) : List (Nat × SrcAnswer) := s.trace.filterMap Event.request

/-- The response port: the response of the last command, nothing after reset or while a command is in progress
(R26, R50). -/
def State.responsePort (s : State) : Option Response :=
  match s.busy with
  | none => s.responses.getLast?
  | some _ => none

/-- The size of the `SrcRead` that is outstanding, if a command is held on one (R35, R146). -/
def State.outstanding (s : State) : Option Nat :=
  match s.busy with
  | none => none
  | some (.bulk len) => some len
  | some (.extract _ _ _) => some Config.refillLen
  | some (.assemble _ _ _) => some Config.refillLen
  | some (.unary _) => some Config.refillLen

/-- The `status` field: 0 is OK, 1 is IOERR (R57). -/
def Response.status : Response → BitVec 1
  | .ok _ => 0
  | .ioerr _ => 1

/-- The `value` field as the port drives it, 0 with IOERR (R58). -/
def Response.valueField : Response → Word
  | .ok v => v
  | .ioerr _ => 0

/-- The `err` field as the port drives it, 0 with OK (R57). -/
def Response.errField : Response → Err
  | .ok _ => 0
  | .ioerr e => e

end Sys2Proof.Machine
end

