-- ==== Sys2Proof/Machine/Operands.lean ====
section
/-! DEFINITION. From the accumulator to the response value: the sign-extension multiplexer (R85) and the value
field of each extractor command (R58). The operand of a command is its `ARG` (R53), assembled in Decode.lean. -/

namespace Sys2Proof.Machine

/-- `2^32 − 2^bits`: ones in bits 31 to `bits`, zeros below, 0 when `bits = 32` (R85). -/
def signMask (bits : Nat) : Word := BitVec.ofNat 32 (2 ^ 32 - 2 ^ bits)

/-- The sign-extension multiplexer (R85): a pattern of `bits` bits whose top bit is 1 gets ones above it. -/
def signMux (bits : Nat) (v : Word) : Word := if v.getLsbD (bits - 1) then v ||| signMask bits else v

/-- The response value from the extracted pattern (R58, R85, R87). -/
def Extract.value (op : Extract) (bits : Nat) (v : Word) : Word :=
  match op with
  | .read => v
  | .readSigned => signMux bits v
  | .skip => 0

/-- The accumulator with one more bit: shifted left by one, the bit ORed in (R80). -/
def shiftInBit (acc : Word) (b : Bool) : Word := (acc <<< 1) ||| (BitVec.ofBool b).zeroExtend 32

/-- The byte assembled by an inner `read(8)`: `v[7:0]` (R100). -/
def lowByte (v : Word) : Byte := v.extractLsb' 0 8

end Sys2Proof.Machine
end

