-- ==== Sys2Proof/Machine/Ops.lean ====
section
/-! DEFINITION. The shared operations: the destination memory, `SrcRead`, the bit buffer and `next_bit`, the
bit-slice extractor, the end of a command, and what an I/O error does. -/

namespace Sys2Proof.Machine

/-! The destination memory. -/

/-- The canonical form: addresses strictly rising. An unlisted index has no value, so no byte is left unlisted for
its value. -/
def Memory.wf : Memory → Bool
  | [] => true
  | [_] => true
  | c :: d :: rest => decide (c.1 < d.1) && Memory.wf (d :: rest)

/-- The byte at an index, where the listing has one. -/
def Memory.read : Memory → Nat → Option Byte
  | [], _ => none
  | c :: rest, i => if c.1 = i then some c.2 else Memory.read rest i

/-- Stores a byte at an index, keeping the canonical form. -/
def Memory.write : Memory → Nat → Byte → Memory
  | [], i, b => [(i, b)]
  | c :: rest, i, b =>
    if i < c.1 then (i, b) :: c :: rest
    else if i = c.1 then (i, b) :: rest
    else c :: Memory.write rest i b

/-- The memory that lists these bytes; of two bytes at one index the later one stands. -/
def Memory.ofCells (cells : Memory) : Memory := cells.foldl (fun m c => Memory.write m c.1 c.2) []

/-! The record of events. -/

/-- Records an event (R45). -/
def State.record (ev : Event) (s : State) : State := { s with trace := s.trace ++ [ev] }

/-! The working registers between operations. -/

/-- ACC takes an unspecified value (R14). -/
def State.freeAcc (s : State) : State := { s with acc := Config.freeWord s.fresh, fresh := s.fresh + 1 }

/-- UC takes an unspecified value (R15). -/
def State.freeUc (s : State) : State := { s with uc := Config.freeWord s.fresh, fresh := s.fresh + 1 }

/-! Access to the source. -/

/-- How an operation that may read the source goes (R147). -/
inductive Fetch (ω α : Type) where
  /-- It completes with a result. -/
  | done (a : α) (s : State)
  /-- `raise IOError(e)`: a `SrcRead` answered `Err(e)` (R131). -/
  | ioerr (e : Err) (s : State)
  /-- A `SrcRead` is not answered; `w` says what is left to do (R146). -/
  | hold (w : ω) (s : State)
  /-- The model gives no meaning. -/
  | refuse (r : Refusal)

/-- `SrcRead(n)` (R31, R32). A zero-length request answers `Ok([])` and leaves the source where it stands (R34).
On `Err` the block receives no byte. No answer yet, or ever: a hold. An `Ok` of another length is no answer of a
source that keeps R31. -/
def srcRead (n : Nat) (s : State) : Fetch Unit (List Byte) :=
  if n = 0 then .done [] (s.record (.srcRead 0 (.ok [])))
  else match s.source with
    | [] => .hold () s
    | .delays :: rest => .hold () { s with source := rest }
    | .answers (.err e) :: rest => .ioerr e ({ s with source := rest }.record (.srcRead n (.err e)))
    | .answers (.ok bytes) :: rest =>
      if bytes.length = n then .done bytes ({ s with source := rest }.record (.srcRead n (.ok bytes)))
      else .refuse (.sourceContract n bytes.length)

/-! The bit buffer. -/

/-- Refill: all eight bits of the byte enter at once, most significant at the front (R71, R74). -/
def refill (b : Byte) (s : State) : State := { s with sr := b, cnt := 8 }

/-- The bit at the front, `SR[7]` (R72, R74). -/
def frontBit (s : State) : Bool := s.sr.msb

/-- Pop: SR shifts left by one, bit 0 filled with 0, and CNT drops by one (R72, R74). -/
def pop (s : State) : State := { s with sr := s.sr <<< 1, cnt := s.cnt - 1 }

/-- BYTE_ALIGN's and construction's clearing of the buffer, SR included (R121, R26). -/
def clearBuffer (s : State) : State := { s with sr := 0x00, cnt := 0 }

/-- `next_bit` in its register form (R74): a refill when the buffer is empty, then a pop. -/
def nextBit (s : State) : Fetch Unit Bool :=
  if s.cnt = 0 then
    match srcRead Config.refillLen s with
    | .done bytes s1 =>
      let s2 := refill (bytes.headD 0) s1
      .done (frontBit s2) (pop s2)
    | .ioerr e s1 => .ioerr e s1
    | .hold w s1 => .hold w s1
    | .refuse r => .refuse r
  else .done (frontBit s) (pop s)

/-! The bit-slice extractor. -/

/-- The loop of R80: one `next_bit` and one shift of ACC for each bit. A hold says how many bits are left. -/
def shiftIn : Nat → State → Fetch Nat Unit
  | 0, s => .done () s
  | n + 1, s =>
    match nextBit s with
    | .done b s1 => shiftIn n { s1 with acc := shiftInBit s1.acc b }
    | .ioerr e s1 => .ioerr e s1
    | .hold _ s1 => .hold (n + 1) s1
    | .refuse r => .refuse r

/-- The end of an extraction: the pattern is taken from ACC, which then holds nothing that anybody may read; after
a failure it is discarded (R14, R82, R136 (b)). -/
def takeAcc : Fetch Nat Unit → Fetch Nat Word
  | .done _ s => .done s.acc s.freeAcc
  | .ioerr e s => .ioerr e s.freeAcc
  | .hold left s => .hold left s
  | .refuse r => .refuse r

/-- The internal function `read(bits)` (R80). -/
def readBits (bits : Nat) (s : State) : Fetch Nat Word := takeAcc (shiftIn bits { s with acc := 0 })

/-- `read(bits)` taken up again after a hold, `left` bits before its end. -/
def resumeBits (left : Nat) (s : State) : Fetch Nat Word := takeAcc (shiftIn left s)

/-! The destination. -/

/-- `DstWrite(i, b)` (R42): it cannot fail. -/
def dstWrite (i : Nat) (b : Byte) (s : State) : State :=
  { s with dst := s.dst.write i b }.record (.dstWrite i b)

/-- `DstWrite` of each byte at ascending indices from `i` (R101). -/
def dstWriteAll : Nat → List Byte → State → State
  | _, [], s => s
  | i, b :: rest, s => dstWriteAll (i + 1) rest (dstWrite i b s)

/-! The end of a command. -/

/-- `respond`: exactly one response, after every effect of the command; the block is idle again (R45 (c), R57). -/
def respond (r : Response) (s : State) : State := { s with busy := none }.record (.respond r)

/-- What an I/O error does (R136): the operation has stopped at the failing `SrcRead`, its effects so far stand, and
the response is status IOERR with the payload unchanged and no value. Nothing is saved, no mode changes and no
handler runs. There is no return from it: the block accepts the next command at once, under its ordinary rules,
and keeps no record of the error (R138). -/
def raiseIOError (e : Err) (s : State) : State := respond (.ioerr e) s

/-- A command is held on the source, with what is left of it (R146). -/
def holdOn (t : Task) (s : State) : State := { s with busy := some t }

end Sys2Proof.Machine
end

