-- ==== Sys2Proof/Machine/Read.lean ====
section
/-! DEFINITION. READ, READ_SIGNED and SKIP (R80 to R92). -/

namespace Sys2Proof.Machine

/-- The end of an extractor command: OK with its value (R58), IOERR (R82), or held with the bits still to come. -/
def finishExtract (op : Extract) (bits : Nat) : Fetch Nat Word → Host.Outcome State Fault Refusal
  | .done v s => .next (respond (.ok (op.value bits v)) s)
  | .ioerr e s => .next (raiseIOError e s)
  | .hold left s => .next (holdOn (.extract op bits left) s)
  | .refuse r => .refused r

/-- An extractor command: `read(bits)`, then its value. Widths outside 1 to 32 are no defined command (R55, R90). -/
def runExtract (op : Extract) (bits : Nat) (s : State) : Host.Outcome State Fault Refusal :=
  if legalBits bits then finishExtract op bits (readBits bits s) else .refused (.widthOutOfRange bits)

/-- READ (R80). -/
def execRead (bits : Nat) (s : State) : Host.Outcome State Fault Refusal := runExtract .read bits s

/-- READ_SIGNED (R84, R85). -/
def execReadSigned (bits : Nat) (s : State) : Host.Outcome State Fault Refusal := runExtract .readSigned bits s

/-- SKIP (R87). -/
def execSkip (bits : Nat) (s : State) : Host.Outcome State Fault Refusal := runExtract .skip bits s

/-- A held extractor command goes on. -/
def resumeExtract (op : Extract) (bits left : Nat) (s : State) : Host.Outcome State Fault Refusal :=
  finishExtract op bits (resumeBits left s)

end Sys2Proof.Machine
end

