-- ==== Sys2Proof/Machine/ReadBytes.lean ====
section
/-! DEFINITION. READ_BYTES (R100 to R107). -/

namespace Sys2Proof.Machine

/-- The aligned path (R101, R103): one `SrcRead(len)`, and no `DstWrite` before it has answered `Ok`. -/
def bulkRead (len : Nat) (s : State) : Host.Outcome State Fault Refusal :=
  match srcRead len s with
  | .done bytes s1 => .next (respond (.ok 0) (dstWriteAll 0 bytes s1))
  | .ioerr e s1 => .next (raiseIOError e s1)
  | .hold _ s1 => .next (holdOn (.bulk len) s1)
  | .refuse r => .refused r

/-- The loop of the unaligned path (R102): `n` more bytes from index `i` on, each by `read(8)`, each written as soon
as it is complete. A hold says which byte is being assembled and how many bits it lacks. -/
def fillBytes : Nat → Nat → State → Fetch (Nat × Nat) Unit
  | 0, _, s => .done () s
  | n + 1, i, s =>
    match readBits 8 s with
    | .done v s1 => fillBytes n (i + 1) (dstWrite i (lowByte v) s1)
    | .ioerr e s1 => .ioerr e s1
    | .hold left s1 => .hold (i, left) s1
    | .refuse r => .refuse r

/-- The end of the unaligned path (R102, R104). -/
def finishBytes (len : Nat) : Fetch (Nat × Nat) Unit → Host.Outcome State Fault Refusal
  | .done _ s => .next (respond (.ok 0) s)
  | .ioerr e s => .next (raiseIOError e s)
  | .hold w s => .next (holdOn (.assemble len w.1 w.2) s)
  | .refuse r => .refused r

/-- READ_BYTES (R100): the path is chosen once, at the start, from ALIGNED. -/
def execReadBytes (len : Nat) (s : State) : Host.Outcome State Fault Refusal :=
  if legalLen len then
    if s.aligned then bulkRead len s else finishBytes len (fillBytes len 0 s)
  else .refused (.lengthOutOfRange len)

/-- A held unaligned READ_BYTES goes on: byte `i` is completed and written, then the rest of the loop runs. -/
def resumeAssemble (len i left : Nat) (s : State) : Host.Outcome State Fault Refusal :=
  match resumeBits left s with
  | .done v s1 => finishBytes len (fillBytes (len - (i + 1)) (i + 1) (dstWrite i (lowByte v) s1))
  | .ioerr e s1 => .next (raiseIOError e s1)
  | .hold left1 s1 => .next (holdOn (.assemble len i left1) s1)
  | .refuse r => .refused r

end Sys2Proof.Machine
end

