-- ==== Sys2Proof/Machine/Unary.lean ====
section
/-! DEFINITION. READ_UNARY0 and READ_UNARY1 (R110 to R115). -/

namespace Sys2Proof.Machine

/-- As many bits as the buffer and the source's answers can still give. -/
def bitsAhead (s : State) : Nat := s.cnt.toNat + 8 * s.source.length

/-- The loop of R110 and R111. It has no bound (R112): each turn uses up one of the bits ahead or ends, so with more
turns than `bitsAhead` it ends by the stop bit, by a failure or by a source that does not answer, never for want
of turns (Laws/Consume.lean). A count that UC cannot hold is refused (R114). -/
def unaryLoop (stop : Bool) : Nat → State → Fetch Unit Unit
  | 0, s => .hold () s
  | turns + 1, s =>
    match readBits 1 s with
    | .done v s1 =>
      if v.getLsbD 0 = stop then .done () s1
      else if s1.uc = Config.ucMax then .refuse .unaryOverflow
      else unaryLoop stop turns { s1 with uc := s1.uc + 1 }
    | .ioerr e s1 => .ioerr e s1
    | .hold _ s1 => .hold () s1
    | .refuse r => .refuse r

/-- The end of a unary read: the count is the response, and UC then holds nothing that anybody may read; after a
failure it is discarded (R15, R113, R136 (b)). -/
def finishUnary (stop : Bool) : Fetch Unit Unit → Host.Outcome State Fault Refusal
  | .done _ s => .next (respond (.ok s.uc) s.freeUc)
  | .ioerr e s => .next (raiseIOError e s.freeUc)
  | .hold _ s => .next (holdOn (.unary stop) s)
  | .refuse r => .refused r

/-- A unary read goes on from the count it has reached. -/
def resumeUnary (stop : Bool) (s : State) : Host.Outcome State Fault Refusal :=
  finishUnary stop (unaryLoop stop (bitsAhead s + 1) s)

/-- A unary read from its start: UC is cleared (R110). -/
def runUnary (stop : Bool) (s : State) : Host.Outcome State Fault Refusal :=
  resumeUnary stop { s with uc := 0 }

/-- READ_UNARY0: counts 1s, stops on 0 (R110). -/
def execReadUnary0 (s : State) : Host.Outcome State Fault Refusal := runUnary false s

/-- READ_UNARY1: counts 0s, stops on 1 (R111). -/
def execReadUnary1 (s : State) : Host.Outcome State Fault Refusal := runUnary true s

end Sys2Proof.Machine
end

