-- ==== Sys2Proof/Machine/Client.lean ====
section
/-! DEFINITION. The client's moves (R166): construction (R160 to R162), release (R165), attaching a destination
buffer (R53), presenting a command (R50); and a held command going on (R146). -/

namespace Sys2Proof.Machine

/-- Construction (R26, R160, R161): the buffer is empty, no command is in progress, no response pending, ACC and UC
unspecified, and the record starts anew, so that the stream of the new instance begins with the next byte handed
over. No `SrcRead` is made, and source and destination are untouched (R26); `src` is another source, if the
client wraps another. -/
def construct (src : Option (List SrcMove)) (s : State) : State :=
  { (clearBuffer s).freeAcc.freeUc with
    busy := none
    live := true
    source := src.getD s.source
    trace := [] }

/-- Release (R165): no `SrcRead`, no `DstWrite`, no response, no flush; the instance exists no longer. -/
def releaseInstance (s : State) : State := { s with live := false }

/-- The client attaches another destination buffer; the one before it is the client's and keeps its bytes. Only this move
takes a buffer off the port: the end of a command does not, DESIGN CHOICE (log 24). -/
def attachBuffer (cells : Memory) (s : State) : State :=
  { s with dst := Memory.ofCells cells, detached := s.detached ++ [s.dst] }

/-- What the client's next move comes to when the block is idle. -/
inductive Presented where
  /-- A defined command to run. -/
  | run (i : Instr) (s : State)
  /-- No command: the move is complete, or the client makes none. -/
  | settled (s : State)
  /-- A move the model gives no meaning. -/
  | refuse (r : Refusal)

/-- The command port (R50): a word is decoded (R59) and refused, by class and word, where it is no defined command
(R56). No instance, no command (R165). -/
def presentCommand (w : Word) (s : State) : Presented :=
  if s.live then
    match decode w with
    | .ok i => .run i s
    | .error c => .refuse (.reservedWord c w)
  else .refuse .noInstance

/-- The client's next move (R166). With no move the block is idle and keeps `buf` (R149). -/
def clientTurn (s : State) : Presented :=
  match s.client with
  | [] => .settled s
  | .command w :: rest => presentCommand w { s with client := rest }
  | .attach cells :: rest => .settled (attachBuffer cells { s with client := rest })
  | .construct src :: rest => .settled (construct src { s with client := rest })
  | .release :: rest =>
    if s.live then .settled (releaseInstance { s with client := rest }) else .refuse .noInstance

/-- A held command goes on (R146): only the source's answer lifts the hold, and until then the state stands. -/
def resumeTask (t : Task) (s : State) : Host.Outcome State Fault Refusal :=
  match t with
  | .extract op bits left => resumeExtract op bits left s
  | .bulk len => bulkRead len s
  | .assemble len i left => resumeAssemble len i left s
  | .unary stop => resumeUnary stop s

/-- Puts a command word on the command port as the client's next move, with an instance to take it and no other
command in progress. -/
def placeCommand (w : Word) (s : State) : State :=
  { s with client := .command w :: s.client, busy := none, live := true }

end Sys2Proof.Machine
end

