-- ==== Sys2Proof/Machine/Align.lean ====
section
/-! DEFINITION. BYTE_ALIGNED and BYTE_ALIGN (R120 to R126): neither touches the source and neither can fail. -/

namespace Sys2Proof.Machine

/-- BYTE_ALIGNED (R120). -/
def execByteAligned (s : State) : Host.Outcome State Fault Refusal :=
  .next (respond (.ok (if s.aligned then 1 else 0)) s)

/-- BYTE_ALIGN (R121): unconditional. -/
def execByteAlign (s : State) : Host.Outcome State Fault Refusal := .next (respond (.ok 0) (clearBuffer s))

end Sys2Proof.Machine
end

