-- ==== Sys2Proof/Machine/Dispatch.lean ====
section
/-! DEFINITION. The meaning of every command, one arm each. -/

namespace Sys2Proof.Machine

def exec (i : Instr) (s : State) : Host.Outcome State Fault Refusal :=
  match i with
  | .read bits => Sys2Proof.Machine.execRead bits s
  | .readSigned bits => Sys2Proof.Machine.execReadSigned bits s
  | .skip bits => Sys2Proof.Machine.execSkip bits s
  | .readBytes len => Sys2Proof.Machine.execReadBytes len s
  | .readUnary0 => Sys2Proof.Machine.execReadUnary0 s
  | .readUnary1 => Sys2Proof.Machine.execReadUnary1 s
  | .byteAligned => Sys2Proof.Machine.execByteAligned s
  | .byteAlign => Sys2Proof.Machine.execByteAlign s

end Sys2Proof.Machine
end

