-- ==== Sys2Proof/Machine/Step.lean ====
section
/-! DEFINITION. One step: a held command goes on, or the block, being idle, takes the client's next move, and a
command runs to its response or to its hold (R167, R180). -/

namespace Sys2Proof.Machine

/-- One step of the machine. -/
def step (s : State) : Host.Outcome State Fault Refusal :=
  match s.busy with
  | some t => resumeTask t s
  | none =>
    match clientTurn s with
    | .run i s1 => exec i s1
    | .settled s1 => .next s1
    | .refuse r => .refused r

/-- The command word `w` placed where the next step takes it: on the command port. Commands are one 32-bit word
(R51), and the bits from `nbits` up are 0. -/
def State.withFetchWord (s : State) (nbits w : Nat) : State := placeCommand (BitVec.ofNat 32 (w % 2 ^ nbits)) s

end Sys2Proof.Machine
end

