-- ==== Sys2Proof/Machine/Assembler.lean ====
section
/-! DEFINITION. The textual form of commands and of listings (R61, R62): one command per line, and every line is one
command word. -/

namespace Sys2Proof.Machine

/-- The document's lower-case operation name (R61). -/
def asmName : Instr → List Char
  | .read _ => ['r', 'e', 'a', 'd']
  | .readSigned _ => ['r', 'e', 'a', 'd', '_', 's', 'i', 'g', 'n', 'e', 'd']
  | .skip _ => ['s', 'k', 'i', 'p']
  | .readBytes _ => ['r', 'e', 'a', 'd', '_', 'b', 'y', 't', 'e', 's']
  | .readUnary0 => ['r', 'e', 'a', 'd', '_', 'u', 'n', 'a', 'r', 'y', '0']
  | .readUnary1 => ['r', 'e', 'a', 'd', '_', 'u', 'n', 'a', 'r', 'y', '1']
  | .byteAligned => ['b', 'y', 't', 'e', '_', 'a', 'l', 'i', 'g', 'n', 'e', 'd']
  | .byteAlign => ['b', 'y', 't', 'e', '_', 'a', 'l', 'i', 'g', 'n']

/-- The digit of a value below 16. -/
def digitChar (d : Nat) : Char :=
  if d < 10 then Char.ofNat ('0'.toNat + d) else Char.ofNat ('a'.toNat + (d - 10))

/-- Decimal digits, with as many turns as the caller allows. -/
def decimalDigits : Nat → Nat → List Char
  | 0, _ => []
  | turns + 1, n =>
    if n < 10 then [digitChar n] else decimalDigits turns (n / 10) ++ [digitChar (n % 10)]

/-- A number in decimal. -/
def decimal (n : Nat) : List Char := decimalDigits (n + 1) n

/-- A number in decimal, with its sign where it is negative. -/
def signedDecimal (n : Int) : List Char := if n < 0 then '-' :: decimal n.natAbs else decimal n.natAbs

/-- A command as a line of text: the name, then for format A its operand in decimal after a space (R61). -/
def asmText (i : Instr) : List Char :=
  match i with
  | .read n => asmName i ++ ' ' :: decimal n
  | .readSigned n => asmName i ++ ' ' :: decimal n
  | .skip n => asmName i ++ ' ' :: decimal n
  | .readBytes n => asmName i ++ ' ' :: decimal n
  | .readUnary0 => asmName i
  | .readUnary1 => asmName i
  | .byteAligned => asmName i
  | .byteAlign => asmName i

/-- A digit's value in a base up to 16, in either case. -/
def digitValue (base : Nat) (c : Char) : Option Nat :=
  let v :=
    if '0' ≤ c ∧ c ≤ '9' then c.toNat - '0'.toNat
    else if 'a' ≤ c ∧ c ≤ 'f' then c.toNat - 'a'.toNat + 10
    else if 'A' ≤ c ∧ c ≤ 'F' then c.toNat - 'A'.toNat + 10
    else 16
  if v < base then some v else none

/-- Digits of a base, read from the left onto a value. -/
def readDigits (base : Nat) : Nat → List Char → Option Nat
  | v, [] => some v
  | v, c :: rest =>
    match digitValue base c with
    | some d => readDigits base (v * base + d) rest
    | none => none

/-- A decimal or `0x` hexadecimal operand, at least one digit (R61). -/
def readNumber : List Char → Option Nat
  | [] => none
  | '0' :: 'x' :: c :: rest => readDigits 16 0 (c :: rest)
  | cs => readDigits 10 0 cs

/-- The words of a line, split at spaces; spaces around and between them carry nothing. -/
def splitWords : List Char → List (List Char)
  | [] => []
  | ' ' :: rest => [] :: splitWords rest
  | c :: rest =>
    match splitWords rest with
    | [] => [[c]]
    | w :: ws => (c :: w) :: ws

/-- The words of a line before its comment (R61: `#` starts a comment).
DESIGN CHOICE (log 17): runs of spaces count as one. -/
def lineWords (line : List Char) : List (List Char) :=
  (splitWords (line.takeWhile (· ≠ '#'))).filter (fun w => !w.isEmpty)

/-- An operand in its range, or no command: the assembler rejects it (R61). -/
def checkedCommand (mk : Nat → Instr) (operand : List Char) : Option Instr :=
  match readNumber operand with
  | some n => if (mk n).wf then some (mk n) else none
  | none => none

/-- The command of a line; `none` where the line is not one command of R61. -/
def parseLine (line : List Char) : Option Instr :=
  match lineWords line with
  | [name] =>
    if name = asmName .readUnary0 then some .readUnary0
    else if name = asmName .readUnary1 then some .readUnary1
    else if name = asmName .byteAligned then some .byteAligned
    else if name = asmName .byteAlign then some .byteAlign
    else none
  | [name, operand] =>
    if name = asmName (.read 0) then checkedCommand .read operand
    else if name = asmName (.readSigned 0) then checkedCommand .readSigned operand
    else if name = asmName (.skip 0) then checkedCommand .skip operand
    else if name = asmName (.readBytes 0) then checkedCommand .readBytes operand
    else none
  | _ => none

/-- The word a line assembles to (R62). -/
def assembleLine (line : List Char) : Option Word := (parseLine line).map encode

/-- A listing's lines assembled in order; lines with no command on them are passed over, and one that is no command
rejects the listing. -/
def assemble : List (List Char) → Option (List Word)
  | [] => some []
  | line :: rest =>
    if lineWords line = [] then assemble rest
    else match assembleLine line, assemble rest with
      | some w, some ws => some (w :: ws)
      | _, _ => none

/-- The result of a command as listings write it (R61): READ_SIGNED's value is shown signed, every other one
unsigned, in decimal. -/
def responseText (i : Instr) (r : Response) : List Char :=
  match r, i with
  | .ioerr _, _ => ['I', 'O', 'E', 'R', 'R']
  | .ok v, .readSigned _ => ['O', 'K', ' '] ++ signedDecimal v.toInt
  | .ok v, _ => ['O', 'K', ' '] ++ decimal v.toNat

/-- A command with its result, written after an arrow (R61). -/
def listingText (i : Instr) (r : Response) : List Char := asmText i ++ [' ', '-', '>', ' '] ++ responseText i r

end Sys2Proof.Machine
end

