-- ==== Sys2Proof/Machine/ByteParallel.lean ====
section
/-! DEFINITION. The bit-slice extractor in its byte-parallel form (R89). The per-bit loop of Ops.lean is the definition
of `read(bits)`; no meaning calls this form, which the spec says computes the same. -/

namespace Sys2Proof.Machine

/-- `m` requests of one byte each, one after the other (R83, R89). -/
def pullBytes : Nat → State → Fetch Unit (List Byte)
  | 0, s => .done [] s
  | m + 1, s =>
    match srcRead Config.refillLen s with
    | .done bytes s1 =>
      match pullBytes m s1 with
      | .done more s2 => .done (bytes ++ more) s2
      | .ioerr e s2 => .ioerr e s2
      | .hold w s2 => .hold w s2
      | .refuse r => .refuse r
    | .ioerr e s1 => .ioerr e s1
    | .hold w s1 => .hold w s1
    | .refuse r => .refuse r

/-- Bytes appended below a pattern (R89: `W <- W ++ B_j`). -/
def appendBytes (w : Nat) (bytes : List Byte) : Nat := bytes.foldl (fun v b => v * 2 ^ 8 + b.toNat) w

/-- The byte-parallel form of `read(n)` (R89), with `k = CNT`. -/
def readParallel (n : Nat) (s : State) : Fetch Unit Word :=
  let k := s.cnt.toNat
  if n ≤ k then
    .done (BitVec.ofNat 32 (s.sr.toNat / 2 ^ (8 - n))) { s with sr := s.sr <<< n, cnt := BitVec.ofNat 4 (k - n) }
  else
    let m := (n - k + 7) / 8
    match pullBytes m s with
    | .done bytes s1 =>
      let w := appendBytes (s.sr.toNat / 2 ^ (8 - k)) bytes
      let r := k + 8 * m - n
      .done (BitVec.ofNat 32 (w / 2 ^ r))
        { s1 with sr := bytes.getLastD 0 <<< (8 - r), cnt := BitVec.ofNat 4 r }
    | .ioerr e s1 => .ioerr e (clearBuffer s1)
    | .hold w s1 => .hold w s1
    | .refuse r => .refuse r

end Sys2Proof.Machine
end

