-- ==== Sys2Proof/Safety.lean ====
section
/-! DEFINITION. What holds of every state a run can be in: the canonical form of the registers (R13), the buffer being
the undelivered end of the stream (R11, R18), what a held command looks like (R146), and the canonical form of
the destination memories. A run is safe when every state of it meets `Inv` and no step of it is refused; the
machine has no faults (R130). -/

namespace Sys2Proof.Machine

/-- At most 7 bits are buffered, and SR is zero below them (R10, R13). -/
abbrev State.Canonical (s : State) : Prop := s.cnt.toNat ≤ Config.bufMaxRest ∧ s.sr <<< s.cnt.toNat = 0

/-- `buf = [s[POS], …, s[8·NB − 1]]` (R18): the buffered bits are the last ones of the stream delivered so far. -/
abbrev State.BufferIsStreamEnd (s : State) : Prop := s.buf <:+ s.streamBits

/-- What is left of a held command is a proper part of it, and ACC holds only what it has extracted (R80). -/
def Task.legal (t : Task) (acc : Word) : Bool :=
  match t with
  | .extract _ bits left =>
    decide (legalBits bits) && decide (1 ≤ left) && decide (left ≤ bits) && decide (acc.toNat < 2 ^ (bits - left))
  | .bulk len => decide (1 ≤ len) && decide (legalLen len)
  | .assemble len i left =>
    decide (legalLen len) && decide (i < len) && decide (1 ≤ left) && decide (left ≤ 7) &&
      decide (acc.toNat < 2 ^ (8 - left))
  | .unary _ => acc == 0

/-- A held command is one of a live instance whose buffer is empty (R146: "its state is that of the moment the
`SrcRead` was issued"). -/
def State.holdLegal (s : State) : Bool :=
  match s.busy with
  | none => true
  | some t => s.live && s.aligned && t.legal s.acc

/-- Every destination memory is in its canonical form. -/
def State.memoriesWf (s : State) : Bool := s.dst.wf && s.detached.all Memory.wf

/-- The invariant of the machine. -/
abbrev State.Inv (s : State) : Prop :=
  s.Canonical ∧ s.BufferIsStreamEnd ∧ s.holdLegal = true ∧ s.memoriesWf = true

/-! Terms for claims: a source that answers one-byte requests, and the state after a run of bits. -/

/-- The answers of a source that hands over these bytes one request at a time. -/
def byteAnswers (bytes : List Byte) : List SrcMove := bytes.map fun b => .answers (.ok [b])

/-- The record of one-byte requests that were answered with these bytes. -/
def byteReads (bytes : List Byte) : List Event := bytes.map fun b => .srcRead 1 (.ok [b])

/-- The number of one-byte requests that `n` bits take when `k` are buffered (R83). -/
def needBytes (k n : Nat) : Nat := (n - k + 7) / 8

/-- The buffered bits and, after them, those of further bytes: the stream bit string from the cursor on (R18). -/
def State.bitsWith (s : State) (bytes : List Byte) : List Bool := s.buf ++ bytes.flatMap byteBits

/-- The state once `n` of the bits `s.bitsWith bytes` are consumed, the bytes having been handed over one by one and
the source being left with `tail`: the bits not consumed are the buffer, left-justified in SR (R12, R13). -/
def State.afterBits (s : State) (n : Nat) (bytes : List Byte) (tail : List SrcMove) : State :=
  { s with
    sr := leftJustify ((s.bitsWith bytes).drop n)
    cnt := BitVec.ofNat 4 ((s.bitsWith bytes).drop n).length
    source := tail
    trace := s.trace ++ byteReads bytes }

/-- The destination index an event writes. -/
def writeIndex : Event → Option Nat
  | .dstWrite i _ => some i
  | .srcRead _ _ => none
  | .respond _ => none

/-- The destination after an event. -/
def afterEvent (m : Memory) : Event → Memory
  | .dstWrite i b => m.write i b
  | .srcRead _ _ => m
  | .respond _ => m

/-- A step that is neither refused nor a fault, from a state that meets the invariant to one that does. -/
def SafeStep (s : State) : Prop := s.Inv ∧ ∃ t, step s = .next t ∧ t.Inv

end Sys2Proof.Machine
end

