-- ==== Sys2Proof/Certificates/Slice0/Obligations.lean ====
section
/-! DEFINITION. The statements about the machine, for the provers. Each docstring names the rules it formalises. -/

namespace Sys2Proof.Claims

open Sys2Proof.Machine

/-- The command ran to its response `r`, the one response it gives (R57). -/
def Completes (s t : State) (r : Response) : Prop := t.busy = none ∧ t.responses = s.responses ++ [r]

/-- The extractor's commands by operation. -/
def extractOf : Extract → Nat → Instr
  | .read => .read
  | .readSigned => .readSigned
  | .skip => .skip

/-- The unary read with this stop bit: the digit in its name. -/
def unaryOf : Bool → Instr
  | false => .readUnary0
  | true => .readUnary1

/-- Destination byte `i` of an unaligned READ_BYTES: eight bits of the stream from the cursor on (R39, R102). -/
def assembled (bits : List Bool) (i : Nat) : Byte := BitVec.ofNat 8 (natOfBits ((bits.drop (8 * i)).take 8))

/-- The events of an unaligned READ_BYTES over these source bytes: one request and one write for each (R102). -/
def fillEvents (bits : List Bool) (bytes : List Byte) : List Event :=
  (List.range bytes.length).flatMap fun i =>
    [.srcRead 1 (.ok [bytes.getD i 0]), .dstWrite i (assembled bits i)]

/-- The writes of an aligned READ_BYTES (R101). -/
def bulkWrites (bytes : List Byte) : List Event :=
  (List.range bytes.length).map fun i => .dstWrite i (bytes.getD i 0)

/-- So many commands `read 8` one after the other, stopping where one is refused. -/
def runReads : Nat → State → Host.Outcome State Fault Refusal
  | 0, s => .next s
  | k + 1, s =>
    match exec (.read 8) s with
    | .next t => runReads k t
    | o => o

/-- Equal as far as the reader and its source go: registers, source, requests made. -/
def SameReader (t u : State) : Prop :=
  t.sr = u.sr ∧ t.cnt = u.cnt ∧ t.source = u.source ∧ t.requests = u.requests

/-- Equal but for ACC, whose value nobody may read between operations (R14). -/
def EqualButAcc (t u : State) : Prop := t = { u with acc := t.acc, fresh := t.fresh }

/-- Two runs of the extractor go the same way (R89). -/
def SameFetch : Fetch Nat Word → Fetch Unit Word → Prop
  | .done v t, .done w u => v = w ∧ EqualButAcc t u
  | .ioerr e t, .ioerr d u => e = d ∧ EqualButAcc t u
  | .hold _ _, .hold _ _ => True
  | .refuse r, .refuse q => r = q
  | _, _ => False

/-- Where the cursor stands after a command that completed with this response (R19). -/
def CursorAfter (i : Instr) (s t : State) : Response → Prop
  | .ioerr _ => t.pos = 8 * t.nb ∧ ∀ len, i = .readBytes len → s.aligned = true → t.pos = s.pos
  | .ok v =>
    match i with
    | .read n => t.pos = s.pos + n
    | .readSigned n => t.pos = s.pos + n
    | .skip n => t.pos = s.pos + n
    | .readBytes len => t.pos = s.pos + 8 * len
    | .readUnary0 => t.pos = s.pos + v.toNat + 1
    | .readUnary1 => t.pos = s.pos + v.toNat + 1
    | .byteAligned => t.pos = s.pos
    | .byteAlign => t.pos = s.pos + s.buf.length ∧ t.pos = 8 * s.nb ∧ s.pos ≤ t.pos ∧ t.pos < s.pos + 8

/-- The events hold no answer that is an error. -/
def NoError (evs : List Event) : Prop := ∀ n e, Event.srcRead n (.err e) ∉ evs

/-- The events hold no response. -/
def NoResponse (evs : List Event) : Prop := ∀ r, Event.respond r ∉ evs

/-- The value field of a command from `s` to `t` whose status is OK (R58), as far as the kind of the command gives it: a
bit pattern of its width, a count, a flag, or nothing, which is 0. -/
def PortValue (i : Instr) (s t : State) (v : Word) : Prop :=
  match i with
  | .read n => v.toNat < 2 ^ n
  | .readSigned n => -2 ^ (n - 1) ≤ v.toInt ∧ v.toInt < 2 ^ (n - 1)
  | .skip _ => v = 0
  | .readBytes _ => v = 0
  | .readUnary0 => ∃ bytes, t.delivered = s.delivered ++ bytes ∧
      s.bitsWith bytes = List.replicate v.toNat true ++ false :: t.buf
  | .readUnary1 => ∃ bytes, t.delivered = s.delivered ++ bytes ∧
      s.bitsWith bytes = List.replicate v.toNat false ++ true :: t.buf
  | .byteAligned => v = if s.buf = [] then 1 else 0
  | .byteAlign => v = 0

/-- Payloads renamed in an answer. -/
def mapAnswer (f : Err → Err) : SrcAnswer → SrcAnswer
  | .ok bytes => .ok bytes
  | .err e => .err (f e)

/-- Payloads renamed in a turn of the source. -/
def mapMove (f : Err → Err) : SrcMove → SrcMove
  | .answers a => .answers (mapAnswer f a)
  | .delays => .delays

/-- Payloads renamed in an event. -/
def mapEvent (f : Err → Err) : Event → Event
  | .srcRead n a => .srcRead n (mapAnswer f a)
  | .dstWrite i b => .dstWrite i b
  | .respond (.ok v) => .respond (.ok v)
  | .respond (.ioerr e) => .respond (.ioerr (f e))

/-- Payloads renamed in what the source will do and in the record. -/
def mapState (f : Err → Err) (s : State) : State :=
  { s with source := s.source.map (mapMove f), trace := s.trace.map (mapEvent f) }

/-- Payloads renamed in an outcome. -/
def mapOutcome (f : Err → Err) : Host.Outcome State Fault Refusal → Host.Outcome State Fault Refusal
  | .next t => .next (mapState f t)
  | .fault r => .fault r
  | .refused r => .refused r

end Sys2Proof.Claims

open Sys2Proof Sys2Proof.Machine Sys2Proof.Claims

/-! Encoding. -/

/-- R54: every legal command is what its word decodes to, with every operand value. -/
def Obligations.EncodedCommandDecodesBack : Prop :=
  ∀ i : Instr, i.wf = true → decode (encode i) = .ok i

/-- R54, R59: a word that is a command is that command's one word, and the command is legal. -/
def Obligations.DecodedWordEncodesBack : Prop :=
  ∀ (w : Word) (i : Instr), decode w = .ok i → i.wf = true ∧ encode i = w

/-- R55: a word is the command of a row exactly when mask, match and the range of ARG say so, and it is refused when
it is the command of no row. -/
def Obligations.WordIsTheCommandOfItsTableRow : Prop :=
  ∀ w : Word,
    (∀ i : Instr, decode w = .ok i ↔ i.row.holds w = true ∧ i.arg = argField w) ∧
    ((∃ c, decode w = .error c) ↔ ∀ i : Instr, i.row.holds w = false)

/-- R56, R59: which words are of which class, with U4 named before U3 before U1 before U2. -/
def Obligations.ReservedWordsAreNamedInOrder : Prop :=
  ∀ w : Word,
    (decode w = .error .u4 ↔ rsvField w ≠ 0) ∧
    (decode w = .error .u3 ↔ rsvField w = 0 ∧ 4 ≤ opField w ∧ argField w ≠ 0) ∧
    (decode w = .error .u1 ↔ rsvField w = 0 ∧ opField w ≤ 2 ∧ argField w = 0) ∧
    (decode w = .error .u2 ↔ rsvField w = 0 ∧ opField w ≤ 2 ∧ 33 ≤ argField w)

/-- R54's example words, one for each operation number, written out from the layout of R51. -/
def Obligations.SpecCommandWordsDecode : Prop :=
  decode 0x00000400 = .ok (.read 4) ∧ decode 0x00002001 = .ok (.readSigned 32) ∧
  decode 0x00000C02 = .ok (.skip 12) ∧ decode 0x00000203 = .ok (.readBytes 2) ∧
  decode 0x00000004 = .ok .readUnary0 ∧ decode 0x00000005 = .ok .readUnary1 ∧
  decode 0x00000006 = .ok .byteAligned ∧ decode 0x00000007 = .ok .byteAlign

/-- R61: the assembler reads the text of a legal command as that command, and rejects one whose operand is out of
range. -/
def Obligations.AssemblerReadsItsOwnText : Prop :=
  ∀ i : Instr, parseLine (asmText i) = if i.wf = true then some i else none

/-! One step. -/

/-- R167, R180, R51: when the block is idle, with an instance (`live`: log 12), and the client presents a word that is a
command, a step is that command. The second clause is of no rule: it says what the model's interface `withFetchWord`
does (log 19, DESIGN CHOICE), which drops a command in progress and makes the instance live, and the next step runs the
word placed. -/
def Obligations.StepRunsThePresentedCommand : Prop :=
  (∀ (s : State) (w : Word) (rest : List ClientMove) (i : Instr),
    s.busy = none → s.live = true → s.client = .command w :: rest → decode w = .ok i →
      step s = exec i { s with client := rest }) ∧
  (∀ (s : State) (nbits w : Nat) (i : Instr), decodeTableWord nbits w = some i →
      step (s.withFetchWord nbits w) = exec i { s with busy := none, live := true })

/-- R56: a presented word that is no command is refused, by class and word; after release every word is refused
(R165; the refusal after release is the model's, log 12). -/
def Obligations.ReservedWordIsRefusedByClassAndWord : Prop :=
  ∀ (s : State) (w : Word) (rest : List ClientMove), s.busy = none → s.client = .command w :: rest →
    (∀ c, s.live = true → decode w = .error c → step s = .refused (.reservedWord c w)) ∧
    (s.live = false → step s = .refused .noInstance)

/-- R146: a step of a held block is its command taken up again, and of nothing else; until the source answers it keeps
its state, and it takes no command from the client. The script of the source, its turn `delays` and the form of what is
taken up again are the model's (log 1, 2). -/
def Obligations.HeldBlockWaitsForItsSource : Prop :=
  (∀ (s : State) (k : Task), s.busy = some k → step s = resumeTask k s) ∧
  ∀ s : State, s.Inv → s.busy ≠ none →
    (s.source = [] → step s = .next s) ∧
    (∀ rest, s.source = .delays :: rest → step s = .next { s with source := rest }) ∧
    (∀ t, step s = .next t → t.client = s.client)

/-- R180, R146: a source that delays its answer changes nothing but when the command ends. A command that is held, and
then goes on in a step over the answers `more`, is the command run over all the answers at once. The turn `delays` and
what a held command keeps are the model's (log 2). -/
def Obligations.DelaysChangeNothingElse : Prop :=
  ∀ (i : Instr) (s t : State) (k : Task) (more : List SrcMove), SrcMove.delays ∉ s.source →
    exec i s = .next t → t.busy = some k →
      exec i { s with source := s.source ++ .delays :: more } = .next { t with source := more } ∧
      resumeTask k { t with source := more } = exec i { s with source := s.source ++ more } ∧
      step { t with source := more } = exec i { s with source := s.source ++ more }

/-! `next_bit` and the shift register. -/

/-- R70, R71, R72, R74, R75: the register form does what the list form says. With bits buffered it pops the front and
touches nothing else; with none it asks for one byte, and pops the first of its eight bits, or fails, or waits. -/
def Obligations.NextBitFollowsItsListForm : Prop :=
  ∀ s : State, s.Canonical →
    (∀ b rest, s.buf = b :: rest →
      ∃ t, nextBit s = .done b t ∧ t.buf = rest ∧ t.Canonical ∧ t = { s with sr := t.sr, cnt := t.cnt }) ∧
    (s.buf = [] → ∀ (B : Byte) (src : List SrcMove), s.source = .answers (.ok [B]) :: src →
      ∃ t, nextBit s = .done (B.getLsbD 7) t ∧ t.Canonical ∧
        t.buf = [B.getLsbD 6, B.getLsbD 5, B.getLsbD 4, B.getLsbD 3, B.getLsbD 2, B.getLsbD 1, B.getLsbD 0] ∧
        t = { s with sr := t.sr, cnt := t.cnt, source := src, trace := s.trace ++ [.srcRead 1 (.ok [B])] }) ∧
    (s.buf = [] → ∀ (e : Err) (src : List SrcMove), s.source = .answers (.err e) :: src →
      nextBit s = .ioerr e { s with source := src, trace := s.trace ++ [.srcRead 1 (.err e)] }) ∧
    (s.buf = [] → s.source = [] → nextBit s = .hold () s)

/-- R73: a refill that fails leaves `buf`, NB and POS as they were; the buffer is empty then. -/
def Obligations.FailedRefillChangesNothing : Prop :=
  ∀ (s t : State) (e : Err), nextBit s = .ioerr e t →
    t.buf = [] ∧ t.aligned = true ∧ s.buf = [] ∧ t.sr = s.sr ∧ t.cnt = s.cnt ∧ t.aligned = s.aligned ∧
      t.nb = s.nb ∧ t.pos = s.pos

/-- R13: each `buf` has exactly one register image, and it is the bits left-justified. -/
def Obligations.EachBufferHasOneRegisterImage : Prop :=
  ∀ bits : List Bool, bits.length ≤ 7 →
    ∃ s : State, s.Canonical ∧ s.buf = bits ∧
      ∀ t : State, t.Canonical → t.buf = bits →
        t.sr = s.sr ∧ t.cnt = s.cnt ∧ ∀ j, j < 8 - bits.length → t.sr.getLsbD j = false

/-! READ, READ_SIGNED, SKIP. -/

/-- R80, R83: READ of a legal width completes over any source that hands over the bytes it needs one by one (none,
whatever the source, when the buffer holds enough bits): the value is the next bits, the first delivered the
most significant; the rest of the last byte stays buffered. All else is unchanged but for ACC (R14). -/
def Obligations.ReadReturnsTheNextBits : Prop :=
  ∀ (s : State) (n : Nat) (bytes : List Byte) (rest : List SrcMove), s.Canonical → 1 ≤ n → n ≤ 32 →
    s.source = byteAnswers bytes ++ rest → bytes.length = needBytes s.cnt.toNat n →
      ∃ t, exec (.read n) s = .next t ∧
        t = { s.afterBits n bytes rest with
          acc := t.acc, fresh := t.fresh, busy := none
          trace := s.trace ++ byteReads bytes ++
            [.respond (.ok (BitVec.ofNat 32 (natOfBits ((s.bitsWith bytes).take n))))] }

/-- R84: READ_SIGNED of a legal width completes over the same sources, with the same requests and the same bits
consumed; the value is those bits as a two's-complement number. -/
def Obligations.ReadSignedReturnsTwosComplement : Prop :=
  ∀ (s : State) (n : Nat) (bytes : List Byte) (rest : List SrcMove), s.Canonical → 1 ≤ n → n ≤ 32 →
    s.source = byteAnswers bytes ++ rest → bytes.length = needBytes s.cnt.toNat n →
      ∃ t, exec (.readSigned n) s = .next t ∧
        t = { s.afterBits n bytes rest with
          acc := t.acc, fresh := t.fresh, busy := none
          trace := s.trace ++ byteReads bytes ++
            [.respond (.ok ((BitVec.ofNat n (natOfBits ((s.bitsWith bytes).take n))).signExtend 32))] }

/-- R87: SKIP of a legal width completes over the same sources, with the same requests and the same bits consumed;
the value is 0. -/
def Obligations.SkipConsumesTheNextBits : Prop :=
  ∀ (s : State) (n : Nat) (bytes : List Byte) (rest : List SrcMove), s.Canonical → 1 ≤ n → n ≤ 32 →
    s.source = byteAnswers bytes ++ rest → bytes.length = needBytes s.cnt.toNat n →
      ∃ t, exec (.skip n) s = .next t ∧
        t = { s.afterBits n bytes rest with
          acc := t.acc, fresh := t.fresh, busy := none
          trace := s.trace ++ byteReads bytes ++ [.respond (.ok 0)] }

/-- R81: a READ that ends OK returns the weighted sum of the stream bits from the cursor on, and leaves the cursor
behind them. -/
def Obligations.ReadValueLaw : Prop :=
  ∀ (s t : State) (n : Nat) (v : Word), s.Inv → exec (.read n) s = .next t → Completes s t (.ok v) →
    s.pos + n ≤ t.streamBits.length ∧ t.pos = s.pos + n ∧
      v.toNat = ∑ i ∈ Finset.range n, (t.streamBits.getD (s.pos + i) false).toNat * 2 ^ (n - 1 - i)

/-- R82: when the refill after the bytes that are there fails, READ, READ_SIGNED and SKIP end IOERR with that payload
and no value; every bit popped stays consumed and the buffer is empty. -/
def Obligations.ExtractorFailsAtTheFailingRequest : Prop :=
  ∀ (op : Extract) (s : State) (n : Nat) (bytes : List Byte) (e : Err) (rest : List SrcMove),
    s.Canonical → 1 ≤ n → n ≤ 32 → s.source = byteAnswers bytes ++ .answers (.err e) :: rest →
    s.cnt.toNat + 8 * bytes.length < n →
      ∃ t, exec (extractOf op n) s = .next t ∧
        t = { s with
          sr := 0, cnt := 0, acc := t.acc, fresh := t.fresh, busy := none, source := rest
          trace := s.trace ++ byteReads bytes ++ [.srcRead 1 (.err e), .respond (.ioerr e)] }

/-- R146: when the source does not answer, the command is held with no response: the bits there were are in ACC, the
buffer is empty, and the command in progress knows how many bits it lacks. What a held command keeps is the model's
form (log 2). -/
def Obligations.ExtractorIsHeldWithoutAnAnswer : Prop :=
  ∀ (op : Extract) (s : State) (n : Nat) (bytes : List Byte),
    s.Canonical → 1 ≤ n → n ≤ 32 → s.source = byteAnswers bytes → s.cnt.toNat + 8 * bytes.length < n →
      exec (extractOf op n) s = .next { s with
        sr := 0, cnt := 0, source := [], trace := s.trace ++ byteReads bytes
        acc := BitVec.ofNat 32 (natOfBits (s.bitsWith bytes))
        busy := some (.extract op n (n - (s.cnt.toNat + 8 * bytes.length))) }

/-- R86: READ_SIGNED from the same state on the same source equals READ when the top bit of READ's value is 0, and is
`2^b` less when it is 1; bits, requests, failures and payloads are the same. -/
def Obligations.ReadSignedAgainstRead : Prop :=
  ∀ (s t : State) (n : Nat), exec (.read n) s = .next t → t.busy = none →
    (∀ evs v, t.trace = evs ++ [.respond (.ok v)] →
      ∃ r : Word, exec (.readSigned n) s = .next { t with trace := evs ++ [.respond (.ok r)] } ∧
        (v.getLsbD (n - 1) = false → r.toInt = v.toNat) ∧
        (v.getLsbD (n - 1) = true → r.toInt = (v.toNat : Int) - 2 ^ n)) ∧
    (∀ evs e, t.trace = evs ++ [.respond (.ioerr e)] → exec (.readSigned n) s = .next t)

/-- R87, R88: SKIP is READ from the same state with the result dropped: same bits, requests and failures. -/
def Obligations.SkipAgainstRead : Prop :=
  ∀ (s t : State) (n : Nat), exec (.read n) s = .next t → t.busy = none →
    (∀ evs v, t.trace = evs ++ [.respond (.ok v)] →
      exec (.skip n) s = .next { t with trace := evs ++ [.respond (.ok 0)] }) ∧
    (∀ evs e, t.trace = evs ++ [.respond (.ioerr e)] → exec (.skip n) s = .next t)

/-- R85: the multiplexer passes the bits below `bits`, and puts above them the sign for READ_SIGNED and 0 for READ;
with sign 1 the result is `v − 2^bits + 2^32` as an unsigned number. -/
def Obligations.SignMultiplexerSelectsPerBit : Prop :=
  ∀ (bits : Nat) (v : Word), legalBits bits → v.toNat < 2 ^ bits →
    (∀ j, j < 32 → (Extract.value .readSigned bits v).getLsbD j =
      if j < bits then v.getLsbD j else v.getLsbD (bits - 1)) ∧
    (∀ j, j < 32 → (Extract.value .read bits v).getLsbD j = if j < bits then v.getLsbD j else false) ∧
    (v.getLsbD (bits - 1) = true → (Extract.value .readSigned bits v).toNat + 2 ^ bits = v.toNat + 2 ^ 32) ∧
    (v.getLsbD (bits - 1) = false → Extract.value .readSigned bits v = v)

/-- R92: `read a` and then `read b` are one `read (a + b)`, split: values, bits consumed and requests agree, and the one
fails exactly when the other does, at the same request with the same payload; `skip a` and then `read b` return its low
`b` bits. -/
def Obligations.SplitReadsCompose : Prop :=
  ∀ (s : State) (a b : Nat), 1 ≤ a → 1 ≤ b → a + b ≤ 32 →
    (∀ t1 t2 x y, exec (.read a) s = .next t1 → Completes s t1 (.ok x) → exec (.read b) t1 = .next t2 →
      Completes t1 t2 (.ok y) →
        ∃ t z, exec (.read (a + b)) s = .next t ∧ Completes s t (.ok z) ∧ SameReader t t2 ∧
          z.toNat = x.toNat * 2 ^ b + y.toNat) ∧
    (∀ t1 t2 v y, exec (.skip a) s = .next t1 → Completes s t1 (.ok v) → exec (.read b) t1 = .next t2 →
      Completes t1 t2 (.ok y) →
        ∃ t z, exec (.read (a + b)) s = .next t ∧ Completes s t (.ok z) ∧ SameReader t t2 ∧
          y.toNat = z.toNat % 2 ^ b) ∧
    (∀ t z, exec (.read (a + b)) s = .next t → Completes s t (.ok z) →
      ∃ t1 t2 x y, exec (.read a) s = .next t1 ∧ Completes s t1 (.ok x) ∧ exec (.read b) t1 = .next t2 ∧
        Completes t1 t2 (.ok y)) ∧
    (∀ t e, exec (.read (a + b)) s = .next t → Completes s t (.ioerr e) →
      (∃ t1, exec (.read a) s = .next t1 ∧ Completes s t1 (.ioerr e) ∧ SameReader t t1) ∨
      (∃ t1 t2 x, exec (.read a) s = .next t1 ∧ Completes s t1 (.ok x) ∧ exec (.read b) t1 = .next t2 ∧
        Completes t1 t2 (.ioerr e) ∧ SameReader t t2)) ∧
    (∀ t1 e, exec (.read a) s = .next t1 → Completes s t1 (.ioerr e) →
      ∃ t, exec (.read (a + b)) s = .next t ∧ Completes s t (.ioerr e) ∧ SameReader t t1) ∧
    (∀ t1 t2 x e, exec (.read a) s = .next t1 → Completes s t1 (.ok x) → exec (.read b) t1 = .next t2 →
      Completes t1 t2 (.ioerr e) →
        ∃ t, exec (.read (a + b)) s = .next t ∧ Completes s t (.ioerr e) ∧ SameReader t t2)

/-- R89: the byte-parallel form of the extractor and the per-bit loop give the same value and the same state (but for
ACC), make the same requests, and fail, wait or are refused together. -/
def Obligations.ByteParallelFormAgrees : Prop :=
  ∀ (s : State) (n : Nat), s.Canonical → legalBits n → SameFetch (readBits n s) (readParallel n s)

/-! READ_BYTES. -/

/-- R101, R42, R43: aligned READ_BYTES of at least one byte completes when the source answers its one request with
`len` bytes: they go to indices 0 to `len − 1` in ascending order, every other byte of the destination and every
register is unchanged, and the cursor advances by `8·len`. -/
def Obligations.AlignedReadBytesBypassesTheBuffer : Prop :=
  ∀ (s : State) (len : Nat) (bytes : List Byte) (rest : List SrcMove), s.cnt = 0 → 1 ≤ len → len < 2 ^ 24 →
    bytes.length = len → s.source = .answers (.ok bytes) :: rest →
      ∃ t, exec (.readBytes len) s = .next t ∧
        t = { s with
          source := rest, busy := none, dst := t.dst
          trace := s.trace ++ [.srcRead len (.ok bytes)] ++ bulkWrites bytes ++ [.respond (.ok 0)] } ∧
        (∀ j, t.dst.read j = if j < len then bytes[j]? else s.dst.read j) ∧ t.nb = s.nb + len ∧
        t.pos = s.pos + 8 * len

/-- R103: a bulk read that fails writes no destination byte; the buffer is still empty, and NB and POS are unchanged. -/
def Obligations.AlignedReadBytesFailsWhole : Prop :=
  ∀ (s : State) (len : Nat) (e : Err) (rest : List SrcMove), s.cnt = 0 → 1 ≤ len → len < 2 ^ 24 →
    s.source = .answers (.err e) :: rest →
      ∃ t, exec (.readBytes len) s = .next t ∧
        t = { s with
          source := rest, busy := none
          trace := s.trace ++ [.srcRead len (.err e), .respond (.ioerr e)] } ∧
        t.buf = [] ∧ t.nb = s.nb ∧ t.pos = s.pos

/-- R102, R39: unaligned READ_BYTES completes over a source that hands over `len` bytes one by one: destination byte
`i` is eight stream bits from the cursor on, written after the request that completes it; every other byte is
unchanged, and as many bits stay buffered as before. -/
def Obligations.UnalignedReadBytesAssembles : Prop :=
  ∀ (s : State) (bytes : List Byte) (rest : List SrcMove), s.Canonical → s.cnt ≠ 0 → bytes.length < 2 ^ 24 →
    s.source = byteAnswers bytes ++ rest →
      ∃ t, exec (.readBytes bytes.length) s = .next t ∧
        t = { s.afterBits (8 * bytes.length) bytes rest with
          acc := t.acc, fresh := t.fresh, busy := none, dst := t.dst
          trace := s.trace ++ fillEvents (s.bitsWith bytes) bytes ++ [.respond (.ok 0)] } ∧
        t.cnt = s.cnt ∧
        ∀ j, t.dst.read j =
          if j < bytes.length then some (assembled (s.bitsWith bytes) j) else s.dst.read j

/-- R104: when the refill for byte `i` fails, the bytes before it are written and keep their values, the others are
untouched, the bits popped for byte `i` are lost, and the buffer is empty. -/
def Obligations.UnalignedReadBytesFillsPartly : Prop :=
  ∀ (s : State) (len : Nat) (bytes : List Byte) (e : Err) (rest : List SrcMove), s.Canonical → s.cnt ≠ 0 →
    len < 2 ^ 24 → bytes.length < len → s.source = byteAnswers bytes ++ .answers (.err e) :: rest →
      ∃ t, exec (.readBytes len) s = .next t ∧
        t = { s with
          sr := 0, cnt := 0, acc := t.acc, fresh := t.fresh, busy := none, dst := t.dst, source := rest
          trace := s.trace ++ fillEvents (s.bitsWith bytes) bytes ++ [.srcRead 1 (.err e), .respond (.ioerr e)] } ∧
        t.pos = 8 * t.nb ∧
        ∀ j, t.dst.read j =
          if j < bytes.length then some (assembled (s.bitsWith bytes) j) else s.dst.read j

/-- R106, R34: READ_BYTES of length 0 is OK over every source and takes nothing from it: aligned it makes one request of
length 0, unaligned none; no destination write, and the buffer is unchanged. That the aligned form completes in the same
step over every script, one that lists nothing or delays too, is the model's: the request of length 0 is answered at
once (log 3, DEDUCED). -/
def Obligations.ReadBytesOfLengthZero : Prop :=
  ∀ s : State,
    (s.cnt = 0 → exec (.readBytes 0) s = .next { s with
      busy := none, trace := s.trace ++ [.srcRead 0 (.ok []), .respond (.ok 0)] }) ∧
    (s.cnt ≠ 0 → exec (.readBytes 0) s = .next { s with busy := none, trace := s.trace ++ [.respond (.ok 0)] })

/-- R107: READ_BYTES that ends OK leaves as many bits buffered as before, the low ones of the last byte pulled; after
a failure the reader is aligned. -/
def Obligations.ReadBytesKeepsAlignment : Prop :=
  ∀ (s t : State) (len : Nat) (r : Response), s.Inv → exec (.readBytes len) s = .next t → Completes s t r →
    match r with
    | .ok _ => t.buf.length = s.buf.length ∧ t.aligned = s.aligned ∧
        ∀ b, t.delivered.getLast? = some b → t.buf = (byteBits b).drop (8 - s.buf.length)
    | .ioerr _ => t.aligned = true

/-- R105: over a source that delivers the same bytes either way, aligned READ_BYTES and one `read 8` for each byte
leave the same bytes, the same buffer and the same cursor, with one request against one for each byte; over a
source that runs short the bulk read fails as a whole, and the single reads deliver what there is. -/
def Obligations.BulkReadEqualsByteReads : Prop :=
  ∀ (s : State) (bytes : List Byte) (rest : List SrcMove), s.Canonical → s.cnt = 0 →
    (1 ≤ bytes.length → bytes.length < 2 ^ 24 →
      ∃ t u, exec (.readBytes bytes.length) { s with source := .answers (.ok bytes) :: rest } = .next t ∧
        runReads bytes.length { s with source := byteAnswers bytes ++ rest } = .next u ∧
        Completes s t (.ok 0) ∧ u.responses = s.responses ++ bytes.map (fun b => .ok (b.zeroExtend 32)) ∧
        (∀ j, j < bytes.length → t.dst.read j = bytes[j]?) ∧
        t.sr = u.sr ∧ t.cnt = u.cnt ∧ t.cnt = 0 ∧ t.pos = u.pos ∧
        t.requests = s.requests ++ [(bytes.length, .ok bytes)] ∧
        u.requests = s.requests ++ bytes.map (fun b => (1, .ok [b]))) ∧
    (∀ len e, bytes.length < len → len < 2 ^ 24 →
      ∃ t u, exec (.readBytes len) { s with source := .answers (.err e) :: rest } = .next t ∧
        runReads (bytes.length + 1) { s with source := byteAnswers bytes ++ .answers (.err e) :: rest } = .next u ∧
        Completes s t (.ioerr e) ∧ t.dst = s.dst ∧
        u.responses = s.responses ++ bytes.map (fun b => .ok (b.zeroExtend 32)) ++ [.ioerr e])

/-- R146: READ_BYTES whose source does not answer is held with no response: aligned with its one request outstanding,
unaligned with the bytes before written and the leftover bits in ACC. What a held command keeps is the model's form
(log 2). -/
def Obligations.ReadBytesIsHeldWithoutAnAnswer : Prop :=
  ∀ (s : State) (len : Nat) (bytes : List Byte), s.Canonical → bytes.length < len → len < 2 ^ 24 →
    (s.cnt = 0 → s.source = [] → exec (.readBytes len) s = .next { s with busy := some (.bulk len) }) ∧
    (s.cnt ≠ 0 → s.source = byteAnswers bytes →
      ∃ t, exec (.readBytes len) s = .next t ∧
        t = { s with
          sr := 0, cnt := 0, acc := BitVec.ofNat 32 (natOfBits ((s.bitsWith bytes).drop (8 * bytes.length)))
          fresh := t.fresh, source := [], dst := t.dst
          busy := some (.assemble len bytes.length (8 - s.cnt.toNat))
          trace := s.trace ++ fillEvents (s.bitsWith bytes) bytes } ∧
        ∀ j, t.dst.read j =
          if j < bytes.length then some (assembled (s.bitsWith bytes) j) else s.dst.read j)

/-! READ_UNARY0, READ_UNARY1. -/

/-- R110, R111, R115: a unary read completes with the number of bits before the first stop bit, over any source that
hands over the bytes up to it one by one; the stop bit is consumed and not counted. -/
def Obligations.UnaryReadCountsToTheStopBit : Prop :=
  ∀ (stop : Bool) (s : State) (c : Nat) (left : List Bool) (bytes : List Byte) (rest : List SrcMove),
    s.Canonical → c < 2 ^ 32 → s.source = byteAnswers bytes ++ rest →
    s.bitsWith bytes = List.replicate c (!stop) ++ stop :: left → bytes.length = needBytes s.cnt.toNat (c + 1) →
      ∃ t, exec (unaryOf stop) s = .next t ∧
        t = { s.afterBits (c + 1) bytes rest with
          acc := t.acc, uc := t.uc, fresh := t.fresh, busy := none
          trace := s.trace ++ byteReads bytes ++ [.respond (.ok (BitVec.ofNat 32 c))] } ∧
        t.buf = left

/-- R113: a unary read whose bits run out before a stop bit ends IOERR at the refill that fails; the count is
discarded, every bit popped stays consumed, and the cursor is at `8·NB`. -/
def Obligations.UnaryReadFailsWithoutAStopBit : Prop :=
  ∀ (stop : Bool) (s : State) (c : Nat) (bytes : List Byte) (e : Err) (rest : List SrcMove),
    s.Canonical → c < 2 ^ 32 → s.source = byteAnswers bytes ++ .answers (.err e) :: rest →
    s.bitsWith bytes = List.replicate c (!stop) →
      ∃ t, exec (unaryOf stop) s = .next t ∧
        t = { s with
          sr := 0, cnt := 0, acc := t.acc, uc := t.uc, fresh := t.fresh, busy := none, source := rest
          trace := s.trace ++ byteReads bytes ++ [.srcRead 1 (.err e), .respond (.ioerr e)] } ∧
        t.buf = [] ∧ t.pos = 8 * t.nb

/-- R112, R146: a unary read has no bound: with no stop bit and no answer it is held with the count it has reached. What
a held command keeps is the model's form (log 2). -/
def Obligations.UnaryReadIsHeldWithoutAnAnswer : Prop :=
  ∀ (stop : Bool) (s : State) (c : Nat) (bytes : List Byte), s.Canonical → c < 2 ^ 32 →
    s.source = byteAnswers bytes → s.bitsWith bytes = List.replicate c (!stop) →
      ∃ t, exec (unaryOf stop) s = .next t ∧
        t = { s with
          sr := 0, cnt := 0, acc := 0, uc := BitVec.ofNat 32 c, fresh := t.fresh, source := []
          busy := some (.unary stop), trace := s.trace ++ byteReads bytes }

/-- R114: a count that would exceed 2^32 − 1 is refused, not wrapped and not saturated: a unary read over a stream that
begins with 2^32 counted bits or more; a held one whose count is 2^32 − 1 when the next byte begins with a counted bit; and, of
the loop itself, from any buffer. At 2^32 − 1 the stop bit is answered with the count. That the run is refused at the
bit, and not only at the response, is the model's choice of the two that R114 allows (log 11, DESIGN CHOICE). -/
def Obligations.UnaryCountNeverWraps : Prop :=
  (∀ (stop : Bool) (s : State) (c : Nat) (more : List Bool) (bytes : List Byte) (rest : List SrcMove), s.Canonical →
    2 ^ 32 ≤ c → s.source = byteAnswers bytes ++ rest → s.bitsWith bytes = List.replicate c (!stop) ++ more →
      exec (unaryOf stop) s = .refused .unaryOverflow) ∧
  (∀ (stop : Bool) (s : State) (b : Byte) (rest : List SrcMove), s.Inv → s.busy = some (.unary stop) →
    s.uc = 0xFFFFFFFF → s.source = .answers (.ok [b]) :: rest →
      (b.getLsbD 7 ≠ stop → step s = .refused .unaryOverflow) ∧
      (b.getLsbD 7 = stop →
        ∃ t, step s = .next t ∧ Completes s t (.ok 0xFFFFFFFF) ∧ t.buf = (byteBits b).drop 1 ∧ t.source = rest)) ∧
  ∀ (stop b : Bool) (s : State) (rest : List Bool), s.Canonical → s.uc = 0xFFFFFFFF → s.buf = b :: rest →
    (b ≠ stop → resumeUnary stop s = .refused .unaryOverflow) ∧
    (b = stop → ∃ t, resumeUnary stop s = .next t ∧ Completes s t (.ok 0xFFFFFFFF) ∧ t.buf = rest)

/-! BYTE_ALIGNED, BYTE_ALIGN. -/

/-- R120: BYTE_ALIGNED answers whether `buf` is empty and changes nothing, whatever the source does. -/
def Obligations.ByteAlignedReportsTheFlag : Prop :=
  ∀ s : State, exec .byteAligned s = .next { s with
    busy := none, trace := s.trace ++ [.respond (.ok (if s.buf = [] then 1 else 0))] }

/-- R121, R122: BYTE_ALIGN empties the buffer, SR included, and changes nothing else, whatever the source does; the
cursor goes to `8·NB`. -/
def Obligations.ByteAlignClearsTheBuffer : Prop :=
  ∀ s : State, ∃ t, exec .byteAlign s = .next t ∧
    t = { s with sr := 0, cnt := 0, busy := none, trace := s.trace ++ [.respond (.ok 0)] } ∧
    t.buf = [] ∧ t.aligned = true ∧ t.pos = 8 * s.nb

/-- R123: after BYTE_ALIGN, BYTE_ALIGNED answers 1 whatever the buffer was, and a second BYTE_ALIGN leaves the reader
and the source as the first did. -/
def Obligations.ByteAlignIsIdempotent : Prop :=
  ∀ s t : State, exec .byteAlign s = .next t →
    (∃ u, exec .byteAligned t = .next u ∧ Completes t u (.ok 1)) ∧
    ∃ u, exec .byteAlign t = .next u ∧ SameReader u t ∧ u.dst = t.dst ∧ u.acc = t.acc ∧ u.uc = t.uc

/-! Rules of the whole machine. -/

/-- R124, R18, R173: the reader is aligned exactly when the cursor is at a multiple of 8, and the source is ahead of
the cursor by the buffered bits, of which there are at most 7. -/
def Obligations.AlignedExactlyOnByteBoundaries : Prop :=
  ∀ s : State, s.Inv →
    (s.aligned = true ↔ s.pos % 8 = 0) ∧ s.pos + s.buf.length = 8 * s.nb ∧ s.buf.length ≤ 7 ∧
      s.buf = s.streamBits.drop s.pos

/-- R19: where every command leaves the cursor, by response; it never moves back. -/
def Obligations.CursorMovesByTheTable : Prop :=
  ∀ (i : Instr) (s t : State) (r : Response), s.Inv → exec i s = .next t → Completes s t r →
    CursorAfter i s t r ∧ s.pos ≤ t.pos

/-- R137, R138: a command that ends IOERR leaves the buffer empty and the cursor at `8·NB`, and the next command runs
as ever: BYTE_ALIGNED answers 1. -/
def Obligations.ErrorLeavesTheReaderAligned : Prop :=
  ∀ (i : Instr) (s t : State) (e : Err), s.Inv → exec i s = .next t → Completes s t (.ioerr e) →
    t.buf = [] ∧ t.aligned = true ∧ t.pos = 8 * t.nb ∧
      ∃ u, exec .byteAligned t = .next u ∧ Completes t u (.ok 1)

/-- R131, R135, R136: a command ends IOERR exactly when a request of its own was answered with an error, the first
such answer is the last thing before the response, and the payload is that of the answer. -/
def Obligations.ErrorExactlyWhenTheSourceErrs : Prop :=
  ∀ (i : Instr) (s t : State) (r : Response), exec i s = .next t → Completes s t r →
    match r with
    | .ok _ => ∃ evs, t.trace = s.trace ++ evs ∧ NoError evs
    | .ioerr e => ∃ evs n, t.trace = s.trace ++ evs ++ [.srcRead n (.err e), .respond (.ioerr e)] ∧ NoError evs

/-- R57, R45 (c): a command gives exactly one response, after all its other events; while it is held, none. -/
def Obligations.OneResponseAfterAllEffects : Prop :=
  ∀ (i : Instr) (s t : State), exec i s = .next t →
    (t.busy = none → ∃ evs r, t.trace = s.trace ++ evs ++ [.respond r] ∧ NoResponse evs) ∧
    (t.busy ≠ none → ∃ evs, t.trace = s.trace ++ evs ∧ NoResponse evs)

/-- R35: source requests have two shapes, one byte, or `len` bytes on the aligned path of READ_BYTES; a request that
was answered `Ok` brought exactly as many bytes (R31). -/
def Obligations.SourceRequestsHaveTwoShapes : Prop :=
  ∀ (i : Instr) (s t : State), exec i s = .next t →
    ∃ evs, t.trace = s.trace ++ evs ∧
      ∀ n a, Event.srcRead n a ∈ evs →
        (n = 1 ∨ i = .readBytes n ∧ s.aligned = true) ∧ ∀ bytes, a = .ok bytes → bytes.length = n

/-- R42: only READ_BYTES writes the destination, at indices 0, 1, 2 and so on below `len`, each once; every other byte
of the destination reads as before. -/
def Obligations.DestinationWritesAscend : Prop :=
  ∀ (i : Instr) (s t : State), exec i s = .next t →
    ∃ evs m, t.trace = s.trace ++ evs ∧ evs.filterMap writeIndex = List.range m ∧
      (m = 0 ∨ ∃ len, i = .readBytes len ∧ m ≤ len) ∧ t.dst = evs.foldl afterEvent s.dst ∧
      ∀ j, m ≤ j → t.dst.read j = s.dst.read j

/-- R36, R63, R17: no command changes what the client does next or the buffers it has put away; the source's turns
are used up in order and none comes back; commands that need no accumulator or counter leave them alone (R20). -/
def Obligations.CommandsLeaveTheRestAlone : Prop :=
  ∀ (i : Instr) (s t : State), exec i s = .next t →
    t.client = s.client ∧ t.live = s.live ∧ t.detached = s.detached ∧ t.source <:+ s.source ∧
      (i ≠ .readUnary0 → i ≠ .readUnary1 → t.uc = s.uc) ∧
      (i = .byteAligned ∨ i = .byteAlign ∨ (∃ len, i = .readBytes len ∧ s.aligned = true) → t.acc = s.acc)

/-- R147, R133: a legal command never faults, and is refused only for a source that answers with the wrong number of
bytes (R163) or for a unary count that outgrows 32 bits (R114). That the first is a refusal is the model's (log 4). -/
def Obligations.LegalCommandsHaveNamedRefusalsOnly : Prop :=
  ∀ (i : Instr) (s : State), i.wf = true →
    (∀ f, exec i s ≠ .fault f) ∧
    ∀ r, exec i s = .refused r →
      (∃ n bytes, r = .sourceContract n bytes ∧ bytes ≠ n) ∨ r = .unaryOverflow ∧ (i = .readUnary0 ∨ i = .readUnary1)

/-- R132: the payload of an error is copied and never inspected: with the payloads renamed in whatever way, every
command does the same with the names changed. -/
def Obligations.PayloadIsNeverInspected : Prop :=
  ∀ (f : Err → Err) (i : Instr) (s : State), exec i (mapState f s) = mapOutcome f (exec i s)

/-- R10, R11, R13, R18: the invariant of the machine is kept by every step, whatever the client and the source do. -/
def Obligations.InvariantKeptByEveryStep : Prop :=
  ∀ s t : State, s.Inv → step s = .next t → t.Inv

/-- R13, R18, R26: the invariant of the machine holds after reset. The destination in it, an attached buffer with no byte
listed, is the model's choice (log 23). -/
def Obligations.ResetMeetsTheInvariant : Prop := State.reset.Inv

/-! Reset and the client's moves. -/

/-- R160: the state after reset. -/
def Obligations.ResetState : Prop :=
  State.reset.buf = [] ∧ State.reset.sr = 0x00 ∧ State.reset.cnt = 0 ∧ State.reset.aligned = true ∧
    State.reset.busy = none ∧ State.reset.responsePort = none ∧ State.reset.delivered = [] ∧
    State.reset.nb = 0 ∧ State.reset.pos = 0

/-- R160, R161, R162: construction makes no source access and touches neither the source nor the destination; the
new instance has an empty buffer, no response, and a stream that begins with the next byte. Construction as a move of
the client is the model's form (log 14). -/
def Obligations.ConstructionStartsANewInstance : Prop :=
  ∀ (s : State) (src : Option (List SrcMove)) (rest : List ClientMove), s.busy = none →
    s.client = .construct src :: rest →
      ∃ t, step s = .next t ∧
        t = { s with
          sr := 0, cnt := 0, acc := t.acc, uc := t.uc, fresh := t.fresh, busy := none, live := true
          source := src.getD s.source, client := rest, trace := [] } ∧
        t.buf = [] ∧ t.aligned = true ∧ t.responsePort = none ∧ t.nb = 0 ∧ t.pos = 0

/-- R165: release does nothing but end the instance, and only when the block is idle: while a command is in progress no
step ends the instance, and a release that the client has next stays its next move. That an instance is a field `live`,
and that the move waits for the block to be idle, are the model's form (log 12, 6). -/
def Obligations.ReleaseEndsTheInstance : Prop :=
  (∀ (s : State) (rest : List ClientMove), s.busy = none → s.live = true → s.client = .release :: rest →
    step s = .next { s with live := false, client := rest }) ∧
  ∀ s t : State, s.busy ≠ none → step s = .next t → t.live = s.live ∧ t.client = s.client

/-- R149, R42, R181: with no move of the client the idle block keeps everything; attaching another destination
buffer touches nothing of the block, and the buffer before it keeps its bytes. Attaching as a move of the client is the
model's form (log 7), and that the buffer attached stays attached until then is its choice (log 24). -/
def Obligations.IdleBlockKeepsItsState : Prop :=
  ∀ s : State, s.busy = none →
    (s.client = [] → step s = .next s) ∧
    (∀ cells rest, s.client = .attach cells :: rest →
      step s = .next { s with
        client := rest, dst := Memory.ofCells cells, detached := s.detached ++ [s.dst] })

/-! The hold's end, and the ports. -/

/-- R146, R31: the source's answer to the outstanding request, `Ok` or `Err`, lifts the hold. The step takes that answer
before anything else; `Err(e)` ends the command IOERR with its payload and no further request. The script and the form of
a held command are the model's (log 1, 2). -/
def Obligations.SourceAnswerLiftsTheHold : Prop :=
  ∀ (s : State) (n : Nat) (rest : List SrcMove), s.Inv → s.outstanding = some n →
    (∀ e, s.source = .answers (.err e) :: rest →
      ∃ t, step s = .next t ∧ Completes s t (.ioerr e) ∧ t.source = rest ∧ t.buf = [] ∧ t.dst = s.dst ∧
        t.trace = s.trace ++ [.srcRead n (.err e), .respond (.ioerr e)]) ∧
    (∀ bytes t, s.source = .answers (.ok bytes) :: rest → bytes.length = n → step s = .next t →
      t.source <:+ rest ∧ ∃ evs, t.trace = s.trace ++ .srcRead n (.ok bytes) :: evs)

/-- R57, R58, R50, R16: what the client reads at the ports after a command. OK drives status 0, the command's value and 0
in the unused field `err`; IOERR drives status 1, 0 in the unused field `value`, and the payload of the request that
failed. The level output `aligned` then follows the buffer. While a command is held neither port gives anything; that the
output `aligned` has no value then is the model's (log 18, DEDUCED), and so is the number a payload is (log 5). -/
def Obligations.PortsDriveTheResponse : Prop :=
  ∀ (i : Instr) (s t : State), exec i s = .next t →
    (t.busy ≠ none → t.responsePort = none ∧ t.alignedPort = none) ∧
    (t.busy = none →
      t.alignedPort = some (decide (t.buf = [])) ∧
      ∃ r, t.responses = s.responses ++ [r] ∧ t.responsePort = some r ∧
        (r.status = 0 ∧ PortValue i s t r.valueField ∧ r.errField = 0 ∨
          r.status = 1 ∧ r.valueField = 0 ∧ ∃ n, t.requests.getLast? = some (n, .err r.errField)))

/-- R16, R50, R120: while no command is in progress the level output `aligned` is 1 exactly when `buf` is empty, and
BYTE_ALIGNED answers what it shows; while one is in progress no client may rely on it, and the model gives it no value
(log 18, DEDUCED). -/
def Obligations.AlignedOutputFollowsTheBuffer : Prop :=
  ∀ s : State,
    (s.busy = none →
      (s.alignedPort = some true ↔ s.buf = []) ∧ (s.alignedPort = some false ↔ s.buf ≠ []) ∧
      ∃ t v, exec .byteAligned s = .next t ∧ t.responsePort = some (.ok v) ∧ t.alignedPort = s.alignedPort ∧
        (s.alignedPort = some true ↔ v = 1) ∧ (s.alignedPort = some false ↔ v = 0)) ∧
    (s.busy ≠ none → s.alignedPort = none)
end

