-- ==== Sys2Proof/Laws/State.lean ====
section
/-! SUPPORT. What every update of the state does to every field, one lemma each, true by rfl, so that no later proof
unfolds a record update. -/

namespace Sys2Proof.Machine

/-! `record` -/

@[simp] theorem record_sr (ev : Event) (s : State) : (s.record ev).sr = s.sr := rfl
@[simp] theorem record_cnt (ev : Event) (s : State) : (s.record ev).cnt = s.cnt := rfl
@[simp] theorem record_acc (ev : Event) (s : State) : (s.record ev).acc = s.acc := rfl
@[simp] theorem record_uc (ev : Event) (s : State) : (s.record ev).uc = s.uc := rfl
@[simp] theorem record_busy (ev : Event) (s : State) : (s.record ev).busy = s.busy := rfl
@[simp] theorem record_live (ev : Event) (s : State) : (s.record ev).live = s.live := rfl
@[simp] theorem record_source (ev : Event) (s : State) : (s.record ev).source = s.source := rfl
@[simp] theorem record_client (ev : Event) (s : State) : (s.record ev).client = s.client := rfl
@[simp] theorem record_dst (ev : Event) (s : State) : (s.record ev).dst = s.dst := rfl
@[simp] theorem record_detached (ev : Event) (s : State) : (s.record ev).detached = s.detached := rfl
@[simp] theorem record_trace (ev : Event) (s : State) : (s.record ev).trace = s.trace ++ [ev] := rfl
@[simp] theorem record_fresh (ev : Event) (s : State) : (s.record ev).fresh = s.fresh := rfl
@[simp] theorem record_aligned (ev : Event) (s : State) : (s.record ev).aligned = s.aligned := rfl
@[simp] theorem record_buf (ev : Event) (s : State) : (s.record ev).buf = s.buf := rfl

/-! `freeAcc` -/

@[simp] theorem freeAcc_sr (s : State) : (s.freeAcc).sr = s.sr := rfl
@[simp] theorem freeAcc_cnt (s : State) : (s.freeAcc).cnt = s.cnt := rfl
@[simp] theorem freeAcc_acc (s : State) : (s.freeAcc).acc = Config.freeWord s.fresh := rfl
@[simp] theorem freeAcc_uc (s : State) : (s.freeAcc).uc = s.uc := rfl
@[simp] theorem freeAcc_busy (s : State) : (s.freeAcc).busy = s.busy := rfl
@[simp] theorem freeAcc_live (s : State) : (s.freeAcc).live = s.live := rfl
@[simp] theorem freeAcc_source (s : State) : (s.freeAcc).source = s.source := rfl
@[simp] theorem freeAcc_client (s : State) : (s.freeAcc).client = s.client := rfl
@[simp] theorem freeAcc_dst (s : State) : (s.freeAcc).dst = s.dst := rfl
@[simp] theorem freeAcc_detached (s : State) : (s.freeAcc).detached = s.detached := rfl
@[simp] theorem freeAcc_trace (s : State) : (s.freeAcc).trace = s.trace := rfl
@[simp] theorem freeAcc_fresh (s : State) : (s.freeAcc).fresh = s.fresh + 1 := rfl
@[simp] theorem freeAcc_aligned (s : State) : (s.freeAcc).aligned = s.aligned := rfl
@[simp] theorem freeAcc_buf (s : State) : (s.freeAcc).buf = s.buf := rfl
@[simp] theorem freeAcc_delivered (s : State) : (s.freeAcc).delivered = s.delivered := rfl
@[simp] theorem freeAcc_streamBits (s : State) : (s.freeAcc).streamBits = s.streamBits := rfl

/-! `freeUc` -/

@[simp] theorem freeUc_sr (s : State) : (s.freeUc).sr = s.sr := rfl
@[simp] theorem freeUc_cnt (s : State) : (s.freeUc).cnt = s.cnt := rfl
@[simp] theorem freeUc_acc (s : State) : (s.freeUc).acc = s.acc := rfl
@[simp] theorem freeUc_uc (s : State) : (s.freeUc).uc = Config.freeWord s.fresh := rfl
@[simp] theorem freeUc_busy (s : State) : (s.freeUc).busy = s.busy := rfl
@[simp] theorem freeUc_live (s : State) : (s.freeUc).live = s.live := rfl
@[simp] theorem freeUc_source (s : State) : (s.freeUc).source = s.source := rfl
@[simp] theorem freeUc_client (s : State) : (s.freeUc).client = s.client := rfl
@[simp] theorem freeUc_dst (s : State) : (s.freeUc).dst = s.dst := rfl
@[simp] theorem freeUc_detached (s : State) : (s.freeUc).detached = s.detached := rfl
@[simp] theorem freeUc_trace (s : State) : (s.freeUc).trace = s.trace := rfl
@[simp] theorem freeUc_fresh (s : State) : (s.freeUc).fresh = s.fresh + 1 := rfl
@[simp] theorem freeUc_aligned (s : State) : (s.freeUc).aligned = s.aligned := rfl
@[simp] theorem freeUc_buf (s : State) : (s.freeUc).buf = s.buf := rfl
@[simp] theorem freeUc_delivered (s : State) : (s.freeUc).delivered = s.delivered := rfl
@[simp] theorem freeUc_streamBits (s : State) : (s.freeUc).streamBits = s.streamBits := rfl

/-! `refill` -/

@[simp] theorem refill_sr (b : Byte) (s : State) : (refill b s).sr = b := rfl
@[simp] theorem refill_cnt (b : Byte) (s : State) : (refill b s).cnt = 8 := rfl
@[simp] theorem refill_acc (b : Byte) (s : State) : (refill b s).acc = s.acc := rfl
@[simp] theorem refill_uc (b : Byte) (s : State) : (refill b s).uc = s.uc := rfl
@[simp] theorem refill_busy (b : Byte) (s : State) : (refill b s).busy = s.busy := rfl
@[simp] theorem refill_live (b : Byte) (s : State) : (refill b s).live = s.live := rfl
@[simp] theorem refill_source (b : Byte) (s : State) : (refill b s).source = s.source := rfl
@[simp] theorem refill_client (b : Byte) (s : State) : (refill b s).client = s.client := rfl
@[simp] theorem refill_dst (b : Byte) (s : State) : (refill b s).dst = s.dst := rfl
@[simp] theorem refill_detached (b : Byte) (s : State) : (refill b s).detached = s.detached := rfl
@[simp] theorem refill_trace (b : Byte) (s : State) : (refill b s).trace = s.trace := rfl
@[simp] theorem refill_fresh (b : Byte) (s : State) : (refill b s).fresh = s.fresh := rfl
@[simp] theorem refill_delivered (b : Byte) (s : State) : (refill b s).delivered = s.delivered := rfl
@[simp] theorem refill_streamBits (b : Byte) (s : State) : (refill b s).streamBits = s.streamBits := rfl

/-! `pop` -/

@[simp] theorem pop_sr (s : State) : (pop s).sr = s.sr <<< 1 := rfl
@[simp] theorem pop_cnt (s : State) : (pop s).cnt = s.cnt - 1 := rfl
@[simp] theorem pop_acc (s : State) : (pop s).acc = s.acc := rfl
@[simp] theorem pop_uc (s : State) : (pop s).uc = s.uc := rfl
@[simp] theorem pop_busy (s : State) : (pop s).busy = s.busy := rfl
@[simp] theorem pop_live (s : State) : (pop s).live = s.live := rfl
@[simp] theorem pop_source (s : State) : (pop s).source = s.source := rfl
@[simp] theorem pop_client (s : State) : (pop s).client = s.client := rfl
@[simp] theorem pop_dst (s : State) : (pop s).dst = s.dst := rfl
@[simp] theorem pop_detached (s : State) : (pop s).detached = s.detached := rfl
@[simp] theorem pop_trace (s : State) : (pop s).trace = s.trace := rfl
@[simp] theorem pop_fresh (s : State) : (pop s).fresh = s.fresh := rfl
@[simp] theorem pop_delivered (s : State) : (pop s).delivered = s.delivered := rfl
@[simp] theorem pop_streamBits (s : State) : (pop s).streamBits = s.streamBits := rfl

/-! `clearBuffer` -/

@[simp] theorem clearBuffer_sr (s : State) : (clearBuffer s).sr = 0 := rfl
@[simp] theorem clearBuffer_cnt (s : State) : (clearBuffer s).cnt = 0 := rfl
@[simp] theorem clearBuffer_acc (s : State) : (clearBuffer s).acc = s.acc := rfl
@[simp] theorem clearBuffer_uc (s : State) : (clearBuffer s).uc = s.uc := rfl
@[simp] theorem clearBuffer_busy (s : State) : (clearBuffer s).busy = s.busy := rfl
@[simp] theorem clearBuffer_live (s : State) : (clearBuffer s).live = s.live := rfl
@[simp] theorem clearBuffer_source (s : State) : (clearBuffer s).source = s.source := rfl
@[simp] theorem clearBuffer_client (s : State) : (clearBuffer s).client = s.client := rfl
@[simp] theorem clearBuffer_dst (s : State) : (clearBuffer s).dst = s.dst := rfl
@[simp] theorem clearBuffer_detached (s : State) : (clearBuffer s).detached = s.detached := rfl
@[simp] theorem clearBuffer_trace (s : State) : (clearBuffer s).trace = s.trace := rfl
@[simp] theorem clearBuffer_fresh (s : State) : (clearBuffer s).fresh = s.fresh := rfl
@[simp] theorem clearBuffer_delivered (s : State) : (clearBuffer s).delivered = s.delivered := rfl
@[simp] theorem clearBuffer_streamBits (s : State) : (clearBuffer s).streamBits = s.streamBits := rfl

/-! `dstWrite` -/

@[simp] theorem dstWrite_sr (i : Nat) (b : Byte) (s : State) : (dstWrite i b s).sr = s.sr := rfl
@[simp] theorem dstWrite_cnt (i : Nat) (b : Byte) (s : State) : (dstWrite i b s).cnt = s.cnt := rfl
@[simp] theorem dstWrite_acc (i : Nat) (b : Byte) (s : State) : (dstWrite i b s).acc = s.acc := rfl
@[simp] theorem dstWrite_uc (i : Nat) (b : Byte) (s : State) : (dstWrite i b s).uc = s.uc := rfl
@[simp] theorem dstWrite_busy (i : Nat) (b : Byte) (s : State) : (dstWrite i b s).busy = s.busy := rfl
@[simp] theorem dstWrite_live (i : Nat) (b : Byte) (s : State) : (dstWrite i b s).live = s.live := rfl
@[simp] theorem dstWrite_source (i : Nat) (b : Byte) (s : State) : (dstWrite i b s).source = s.source := rfl
@[simp] theorem dstWrite_client (i : Nat) (b : Byte) (s : State) : (dstWrite i b s).client = s.client := rfl
@[simp] theorem dstWrite_dst (i : Nat) (b : Byte) (s : State) : (dstWrite i b s).dst = s.dst.write i b := rfl
@[simp] theorem dstWrite_detached (i : Nat) (b : Byte) (s : State) : (dstWrite i b s).detached = s.detached := rfl
@[simp] theorem dstWrite_trace (i : Nat) (b : Byte) (s : State) : (dstWrite i b s).trace = s.trace ++ [.dstWrite i b] := rfl
@[simp] theorem dstWrite_fresh (i : Nat) (b : Byte) (s : State) : (dstWrite i b s).fresh = s.fresh := rfl
@[simp] theorem dstWrite_aligned (i : Nat) (b : Byte) (s : State) : (dstWrite i b s).aligned = s.aligned := rfl
@[simp] theorem dstWrite_buf (i : Nat) (b : Byte) (s : State) : (dstWrite i b s).buf = s.buf := rfl

/-! `respond` -/

@[simp] theorem respond_sr (r : Response) (s : State) : (respond r s).sr = s.sr := rfl
@[simp] theorem respond_cnt (r : Response) (s : State) : (respond r s).cnt = s.cnt := rfl
@[simp] theorem respond_acc (r : Response) (s : State) : (respond r s).acc = s.acc := rfl
@[simp] theorem respond_uc (r : Response) (s : State) : (respond r s).uc = s.uc := rfl
@[simp] theorem respond_busy (r : Response) (s : State) : (respond r s).busy = none := rfl
@[simp] theorem respond_live (r : Response) (s : State) : (respond r s).live = s.live := rfl
@[simp] theorem respond_source (r : Response) (s : State) : (respond r s).source = s.source := rfl
@[simp] theorem respond_client (r : Response) (s : State) : (respond r s).client = s.client := rfl
@[simp] theorem respond_dst (r : Response) (s : State) : (respond r s).dst = s.dst := rfl
@[simp] theorem respond_detached (r : Response) (s : State) : (respond r s).detached = s.detached := rfl
@[simp] theorem respond_trace (r : Response) (s : State) : (respond r s).trace = s.trace ++ [.respond r] := rfl
@[simp] theorem respond_fresh (r : Response) (s : State) : (respond r s).fresh = s.fresh := rfl
@[simp] theorem respond_aligned (r : Response) (s : State) : (respond r s).aligned = s.aligned := rfl
@[simp] theorem respond_buf (r : Response) (s : State) : (respond r s).buf = s.buf := rfl

/-! `raiseIOError` -/

@[simp] theorem raiseIOError_sr (e : Err) (s : State) : (raiseIOError e s).sr = s.sr := rfl
@[simp] theorem raiseIOError_cnt (e : Err) (s : State) : (raiseIOError e s).cnt = s.cnt := rfl
@[simp] theorem raiseIOError_acc (e : Err) (s : State) : (raiseIOError e s).acc = s.acc := rfl
@[simp] theorem raiseIOError_uc (e : Err) (s : State) : (raiseIOError e s).uc = s.uc := rfl
@[simp] theorem raiseIOError_busy (e : Err) (s : State) : (raiseIOError e s).busy = none := rfl
@[simp] theorem raiseIOError_live (e : Err) (s : State) : (raiseIOError e s).live = s.live := rfl
@[simp] theorem raiseIOError_source (e : Err) (s : State) : (raiseIOError e s).source = s.source := rfl
@[simp] theorem raiseIOError_client (e : Err) (s : State) : (raiseIOError e s).client = s.client := rfl
@[simp] theorem raiseIOError_dst (e : Err) (s : State) : (raiseIOError e s).dst = s.dst := rfl
@[simp] theorem raiseIOError_detached (e : Err) (s : State) : (raiseIOError e s).detached = s.detached := rfl
@[simp] theorem raiseIOError_trace (e : Err) (s : State) : (raiseIOError e s).trace = s.trace ++ [.respond (.ioerr e)] := rfl
@[simp] theorem raiseIOError_fresh (e : Err) (s : State) : (raiseIOError e s).fresh = s.fresh := rfl
@[simp] theorem raiseIOError_aligned (e : Err) (s : State) : (raiseIOError e s).aligned = s.aligned := rfl
@[simp] theorem raiseIOError_buf (e : Err) (s : State) : (raiseIOError e s).buf = s.buf := rfl

/-! `holdOn` -/

@[simp] theorem holdOn_sr (t : Task) (s : State) : (holdOn t s).sr = s.sr := rfl
@[simp] theorem holdOn_cnt (t : Task) (s : State) : (holdOn t s).cnt = s.cnt := rfl
@[simp] theorem holdOn_acc (t : Task) (s : State) : (holdOn t s).acc = s.acc := rfl
@[simp] theorem holdOn_uc (t : Task) (s : State) : (holdOn t s).uc = s.uc := rfl
@[simp] theorem holdOn_busy (t : Task) (s : State) : (holdOn t s).busy = some t := rfl
@[simp] theorem holdOn_live (t : Task) (s : State) : (holdOn t s).live = s.live := rfl
@[simp] theorem holdOn_source (t : Task) (s : State) : (holdOn t s).source = s.source := rfl
@[simp] theorem holdOn_client (t : Task) (s : State) : (holdOn t s).client = s.client := rfl
@[simp] theorem holdOn_dst (t : Task) (s : State) : (holdOn t s).dst = s.dst := rfl
@[simp] theorem holdOn_detached (t : Task) (s : State) : (holdOn t s).detached = s.detached := rfl
@[simp] theorem holdOn_trace (t : Task) (s : State) : (holdOn t s).trace = s.trace := rfl
@[simp] theorem holdOn_fresh (t : Task) (s : State) : (holdOn t s).fresh = s.fresh := rfl
@[simp] theorem holdOn_aligned (t : Task) (s : State) : (holdOn t s).aligned = s.aligned := rfl
@[simp] theorem holdOn_buf (t : Task) (s : State) : (holdOn t s).buf = s.buf := rfl
@[simp] theorem holdOn_delivered (t : Task) (s : State) : (holdOn t s).delivered = s.delivered := rfl
@[simp] theorem holdOn_streamBits (t : Task) (s : State) : (holdOn t s).streamBits = s.streamBits := rfl

/-! `construct` -/

@[simp] theorem construct_sr (src : Option (List SrcMove)) (s : State) : (construct src s).sr = 0 := rfl
@[simp] theorem construct_cnt (src : Option (List SrcMove)) (s : State) : (construct src s).cnt = 0 := rfl
@[simp] theorem construct_acc (src : Option (List SrcMove)) (s : State) : (construct src s).acc = Config.freeWord s.fresh := rfl
@[simp] theorem construct_uc (src : Option (List SrcMove)) (s : State) : (construct src s).uc = Config.freeWord (s.fresh + 1) := rfl
@[simp] theorem construct_busy (src : Option (List SrcMove)) (s : State) : (construct src s).busy = none := rfl
@[simp] theorem construct_live (src : Option (List SrcMove)) (s : State) : (construct src s).live = true := rfl
@[simp] theorem construct_source (src : Option (List SrcMove)) (s : State) : (construct src s).source = src.getD s.source := rfl
@[simp] theorem construct_client (src : Option (List SrcMove)) (s : State) : (construct src s).client = s.client := rfl
@[simp] theorem construct_dst (src : Option (List SrcMove)) (s : State) : (construct src s).dst = s.dst := rfl
@[simp] theorem construct_detached (src : Option (List SrcMove)) (s : State) : (construct src s).detached = s.detached := rfl
@[simp] theorem construct_trace (src : Option (List SrcMove)) (s : State) : (construct src s).trace = [] := rfl
@[simp] theorem construct_fresh (src : Option (List SrcMove)) (s : State) : (construct src s).fresh = s.fresh + 2 := rfl

/-! `releaseInstance` -/

@[simp] theorem releaseInstance_sr (s : State) : (releaseInstance s).sr = s.sr := rfl
@[simp] theorem releaseInstance_cnt (s : State) : (releaseInstance s).cnt = s.cnt := rfl
@[simp] theorem releaseInstance_acc (s : State) : (releaseInstance s).acc = s.acc := rfl
@[simp] theorem releaseInstance_uc (s : State) : (releaseInstance s).uc = s.uc := rfl
@[simp] theorem releaseInstance_busy (s : State) : (releaseInstance s).busy = s.busy := rfl
@[simp] theorem releaseInstance_live (s : State) : (releaseInstance s).live = false := rfl
@[simp] theorem releaseInstance_source (s : State) : (releaseInstance s).source = s.source := rfl
@[simp] theorem releaseInstance_client (s : State) : (releaseInstance s).client = s.client := rfl
@[simp] theorem releaseInstance_dst (s : State) : (releaseInstance s).dst = s.dst := rfl
@[simp] theorem releaseInstance_detached (s : State) : (releaseInstance s).detached = s.detached := rfl
@[simp] theorem releaseInstance_trace (s : State) : (releaseInstance s).trace = s.trace := rfl
@[simp] theorem releaseInstance_fresh (s : State) : (releaseInstance s).fresh = s.fresh := rfl
@[simp] theorem releaseInstance_aligned (s : State) : (releaseInstance s).aligned = s.aligned := rfl
@[simp] theorem releaseInstance_buf (s : State) : (releaseInstance s).buf = s.buf := rfl
@[simp] theorem releaseInstance_delivered (s : State) : (releaseInstance s).delivered = s.delivered := rfl
@[simp] theorem releaseInstance_streamBits (s : State) : (releaseInstance s).streamBits = s.streamBits := rfl

/-! `attachBuffer` -/

@[simp] theorem attachBuffer_sr (cells : Memory) (s : State) : (attachBuffer cells s).sr = s.sr := rfl
@[simp] theorem attachBuffer_cnt (cells : Memory) (s : State) : (attachBuffer cells s).cnt = s.cnt := rfl
@[simp] theorem attachBuffer_acc (cells : Memory) (s : State) : (attachBuffer cells s).acc = s.acc := rfl
@[simp] theorem attachBuffer_uc (cells : Memory) (s : State) : (attachBuffer cells s).uc = s.uc := rfl
@[simp] theorem attachBuffer_busy (cells : Memory) (s : State) : (attachBuffer cells s).busy = s.busy := rfl
@[simp] theorem attachBuffer_live (cells : Memory) (s : State) : (attachBuffer cells s).live = s.live := rfl
@[simp] theorem attachBuffer_source (cells : Memory) (s : State) : (attachBuffer cells s).source = s.source := rfl
@[simp] theorem attachBuffer_client (cells : Memory) (s : State) : (attachBuffer cells s).client = s.client := rfl
@[simp] theorem attachBuffer_dst (cells : Memory) (s : State) : (attachBuffer cells s).dst = Memory.ofCells cells := rfl
@[simp] theorem attachBuffer_detached (cells : Memory) (s : State) : (attachBuffer cells s).detached = s.detached ++ [s.dst] := rfl
@[simp] theorem attachBuffer_trace (cells : Memory) (s : State) : (attachBuffer cells s).trace = s.trace := rfl
@[simp] theorem attachBuffer_fresh (cells : Memory) (s : State) : (attachBuffer cells s).fresh = s.fresh := rfl
@[simp] theorem attachBuffer_aligned (cells : Memory) (s : State) : (attachBuffer cells s).aligned = s.aligned := rfl
@[simp] theorem attachBuffer_buf (cells : Memory) (s : State) : (attachBuffer cells s).buf = s.buf := rfl
@[simp] theorem attachBuffer_delivered (cells : Memory) (s : State) : (attachBuffer cells s).delivered = s.delivered := rfl
@[simp] theorem attachBuffer_streamBits (cells : Memory) (s : State) : (attachBuffer cells s).streamBits = s.streamBits := rfl

/-! `placeCommand` -/

@[simp] theorem placeCommand_sr (w : Word) (s : State) : (placeCommand w s).sr = s.sr := rfl
@[simp] theorem placeCommand_cnt (w : Word) (s : State) : (placeCommand w s).cnt = s.cnt := rfl
@[simp] theorem placeCommand_acc (w : Word) (s : State) : (placeCommand w s).acc = s.acc := rfl
@[simp] theorem placeCommand_uc (w : Word) (s : State) : (placeCommand w s).uc = s.uc := rfl
@[simp] theorem placeCommand_busy (w : Word) (s : State) : (placeCommand w s).busy = none := rfl
@[simp] theorem placeCommand_live (w : Word) (s : State) : (placeCommand w s).live = true := rfl
@[simp] theorem placeCommand_source (w : Word) (s : State) : (placeCommand w s).source = s.source := rfl
@[simp] theorem placeCommand_client (w : Word) (s : State) : (placeCommand w s).client = .command w :: s.client := rfl
@[simp] theorem placeCommand_dst (w : Word) (s : State) : (placeCommand w s).dst = s.dst := rfl
@[simp] theorem placeCommand_detached (w : Word) (s : State) : (placeCommand w s).detached = s.detached := rfl
@[simp] theorem placeCommand_trace (w : Word) (s : State) : (placeCommand w s).trace = s.trace := rfl
@[simp] theorem placeCommand_fresh (w : Word) (s : State) : (placeCommand w s).fresh = s.fresh := rfl
@[simp] theorem placeCommand_aligned (w : Word) (s : State) : (placeCommand w s).aligned = s.aligned := rfl
@[simp] theorem placeCommand_buf (w : Word) (s : State) : (placeCommand w s).buf = s.buf := rfl
@[simp] theorem placeCommand_delivered (w : Word) (s : State) : (placeCommand w s).delivered = s.delivered := rfl
@[simp] theorem placeCommand_streamBits (w : Word) (s : State) : (placeCommand w s).streamBits = s.streamBits := rfl

/-! What each event delivers, requests and responds. -/

@[simp] theorem delivers_srcRead_ok (n : Nat) (bytes : List Byte) :
    (Event.srcRead n (.ok bytes)).delivers = bytes := rfl
@[simp] theorem delivers_srcRead_err (n : Nat) (e : Err) : (Event.srcRead n (.err e)).delivers = [] := rfl
@[simp] theorem delivers_dstWrite (i : Nat) (b : Byte) : (Event.dstWrite i b).delivers = [] := rfl
@[simp] theorem delivers_respond (r : Response) : (Event.respond r).delivers = [] := rfl
@[simp] theorem request_srcRead (n : Nat) (a : SrcAnswer) : (Event.srcRead n a).request = some (n, a) := rfl
@[simp] theorem request_dstWrite (i : Nat) (b : Byte) : (Event.dstWrite i b).request = none := rfl
@[simp] theorem request_respond (r : Response) : (Event.respond r).request = none := rfl
@[simp] theorem response_srcRead (n : Nat) (a : SrcAnswer) : (Event.srcRead n a).response = none := rfl
@[simp] theorem response_dstWrite (i : Nat) (b : Byte) : (Event.dstWrite i b).response = none := rfl
@[simp] theorem response_respond (r : Response) : (Event.respond r).response = some r := rfl

end Sys2Proof.Machine
end

