-- ==== Sys2Proof/Laws/Bits.lean ====
section
/-! SUPPORT. Bits, bytes and numbers: the buffer behind SR and CNT, its one register image, and what the accumulator
holds after a run of bits. -/

namespace Sys2Proof.Machine

@[simp] theorem length_buf (s : State) : s.buf.length = s.cnt.toNat := by simp [State.buf]

@[simp] theorem length_byteBits (b : Byte) : (byteBits b).length = 8 := by simp [byteBits]

theorem length_flatMap_byteBits (bytes : List Byte) : (bytes.flatMap byteBits).length = 8 * bytes.length := by
  induction bytes with
  | nil => rfl
  | cons b bytes ih => simp only [List.flatMap_cons, List.length_append, length_byteBits, List.length_cons, ih]; omega

@[simp] theorem aligned_iff (s : State) : s.aligned = true ↔ s.cnt = 0 := by simp [State.aligned]

@[simp] theorem buf_eq_nil_iff (s : State) : s.buf = [] ↔ s.cnt = 0 := by
  rw [← List.length_eq_zero_iff, length_buf]
  exact ⟨fun h => BitVec.eq_of_toNat_eq (by simpa using h), fun h => by simp [h]⟩

theorem cnt_pos_iff (s : State) : 0 < s.cnt.toNat ↔ s.cnt ≠ 0 := by
  rw [← length_buf, List.length_pos_iff_ne_nil, ne_eq, buf_eq_nil_iff]

theorem cnt_toNat_pop {s : State} (h : s.cnt ≠ 0) : (pop s).cnt.toNat = s.cnt.toNat - 1 := by
  have h1 := (cnt_pos_iff s).mpr h
  have h2 := s.cnt.isLt
  rw [pop_cnt, BitVec.toNat_sub, show (1 : BitVec 4).toNat = 1 from rfl]
  omega

theorem map_getMsbD_succ (x : Byte) (n : Nat) :
    (List.range (n + 1)).map x.getMsbD = x.msb :: (List.range n).map (x <<< 1).getMsbD := by
  rw [List.range_succ_eq_map, List.map_cons, List.map_map]
  congr 1
  apply List.map_congr_left
  intro i _
  simp only [Function.comp_apply, BitVec.getMsbD_shiftLeft, Nat.succ_eq_add_one]

/-- A pop takes the front of the buffer (R72). -/
theorem buf_eq_cons_pop {s : State} (h : s.cnt ≠ 0) : s.buf = frontBit s :: (pop s).buf := by
  have h1 := (cnt_pos_iff s).mpr h
  obtain ⟨n, hn⟩ : ∃ n, s.cnt.toNat = n + 1 := ⟨s.cnt.toNat - 1, by omega⟩
  have h2 := cnt_toNat_pop h
  rw [State.buf, State.buf, hn, map_getMsbD_succ, h2, hn]
  rfl

/-- A refill makes the byte's bits the buffer (R71). -/
@[simp] theorem buf_refill (b : Byte) (s : State) : (refill b s).buf = byteBits b := rfl

theorem byteBits_eq_cons (b : Byte) (s : State) : byteBits b = b.msb :: (pop (refill b s)).buf := by
  rw [← buf_refill b s, buf_eq_cons_pop (by simp)]
  rfl

/-! The number behind bits. -/

theorem foldl_bits (bits : List Bool) (v : Nat) :
    bits.foldl (fun v b => 2 * v + b.toNat) v = v * 2 ^ bits.length + natOfBits bits := by
  induction bits generalizing v with
  | nil => simp [natOfBits]
  | cons b bits ih =>
    simp only [natOfBits, List.foldl_cons, List.length_cons]
    rw [ih, ih (2 * 0 + b.toNat)]
    ring

@[simp] theorem natOfBits_nil : natOfBits [] = 0 := rfl

theorem natOfBits_cons (b : Bool) (bits : List Bool) :
    natOfBits (b :: bits) = b.toNat * 2 ^ bits.length + natOfBits bits := by
  rw [natOfBits, List.foldl_cons, foldl_bits]
  simp

theorem natOfBits_append (xs ys : List Bool) : natOfBits (xs ++ ys) = natOfBits xs * 2 ^ ys.length + natOfBits ys := by
  rw [natOfBits, List.foldl_append, foldl_bits]
  rfl

theorem natOfBits_lt (bits : List Bool) : natOfBits bits < 2 ^ bits.length := by
  induction bits with
  | nil => simp
  | cons b bits ih =>
    rw [natOfBits_cons, List.length_cons, pow_succ]
    cases b <;> simp <;> omega

/-- R81's sum: the bits of a list weighted from the most significant. -/
theorem natOfBits_eq_sum (bits : List Bool) :
    natOfBits bits = ∑ i ∈ Finset.range bits.length, (bits.getD i false).toNat * 2 ^ (bits.length - 1 - i) := by
  induction bits with
  | nil => simp
  | cons b bits ih =>
    rw [natOfBits_cons, List.length_cons, Finset.sum_range_succ', ih, Nat.add_comm]
    simp only [List.getD_cons_succ, List.getD_cons_zero, Nat.add_sub_cancel, Nat.sub_zero]
    congr 1
    exact Finset.sum_congr rfl fun i _ => by rw [show bits.length - 1 - i = bits.length - (i + 1) by omega]

/-- The top `k` bits of a byte as a number. -/
theorem natOfBits_top (x : Byte) (k : Nat) (h : k ≤ 8) :
    natOfBits ((List.range k).map x.getMsbD) = x.toNat / 2 ^ (8 - k) := by
  induction k with
  | zero =>
    have := x.isLt
    simp only [List.range_zero, List.map_nil, natOfBits_nil]
    rw [Nat.div_eq_of_lt (by simpa using this)]
  | succ k ih =>
    have hk : k < 8 := by omega
    rw [List.range_succ, List.map_append, natOfBits_append, ih (by omega)]
    have hb : (x.getMsbD k).toNat = x.toNat / 2 ^ (8 - (k + 1)) % 2 := by
      rw [BitVec.getMsbD, decide_eq_true hk, Bool.true_and, BitVec.getLsbD, ← Nat.toNat_testBit]
      congr 2
      omega
    have hd : x.toNat / 2 ^ (8 - k) = x.toNat / 2 ^ (8 - (k + 1)) / 2 := by
      rw [Nat.div_div_eq_div_mul, ← pow_succ]
      congr 2
      omega
    rw [hd, List.map_singleton, List.length_singleton, pow_one, natOfBits_cons, natOfBits_nil, List.length_nil, hb]
    omega

/-- The register image of the buffer is SR (R13). -/
theorem leftJustify_buf {s : State} (h : s.Canonical) : leftJustify s.buf = s.sr := by
  obtain ⟨h1, h2⟩ := h
  have h1 : s.cnt.toNat ≤ 7 := h1
  have h3 := s.sr.isLt
  rw [leftJustify, length_buf]
  apply BitVec.eq_of_toNat_eq
  rw [State.buf, natOfBits_top _ _ (by omega), BitVec.toNat_ofNat]
  have h4 : s.sr.toNat * 2 ^ s.cnt.toNat % 2 ^ 8 = 0 := by
    have := congrArg BitVec.toNat h2
    simpa [BitVec.toNat_shiftLeft, Nat.shiftLeft_eq] using this
  have h5 : 2 ^ (8 - s.cnt.toNat) ∣ s.sr.toNat := by
    have : 2 ^ 8 = 2 ^ (8 - s.cnt.toNat) * 2 ^ s.cnt.toNat := by rw [← pow_add]; congr 1; omega
    rw [this] at h4
    exact (Nat.mul_dvd_mul_iff_right (by positivity)).mp (Nat.dvd_of_mod_eq_zero h4)
  rw [Nat.div_mul_cancel h5, Nat.mod_eq_of_lt h3]

theorem cnt_eq_ofNat_length_buf (s : State) : BitVec.ofNat 4 s.buf.length = s.cnt := by simp

/-- Each buffer has one register image (R13). -/
theorem regs_eq_of_buf_eq {s t : State} (hs : s.Canonical) (ht : t.Canonical) (h : s.buf = t.buf) :
    s.sr = t.sr ∧ s.cnt = t.cnt := by
  rw [← leftJustify_buf hs, ← leftJustify_buf ht, ← cnt_eq_ofNat_length_buf s, ← cnt_eq_ofNat_length_buf t, h]
  exact ⟨rfl, rfl⟩

theorem leftJustify_nil : leftJustify [] = 0 := rfl

/-! The canonical form. -/

theorem canonical_pop {s : State} (h : s.cnt ≠ 0) (hs : s.Canonical) : (pop s).Canonical := by
  obtain ⟨h1, h2⟩ := hs
  have h3 := (cnt_pos_iff s).mpr h
  have h4 := cnt_toNat_pop h
  refine ⟨by omega, ?_⟩
  rw [h4, pop_sr, ← BitVec.shiftLeft_add, show 1 + (s.cnt.toNat - 1) = s.cnt.toNat by omega]
  exact h2

theorem canonical_pop_refill (b : Byte) (s : State) : (pop (refill b s)).Canonical := by
  refine ⟨by simp [Config.bufMaxRest], ?_⟩
  rw [show (pop (refill b s)).cnt.toNat = 7 from by simp, pop_sr, refill_sr, ← BitVec.shiftLeft_add]
  exact BitVec.shiftLeft_eq_zero (by omega)

theorem canonical_clear (s : State) : (clearBuffer s).Canonical := ⟨by simp, by simp⟩

/-- Buffer and registers of a canonical state with an empty buffer. -/
theorem sr_eq_zero_of_aligned {s : State} (hs : s.Canonical) (h : s.cnt = 0) : s.sr = 0 := by
  have := hs.2
  simpa [h] using this

/-! The accumulator. -/

theorem toNat_shiftInBit (acc : Word) (b : Bool) : (shiftInBit acc b).toNat = (2 * acc.toNat + b.toNat) % 2 ^ 32 := by
  have h : acc <<< 1 ||| (BitVec.ofBool b).zeroExtend 32 = acc <<< 1 + (BitVec.ofBool b).zeroExtend 32 := by
    rw [BitVec.add_eq_or_of_and_eq_zero]
    ext i hi
    cases b <;> simp
    omega
  rw [shiftInBit, h, BitVec.toNat_add, BitVec.toNat_shiftLeft, Nat.shiftLeft_eq]
  cases b <;> simp <;> omega

/-- The accumulator after a run of bits (R80). -/
theorem toNat_foldl_shiftInBit (bits : List Bool) (acc : Word) :
    (bits.foldl shiftInBit acc).toNat = (acc.toNat * 2 ^ bits.length + natOfBits bits) % 2 ^ 32 := by
  induction bits generalizing acc with
  | nil => simp [Nat.mod_eq_of_lt acc.isLt]
  | cons b bits ih =>
    rw [List.foldl_cons, ih, toNat_shiftInBit, natOfBits_cons, List.length_cons, Nat.add_mod, Nat.mod_mul_mod,
      ← Nat.add_mod]
    congr 1
    ring

theorem foldl_shiftInBit_zero (bits : List Bool) : bits.foldl shiftInBit 0 = BitVec.ofNat 32 (natOfBits bits) := by
  apply BitVec.eq_of_toNat_eq
  rw [toNat_foldl_shiftInBit]
  simp

end Sys2Proof.Machine
end

