-- ==== Sys2Proof/Laws/Extract.lean ====
section
/-! SUPPORT. Everything `SrcRead`, `next_bit` and the extractor's loop can do. -/

namespace Sys2Proof.Machine

@[simp] theorem byteAnswers_nil : byteAnswers [] = [] := rfl
@[simp] theorem byteAnswers_cons (b : Byte) (bytes : List Byte) :
    byteAnswers (b :: bytes) = .answers (.ok [b]) :: byteAnswers bytes := rfl
@[simp] theorem byteReads_nil : byteReads [] = [] := rfl
@[simp] theorem byteReads_cons (b : Byte) (bytes : List Byte) :
    byteReads (b :: bytes) = .srcRead 1 (.ok [b]) :: byteReads bytes := rfl

theorem byteReads_append (xs ys : List Byte) : byteReads (xs ++ ys) = byteReads xs ++ byteReads ys := by
  simp [byteReads]

theorem byteAnswers_append (xs ys : List Byte) : byteAnswers (xs ++ ys) = byteAnswers xs ++ byteAnswers ys := by
  simp [byteAnswers]

/-! `SrcRead`. -/

/-- A zero-length request (R34). -/
theorem srcRead_zero (s : State) : srcRead 0 s = .done [] (s.record (.srcRead 0 (.ok []))) := rfl

theorem srcRead_unanswered {n : Nat} {s : State} (hn : n ≠ 0) (h : s.source = []) : srcRead n s = .hold () s := by
  simp [srcRead, hn, h]

theorem srcRead_delayed {n : Nat} {s : State} {rest : List SrcMove} (hn : n ≠ 0) (h : s.source = .delays :: rest) :
    srcRead n s = .hold () { s with source := rest } := by
  simp [srcRead, hn, h]

theorem srcRead_err {n : Nat} {s : State} {e : Err} {rest : List SrcMove} (hn : n ≠ 0)
    (h : s.source = .answers (.err e) :: rest) :
    srcRead n s = .ioerr e ({ s with source := rest }.record (.srcRead n (.err e))) := by
  simp [srcRead, hn, h]

theorem srcRead_ok {n : Nat} {s : State} {bytes : List Byte} {rest : List SrcMove} (hn : n ≠ 0)
    (h : s.source = .answers (.ok bytes) :: rest) (hl : bytes.length = n) :
    srcRead n s = .done bytes ({ s with source := rest }.record (.srcRead n (.ok bytes))) := by
  simp [srcRead, hn, h, hl]

/-! `next_bit`. -/

/-- With bits buffered there is no source access and no failure (R70). -/
theorem nextBit_buffered {s : State} (h : s.cnt ≠ 0) : nextBit s = .done (frontBit s) (pop s) := by
  rw [nextBit, if_neg h]

/-- A refill and the pop of the same `next_bit` (R70, R71). -/
theorem nextBit_refill {s : State} {b : Byte} {rest : List SrcMove} (h : s.cnt = 0)
    (hs : s.source = .answers (.ok [b]) :: rest) :
    nextBit s = .done b.msb (pop (refill b ({ s with source := rest }.record (.srcRead 1 (.ok [b]))))) := by
  rw [nextBit, if_pos h, Config.refillLen, srcRead_ok (n := 1) (by decide) hs rfl]
  rfl

theorem nextBit_err {s : State} {e : Err} {rest : List SrcMove} (h : s.cnt = 0)
    (hs : s.source = .answers (.err e) :: rest) :
    nextBit s = .ioerr e ({ s with source := rest }.record (.srcRead 1 (.err e))) := by
  rw [nextBit, if_pos h, Config.refillLen, srcRead_err (by decide) hs]

theorem nextBit_unanswered {s : State} (h : s.cnt = 0) (hs : s.source = []) : nextBit s = .hold () s := by
  rw [nextBit, if_pos h, Config.refillLen, srcRead_unanswered (by decide) hs]

theorem nextBit_delayed {s : State} {rest : List SrcMove} (h : s.cnt = 0) (hs : s.source = .delays :: rest) :
    nextBit s = .hold () { s with source := rest } := by
  rw [nextBit, if_pos h, Config.refillLen, srcRead_delayed (by decide) hs]

theorem nextBit_breach {s : State} {bytes : List Byte} {rest : List SrcMove} (h : s.cnt = 0)
    (hs : s.source = .answers (.ok bytes) :: rest) (hl : bytes.length ≠ 1) :
    nextBit s = .refuse (.sourceContract 1 bytes.length) := by
  simp [nextBit, h, Config.refillLen, srcRead, hs, hl]

/-- The six things `next_bit` can meet. -/
inductive NextBitCase (s : State) : Prop where
  /-- A bit is buffered. -/
  | buffered (h : s.cnt ≠ 0)
  /-- The refill is answered with one byte. -/
  | byte (b : Byte) (rest : List SrcMove) (h : s.cnt = 0) (hs : s.source = .answers (.ok [b]) :: rest)
  /-- The refill is answered with an error. -/
  | err (e : Err) (rest : List SrcMove) (h : s.cnt = 0) (hs : s.source = .answers (.err e) :: rest)
  /-- The refill is not answered. -/
  | unanswered (h : s.cnt = 0) (hs : s.source = [])
  /-- The refill is not answered yet. -/
  | delayed (rest : List SrcMove) (h : s.cnt = 0) (hs : s.source = .delays :: rest)
  /-- The refill is answered with the wrong number of bytes. -/
  | breach (bytes : List Byte) (rest : List SrcMove) (h : s.cnt = 0)
    (hs : s.source = .answers (.ok bytes) :: rest) (hl : bytes.length ≠ 1)

theorem nextBit_cases (s : State) : NextBitCase s := by
  by_cases h : s.cnt = 0
  · match hs : s.source with
    | [] => exact .unanswered h hs
    | .delays :: rest => exact .delayed rest h hs
    | .answers (.err e) :: rest => exact .err e rest h hs
    | .answers (.ok bytes) :: rest =>
      by_cases hl : bytes.length = 1
      · obtain ⟨b, rfl⟩ := List.length_eq_one_iff.mp hl
        exact .byte b rest h hs
      · exact .breach bytes rest h hs hl
  · exact .buffered h

/-- One bit of a run over a source that hands over bytes one by one: either it is buffered, or the next byte's
refill brings it. What follows it is the same run with one bit less. -/
theorem nextBit_run {n : Nat} {s : State} {bytes : List Byte} {tail : List SrcMove} (hc : s.Canonical)
    (hs : s.source = byteAnswers bytes ++ tail) (hb : needBytes s.cnt.toNat (n + 1) ≤ bytes.length) :
    ∃ b s1 bytes1, nextBit s = .done b s1 ∧ s1.Canonical ∧ s1.source = byteAnswers bytes1 ++ tail ∧
      s.bitsWith bytes = b :: s1.bitsWith bytes1 ∧
      needBytes s1.cnt.toNat n + bytes.length = needBytes s.cnt.toNat (n + 1) + bytes1.length ∧
      s.trace ++ byteReads bytes = s1.trace ++ byteReads bytes1 ∧
      s1 = { s with sr := s1.sr, cnt := s1.cnt, source := s1.source, trace := s1.trace } := by
  have h15 : s.cnt.toNat ≤ 7 := hc.1
  by_cases h : s.cnt = 0
  · have h0 : s.cnt.toNat = 0 := by rw [h]; rfl
    cases bytes with
    | nil => rw [needBytes, h0, List.length_nil] at hb; omega
    | cons b bytes =>
      refine ⟨_, _, bytes, nextBit_refill (rest := byteAnswers bytes ++ tail) h (by simpa using hs),
        canonical_pop_refill _ _, rfl, ?_, ?_, ?_, rfl⟩
      · rw [State.bitsWith, (buf_eq_nil_iff s).mpr h, List.flatMap_cons, byteBits_eq_cons]
        rfl
      · have : (pop (refill b ({ s with source := byteAnswers bytes ++ tail }.record
            (.srcRead 1 (.ok [b]))))).cnt.toNat = 7 := by simp
        rw [this, h0]
        simp only [needBytes, List.length_cons]
        omega
      · simp
  · have h1 := (cnt_pos_iff s).mpr h
    have h2 := cnt_toNat_pop h
    refine ⟨_, _, bytes, nextBit_buffered h, canonical_pop h hc, hs, ?_, ?_, rfl, rfl⟩
    · rw [State.bitsWith, buf_eq_cons_pop h]
      rfl
    · rw [h2]
      simp only [needBytes]
      omega

/-- What `next_bit` can do, said once: the registers, the source and the record are all it touches. -/
theorem nextBit_inv (s : State) :
    (∃ b t evs, nextBit s = .done b t ∧ (evs = [] ∨ ∃ B, evs = [.srcRead 1 (.ok [B])]) ∧
      t = { s with sr := t.sr, cnt := t.cnt, source := t.source, trace := s.trace ++ evs } ∧ t.source <:+ s.source) ∨
    (∃ e rest, nextBit s = .ioerr e { s with source := rest, trace := s.trace ++ [.srcRead 1 (.err e)] } ∧
      s.cnt = 0 ∧ s.source = .answers (.err e) :: rest) ∨
    (∃ rest, nextBit s = .hold () { s with source := rest } ∧ s.cnt = 0 ∧ rest <:+ s.source) ∨
    (∃ n, nextBit s = .refuse (.sourceContract 1 n) ∧ n ≠ 1) := by
  cases nextBit_cases s with
  | buffered h =>
    exact .inl ⟨_, _, [], nextBit_buffered h, .inl rfl, by simp [pop], List.suffix_refl _⟩
  | byte b rest h hs =>
    exact .inl ⟨_, _, _, nextBit_refill h hs, .inr ⟨b, rfl⟩, rfl, by simp [hs]⟩
  | err e rest h hs => exact .inr (.inl ⟨e, rest, nextBit_err h hs, h, hs⟩)
  | unanswered h hs => exact .inr (.inr (.inl ⟨[], by rw [nextBit_unanswered h hs, ← hs], h, List.nil_suffix⟩))
  | delayed rest h hs => exact .inr (.inr (.inl ⟨rest, nextBit_delayed h hs, h, by simp [hs]⟩))
  | breach bytes rest h hs hl => exact .inr (.inr (.inr ⟨_, nextBit_breach h hs hl, hl⟩))

/-! The extractor's loop. -/

/-- What the loop does once it has met `n` bits: it goes on from there. -/
def Fetch.andThen (f : Fetch Nat Unit) (m : Nat) : Fetch Nat Unit :=
  match f with
  | .done _ s => shiftIn m s
  | .ioerr e s => .ioerr e s
  | .hold left s => .hold (left + m) s
  | .refuse r => .refuse r

/-- The loop over `n + m` bits is the loop over `n` and then over `m`. -/
theorem shiftIn_add (n m : Nat) (s : State) : shiftIn (n + m) s = (shiftIn n s).andThen m := by
  induction n generalizing s with
  | zero => simp [shiftIn, Fetch.andThen]
  | succ n ih =>
    rw [show n + 1 + m = (n + m) + 1 by omega, shiftIn, shiftIn]
    cases nextBit s with
    | done b s1 => exact ih _
    | ioerr e s1 => rfl
    | hold w s1 => simp only [Fetch.andThen]; congr 1; omega
    | refuse r => rfl

/-- The loop over bits that are there: the accumulator takes them in delivery order, and what is left of the last
byte is the buffer (R80, R83). -/
theorem shiftIn_run {n : Nat} {s : State} {bytes : List Byte} {tail : List SrcMove} (hc : s.Canonical)
    (hs : s.source = byteAnswers bytes ++ tail) (hb : bytes.length = needBytes s.cnt.toNat n) :
    shiftIn n s =
      .done () { s.afterBits n bytes tail with acc := ((s.bitsWith bytes).take n).foldl shiftInBit s.acc } := by
  induction n generalizing s bytes with
  | zero =>
    obtain rfl : bytes = [] := List.length_eq_zero_iff.mp (by rw [hb, needBytes]; omega)
    have h1 : s.bitsWith [] = s.buf := by simp [State.bitsWith]
    have h2 : s.source = tail := by simpa using hs
    simp only [shiftIn, State.afterBits, h1, List.drop_zero, List.take_zero, List.foldl_nil, byteReads_nil,
      List.append_nil, leftJustify_buf hc, cnt_eq_ofNat_length_buf, ← h2]
  | succ n ih =>
    obtain ⟨b, s1, bytes1, h1, h2, h3, h4, h5, h6, h7⟩ := nextBit_run hc hs hb.ge
    have h8 := ih (s := { s1 with acc := shiftInBit s1.acc b }) (bytes := bytes1) h2 h3 (by simp only; omega)
    rw [shiftIn, h1]
    refine h8.trans ?_
    have h9 : State.bitsWith { s1 with acc := shiftInBit s1.acc b } bytes1 = s1.bitsWith bytes1 := rfl
    rw [h7] at h9 ⊢
    simp only [State.afterBits, h9, h4, h6, List.drop_succ_cons, List.take_succ_cons, List.foldl_cons]
    rfl

/-- The loop past the bytes that are handed over: every bit of them is consumed and the buffer is empty when the
source is asked for more (R83). -/
theorem shiftIn_drained {n : Nat} {s : State} {bytes : List Byte} {tail : List SrcMove} (hc : s.Canonical)
    (hs : s.source = byteAnswers bytes ++ tail) (hn : s.cnt.toNat + 8 * bytes.length ≤ n) :
    shiftIn n s =
      shiftIn (n - (s.cnt.toNat + 8 * bytes.length))
        { s with
          sr := 0, cnt := 0, source := tail, trace := s.trace ++ byteReads bytes
          acc := (s.bitsWith bytes).foldl shiftInBit s.acc } := by
  have hl : (s.bitsWith bytes).length = s.cnt.toNat + 8 * bytes.length := by
    rw [State.bitsWith, List.length_append, length_buf, length_flatMap_byteBits]
  conv_lhs => rw [show n = s.cnt.toNat + 8 * bytes.length + (n - (s.cnt.toNat + 8 * bytes.length)) by omega]
  rw [shiftIn_add, shiftIn_run hc hs (by rw [needBytes]; omega)]
  simp [Fetch.andThen, State.afterBits, ← hl, leftJustify_nil]

/-! The internal function `read(bits)`. -/

/-- `read(bits)` over bits that are there (R80): ACC then holds a free value. -/
theorem readBits_run {n : Nat} {s : State} {bytes : List Byte} {tail : List SrcMove} (hc : s.Canonical)
    (hs : s.source = byteAnswers bytes ++ tail) (hb : bytes.length = needBytes s.cnt.toNat n) :
    readBits n s = .done (BitVec.ofNat 32 (natOfBits ((s.bitsWith bytes).take n))) (s.afterBits n bytes tail).freeAcc := by
  have h := shiftIn_run (s := { s with acc := 0 }) hc hs hb
  rw [readBits, h, takeAcc]
  simp only [foldl_shiftInBit_zero]
  rfl

/-- `read(bits)` whose next refill fails (R82). -/
theorem readBits_err {n : Nat} {s : State} {bytes : List Byte} {e : Err} {rest : List SrcMove} (hc : s.Canonical)
    (hs : s.source = byteAnswers bytes ++ .answers (.err e) :: rest) (hn : s.cnt.toNat + 8 * bytes.length < n) :
    readBits n s = .ioerr e { s with
      sr := 0, cnt := 0, source := rest, acc := Config.freeWord s.fresh, fresh := s.fresh + 1
      trace := s.trace ++ byteReads bytes ++ [.srcRead 1 (.err e)] } := by
  have h := shiftIn_drained (s := { s with acc := 0 }) hc hs (Nat.le_of_lt hn)
  obtain ⟨m, hm⟩ : ∃ m, n - (s.cnt.toNat + 8 * bytes.length) = m + 1 := ⟨n - (s.cnt.toNat + 8 * bytes.length) - 1, by omega⟩
  rw [readBits, h, hm, shiftIn, nextBit_err (e := e) (rest := rest) rfl rfl]
  rfl

/-- `read(bits)` whose next refill is not answered (R146): the bits there were are in ACC. -/
theorem readBits_hold {n : Nat} {s : State} {bytes : List Byte} (hc : s.Canonical)
    (hs : s.source = byteAnswers bytes) (hn : s.cnt.toNat + 8 * bytes.length < n) :
    readBits n s = .hold (n - (s.cnt.toNat + 8 * bytes.length)) { s with
      sr := 0, cnt := 0, source := [], acc := BitVec.ofNat 32 (natOfBits (s.bitsWith bytes))
      trace := s.trace ++ byteReads bytes } := by
  have h := shiftIn_drained (s := { s with acc := 0 }) (tail := []) hc (by simpa using hs) (Nat.le_of_lt hn)
  obtain ⟨m, hm⟩ : ∃ m, n - (s.cnt.toNat + 8 * bytes.length) = m + 1 := ⟨n - (s.cnt.toNat + 8 * bytes.length) - 1, by omega⟩
  rw [readBits, h, hm, shiftIn, nextBit_unanswered rfl rfl]
  simp only [takeAcc, foldl_shiftInBit_zero]
  rfl

end Sys2Proof.Machine
end

