-- ==== Sys2Proof/Laws/Consume.lean ====
section
/-! SUPPORT. Everything a run of bits can do, from any state: the extractor's loop, `read(bits)`, the unary loop and the
byte loop of READ_BYTES. -/

namespace Sys2Proof.Machine

/-- From `s` to `t` the reader has consumed `bits` and pulled `bytes`, one request for each. Of the rest of the state
only ACC, UC and the counter of free values may differ. -/
structure Consumes (s t : State) (bits : List Bool) (bytes : List Byte) : Prop where
  source : s.source = byteAnswers bytes ++ t.source
  trace : t.trace = s.trace ++ byteReads bytes
  stream : s.bitsWith bytes = bits ++ t.buf
  canonical : s.Canonical → t.Canonical
  busy : t.busy = s.busy
  live : t.live = s.live
  client : t.client = s.client
  dst : t.dst = s.dst
  detached : t.detached = s.detached

theorem bitsWith_append (s : State) (xs ys : List Byte) :
    s.bitsWith (xs ++ ys) = s.bitsWith xs ++ ys.flatMap byteBits := by
  simp [State.bitsWith]

@[simp] theorem bitsWith_nil (s : State) : s.bitsWith [] = s.buf := by simp [State.bitsWith]

theorem length_bitsWith (s : State) (bytes : List Byte) :
    (s.bitsWith bytes).length = s.cnt.toNat + 8 * bytes.length := by
  rw [State.bitsWith, List.length_append, length_buf, length_flatMap_byteBits]

theorem Consumes.refl (s : State) : Consumes s s [] [] :=
  ⟨rfl, by simp, by simp, id, rfl, rfl, rfl, rfl, rfl⟩

theorem Consumes.trans {s t u : State} {b1 b2 : List Bool} {y1 y2 : List Byte} (h1 : Consumes s t b1 y1)
    (h2 : Consumes t u b2 y2) : Consumes s u (b1 ++ b2) (y1 ++ y2) where
  source := by rw [h1.source, h2.source, byteAnswers_append, List.append_assoc]
  trace := by rw [h2.trace, h1.trace, byteReads_append, List.append_assoc]
  stream := by
    rw [bitsWith_append, h1.stream, List.append_assoc, ← State.bitsWith, h2.stream, List.append_assoc]
  canonical := fun h => h2.canonical (h1.canonical h)
  busy := h2.busy.trans h1.busy
  live := h2.live.trans h1.live
  client := h2.client.trans h1.client
  dst := h2.dst.trans h1.dst
  detached := h2.detached.trans h1.detached

/-- Changes of ACC, UC and the counter of free values before and after a run do not show in it. -/
theorem Consumes.work {s t : State} {bits : List Bool} {bytes : List Byte} (h : Consumes s t bits bytes)
    (a a' u u' : Word) (f f' : Nat) :
    Consumes { s with acc := a, uc := u, fresh := f } { t with acc := a', uc := u', fresh := f' } bits bytes :=
  ⟨h.source, h.trace, h.stream, h.canonical, h.busy, h.live, h.client, h.dst, h.detached⟩

theorem Consumes.length {s t : State} {bits : List Bool} {bytes : List Byte} (h : Consumes s t bits bytes) :
    s.cnt.toNat + 8 * bytes.length = bits.length + t.cnt.toNat := by
  have := congrArg List.length h.stream
  rwa [length_bitsWith, List.length_append, length_buf] at this

/-- A run's requests deliver its bytes. -/
theorem Consumes.delivered {s t : State} {bits : List Bool} {bytes : List Byte} (h : Consumes s t bits bytes) :
    t.delivered = s.delivered ++ bytes := by
  rw [State.delivered, h.trace, List.flatMap_append, ← State.delivered]
  congr 1
  induction bytes with
  | nil => rfl
  | cons b bytes _ => simp [byteReads, List.flatMap_map]

/-- A run gives no response. -/
theorem Consumes.responses {s t : State} {bits : List Bool} {bytes : List Byte} (h : Consumes s t bits bytes) :
    t.responses = s.responses := by
  rw [State.responses, h.trace, List.filterMap_append, ← State.responses]
  simp [byteReads, List.filterMap_map, Function.comp_def]

/-! Ways a run can stop at a request. `u` is the state in which the request is made. -/

/-- The request is answered with an error. -/
def StopsAtError (u t : State) (e : Err) : Prop :=
  u.cnt = 0 ∧ ∃ rest, u.source = .answers (.err e) :: rest ∧
    t = { u with source := rest, trace := u.trace ++ [.srcRead 1 (.err e)] }

/-- The request is not answered, or not yet. -/
def StopsUnanswered (u t : State) : Prop :=
  u.cnt = 0 ∧ ((u.source = [] ∧ t = u) ∨ ∃ rest, u.source = .delays :: rest ∧ t = { u with source := rest })

/-- What `next_bit` can do, in these terms. -/
theorem nextBit_consumes (s : State) :
    (∃ b t bytes, nextBit s = .done b t ∧ Consumes s t [b] bytes ∧ t.acc = s.acc ∧ t.uc = s.uc ∧ t.fresh = s.fresh) ∨
    (∃ e t, nextBit s = .ioerr e t ∧ StopsAtError s t e) ∨
    (∃ t, nextBit s = .hold () t ∧ StopsUnanswered s t) ∨
    (∃ k, nextBit s = .refuse (.sourceContract 1 k) ∧ k ≠ 1) := by
  cases nextBit_cases s with
  | buffered h =>
    refine .inl ⟨_, _, [], nextBit_buffered h, ⟨rfl, by simp, ?_, canonical_pop h, rfl, rfl, rfl, rfl, rfl⟩, rfl, rfl, rfl⟩
    rw [bitsWith_nil, buf_eq_cons_pop h]
    rfl
  | byte b rest h hs =>
    refine .inl ⟨_, _, [b], nextBit_refill h hs,
      ⟨by simp [hs], by simp, ?_, fun _ => canonical_pop_refill _ _, rfl, rfl, rfl, rfl, rfl⟩, rfl, rfl, rfl⟩
    rw [State.bitsWith, (buf_eq_nil_iff s).mpr h, List.flatMap_singleton,
      byteBits_eq_cons b ({ s with source := rest }.record (.srcRead 1 (.ok [b])))]
    rfl
  | err e rest h hs => exact .inr (.inl ⟨e, _, nextBit_err h hs, h, rest, hs, rfl⟩)
  | unanswered h hs => exact .inr (.inr (.inl ⟨_, nextBit_unanswered h hs, h, .inl ⟨hs, rfl⟩⟩))
  | delayed rest h hs => exact .inr (.inr (.inl ⟨_, nextBit_delayed h hs, h, .inr ⟨rest, hs, rfl⟩⟩))
  | breach bytes rest h hs hl => exact .inr (.inr (.inr ⟨_, nextBit_breach h hs hl, hl⟩))

/-- What the extractor's loop can do (R80, R82, R83). -/
theorem shiftIn_consumes (n : Nat) (s : State) :
    (∃ t bits bytes, shiftIn n s = .done () t ∧ Consumes s t bits bytes ∧ bits.length = n ∧
      t.acc = bits.foldl shiftInBit s.acc ∧ t.uc = s.uc ∧ t.fresh = s.fresh) ∨
    (∃ e u t bits bytes, shiftIn n s = .ioerr e t ∧ Consumes s u bits bytes ∧ StopsAtError u t e ∧ bits.length < n ∧
      u.uc = s.uc ∧ u.fresh = s.fresh) ∨
    (∃ left u t bits bytes, shiftIn n s = .hold left t ∧ Consumes s u bits bytes ∧ StopsUnanswered u t ∧ 1 ≤ left ∧
      bits.length + left = n ∧ u.acc = bits.foldl shiftInBit s.acc ∧ u.uc = s.uc ∧ u.fresh = s.fresh) ∨
    (∃ k, shiftIn n s = .refuse (.sourceContract 1 k) ∧ k ≠ 1) := by
  induction n generalizing s with
  | zero => exact .inl ⟨s, [], [], rfl, .refl s, rfl, rfl, rfl, rfl⟩
  | succ n ih =>
    rw [shiftIn]
    rcases nextBit_consumes s with ⟨b, t, y, h, hc, ha, hu, hf⟩ | ⟨e, t, h, hs⟩ | ⟨t, h, hs⟩ | ⟨k, h, hk⟩ <;> rw [h]
    · have h1 := (hc.work s.acc (shiftInBit t.acc b) s.uc t.uc s.fresh t.fresh)
      rcases ih { t with acc := shiftInBit t.acc b } with ⟨v, bits, y2, h2, c2, l2, a2, u2, f2⟩ |
        ⟨e, u, v, bits, y2, h2, c2, st, l2, u2, f2⟩ | ⟨left, u, v, bits, y2, h2, c2, st, l1, l2, a2, u2, f2⟩ |
        ⟨k, h2, hk⟩
      · exact .inl ⟨v, _, _, h2, h1.trans c2, by simp [l2], by rw [a2, ha]; rfl, u2.trans hu, f2.trans hf⟩
      · exact .inr (.inl ⟨e, u, v, _, _, h2, h1.trans c2, st, by simp; omega, u2.trans hu, f2.trans hf⟩)
      · exact .inr (.inr (.inl ⟨left, u, v, _, _, h2, h1.trans c2, st, l1, by simp; omega, by rw [a2, ha]; rfl,
          u2.trans hu, f2.trans hf⟩))
      · exact .inr (.inr (.inr ⟨k, h2, hk⟩))
    · exact .inr (.inl ⟨e, s, t, [], [], rfl, .refl s, hs, by simp, rfl, rfl⟩)
    · exact .inr (.inr (.inl ⟨n + 1, s, t, [], [], rfl, .refl s, hs, by omega, by simp, rfl, rfl, rfl⟩))
    · exact .inr (.inr (.inr ⟨k, rfl, hk⟩))

/-- What the extractor's end can do after its loop: the value is what ACC has taken in (R80, R82). -/
theorem resumeBits_consumes (n : Nat) (s : State) :
    (∃ t bits bytes, resumeBits n s = .done (bits.foldl shiftInBit s.acc) t ∧ Consumes s t bits bytes ∧
      bits.length = n ∧ t.uc = s.uc) ∨
    (∃ e u t bits bytes, resumeBits n s = .ioerr e t ∧ Consumes s u bits bytes ∧ StopsAtError u t e ∧
      bits.length < n ∧ u.uc = s.uc) ∨
    (∃ left u t bits bytes, resumeBits n s = .hold left t ∧ Consumes s u bits bytes ∧ StopsUnanswered u t ∧
      1 ≤ left ∧ bits.length + left = n ∧ u.acc = bits.foldl shiftInBit s.acc ∧ u.uc = s.uc ∧ u.fresh = s.fresh) ∨
    (∃ k, resumeBits n s = .refuse (.sourceContract 1 k) ∧ k ≠ 1) := by
  rw [resumeBits]
  rcases shiftIn_consumes n s with ⟨t, bits, y, h, c, l, a, u, f⟩ | ⟨e, u, t, bits, y, h, c, st, l, hu, f⟩ |
    ⟨left, u, t, bits, y, h, c, st, l1, l, a, hu, f⟩ | ⟨k, h, hk⟩ <;> rw [h]
  · exact .inl ⟨t.freeAcc, bits, y, by rw [takeAcc, a],
      c.work s.acc (Config.freeWord t.fresh) s.uc t.uc s.fresh (t.fresh + 1), l, u⟩
  · obtain ⟨h0, rest, hs, rfl⟩ := st
    exact .inr (.inl ⟨e, u.freeAcc, _, bits, y, rfl,
      c.work s.acc (Config.freeWord u.fresh) s.uc u.uc s.fresh (u.fresh + 1), ⟨h0, rest, hs, rfl⟩, l, hu⟩)
  · exact .inr (.inr (.inl ⟨left, u, t, bits, y, rfl, c, st, l1, l, a, hu, f⟩))
  · exact .inr (.inr (.inr ⟨k, rfl, hk⟩))

/-- What `read(bits)` can do (R80, R82): the same from a cleared accumulator. -/
theorem readBits_consumes (n : Nat) (s : State) :
    (∃ t bits bytes, readBits n s = .done (BitVec.ofNat 32 (natOfBits bits)) t ∧ Consumes s t bits bytes ∧
      bits.length = n ∧ t.uc = s.uc) ∨
    (∃ e u t bits bytes, readBits n s = .ioerr e t ∧ Consumes s u bits bytes ∧ StopsAtError u t e ∧
      bits.length < n ∧ u.uc = s.uc) ∨
    (∃ left u t bits bytes, readBits n s = .hold left t ∧ Consumes s u bits bytes ∧ StopsUnanswered u t ∧
      1 ≤ left ∧ bits.length + left = n ∧ u.acc = BitVec.ofNat 32 (natOfBits bits) ∧ u.uc = s.uc ∧
      u.fresh = s.fresh) ∨
    (∃ k, readBits n s = .refuse (.sourceContract 1 k) ∧ k ≠ 1) := by
  have e : readBits n s = resumeBits n { s with acc := 0 } := rfl
  have w : ∀ {t bits bytes}, Consumes { s with acc := 0 } t bits bytes → Consumes s t bits bytes :=
    fun {t _ _} c => c.work s.acc t.acc s.uc t.uc s.fresh t.fresh
  rw [e]
  rcases resumeBits_consumes n { s with acc := 0 } with ⟨t, bits, y, h, c, l, u⟩ | ⟨e, u, t, bits, y, h, c, st, l, hu⟩ |
    ⟨left, u, t, bits, y, h, c, st, l1, l, a, hu, f⟩ | ⟨k, h, hk⟩
  · exact .inl ⟨t, bits, y, by rw [h, foldl_shiftInBit_zero], w c, l, u⟩
  · exact .inr (.inl ⟨e, u, t, bits, y, h, w c, st, l, hu⟩)
  · exact .inr (.inr (.inl ⟨left, u, t, bits, y, h, w c, st, l1, l, by rw [a, foldl_shiftInBit_zero], hu, f⟩))
  · exact .inr (.inr (.inr ⟨k, h, hk⟩))

/-! The unary loop. -/

/-- A run uses up the bits ahead one by one, so the loop never ends for want of turns. -/
theorem Consumes.bitsAhead {s t : State} {bits : List Bool} {bytes : List Byte} (h : Consumes s t bits bytes) :
    bitsAhead s = bits.length + bitsAhead t := by
  have h1 := h.length
  have h2 := congrArg List.length h.source
  rw [List.length_append, byteAnswers, List.length_map] at h2
  rw [Sys2Proof.Machine.bitsAhead, Sys2Proof.Machine.bitsAhead]
  omega

theorem ofNat_one_bit (b : Bool) : (BitVec.ofNat 32 (natOfBits [b])).getLsbD 0 = b := by cases b <;> rfl

/-- What the unary loop can do (R110 to R114), given more turns than bits ahead. -/
theorem unaryLoop_consumes (stop : Bool) (turns : Nat) (s : State) (ht : bitsAhead s < turns) :
    (∃ t c bytes, unaryLoop stop turns s = .done () t ∧
      Consumes s t (List.replicate c (!stop) ++ [stop]) bytes ∧ s.uc.toNat + c < 2 ^ 32 ∧
      t.uc = s.uc + BitVec.ofNat 32 c) ∨
    (∃ e u t c bytes, unaryLoop stop turns s = .ioerr e t ∧ Consumes s u (List.replicate c (!stop)) bytes ∧
      StopsAtError u t e ∧ s.uc.toNat + c < 2 ^ 32) ∨
    (∃ u t c bytes, unaryLoop stop turns s = .hold () t ∧ Consumes s u (List.replicate c (!stop)) bytes ∧
      StopsUnanswered u t ∧ s.uc.toNat + c < 2 ^ 32 ∧ u.uc = s.uc + BitVec.ofNat 32 c ∧ u.acc = 0) ∨
    (∃ k, unaryLoop stop turns s = .refuse (.sourceContract 1 k) ∧ k ≠ 1) ∨
    (unaryLoop stop turns s = .refuse .unaryOverflow ∧
      ∃ t bytes, Consumes s t (List.replicate (2 ^ 32 - s.uc.toNat) (!stop)) bytes) := by
  induction turns generalizing s with
  | zero => omega
  | succ turns ih =>
    rw [unaryLoop]
    rcases readBits_consumes 1 s with ⟨t, bits, y, h, c, l, hu⟩ | ⟨e, u, t, bits, y, h, c, st, l, hu⟩ |
      ⟨left, u, t, bits, y, h, c, st, l1, l, a, hu, f⟩ | ⟨k, h, hk⟩ <;> rw [h]
    · obtain ⟨b, rfl⟩ := List.length_eq_one_iff.mp l
      simp only [ofNat_one_bit]
      have hlt := s.uc.isLt
      split
      · next hb =>
        subst hb
        exact .inl ⟨t, 0, y, rfl, c, by omega, by rw [hu]; simp⟩
      · next hb =>
        have hb' : b = !stop := by cases b <;> cases stop <;> simp_all
        subst hb'
        split
        · next hm =>
          rw [hu] at hm
          refine .inr (.inr (.inr (.inr ⟨rfl, t, y, ?_⟩)))
          rw [hm]
          exact c
        · next hm =>
          have hmax : s.uc.toNat + 1 < 2 ^ 32 := by
            rcases Nat.lt_or_ge (s.uc.toNat + 1) (2 ^ 32) with h1 | h1
            · exact h1
            · exact absurd (by rw [hu]; exact BitVec.eq_of_toNat_eq (by show _ = 4294967295; omega)) hm
          have huc : (t.uc + 1).toNat = s.uc.toNat + 1 := by
            rw [hu, BitVec.toNat_add]
            exact Nat.mod_eq_of_lt hmax
          have hadd : ∀ m, t.uc + 1 + BitVec.ofNat 32 m = s.uc + BitVec.ofNat 32 (m + 1) := fun m => by
            rw [hu, BitVec.add_assoc, Nat.add_comm m 1, BitVec.ofNat_add]
            rfl
          have c1 := c.work s.acc t.acc s.uc (t.uc + 1) s.fresh t.fresh
          have hr : ∀ m (xs : List Bool), [!stop] ++ (List.replicate m (!stop) ++ xs) = List.replicate (m + 1) (!stop) ++ xs :=
            fun m xs => rfl
          have hr0 : ∀ m, [!stop] ++ List.replicate m (!stop) = List.replicate (m + 1) (!stop) := fun m => rfl
          rcases ih { t with uc := t.uc + 1 } (by
              have := c1.bitsAhead
              simp only [List.length_singleton] at this
              change _ = 1 + bitsAhead { t with uc := t.uc + 1 } at this
              change bitsAhead s = _ at this
              omega) with
            ⟨v, m, y2, h2, c2, l2, u2⟩ | ⟨e, u, v, m, y2, h2, c2, st, l2⟩ | ⟨u, v, m, y2, h2, c2, st, l2, u2, a2⟩ |
            ⟨k, h2, hk⟩ | ⟨h2, v, y2, c2⟩
          · simp only [huc] at l2
            exact .inl ⟨v, m + 1, _, h2, hr m _ ▸ c1.trans c2, by omega, u2.trans (hadd m)⟩
          · simp only [huc] at l2
            exact .inr (.inl ⟨e, u, v, m + 1, _, h2, hr0 m ▸ c1.trans c2, st, by omega⟩)
          · simp only [huc] at l2
            exact .inr (.inr (.inl ⟨u, v, m + 1, _, h2, hr0 m ▸ c1.trans c2, st, by omega, u2.trans (hadd m), a2⟩))
          · exact .inr (.inr (.inr (.inl ⟨k, h2, hk⟩)))
          · refine .inr (.inr (.inr (.inr ⟨h2, v, y ++ y2, ?_⟩)))
            change Consumes _ v (List.replicate (2 ^ 32 - (t.uc + 1).toNat) (!stop)) y2 at c2
            rw [huc] at c2
            rw [show 2 ^ 32 - s.uc.toNat = 2 ^ 32 - (s.uc.toNat + 1) + 1 by omega]
            exact hr0 _ ▸ c1.trans c2
    · obtain rfl : bits = [] := List.length_eq_zero_iff.mp (by omega)
      exact .inr (.inl ⟨e, u, t, 0, y, rfl, c, st, by have := s.uc.isLt; omega⟩)
    · obtain rfl : bits = [] := List.length_eq_zero_iff.mp (by omega)
      exact .inr (.inr (.inl ⟨u, t, 0, y, rfl, c, st, by have := s.uc.isLt; omega, by rw [hu]; simp, by rw [a]; rfl⟩))
    · exact .inr (.inr (.inr (.inl ⟨k, rfl, hk⟩)))

/-! The byte loop of unaligned READ_BYTES. -/

/-- From `s` to `t` the byte loop has done `evs`: it has pulled `bytes`, one request for each, consumed `bits`, and
written the bytes at `n` indices from `i` on. -/
structure Fills (i n : Nat) (s t : State) (bits : List Bool) (bytes : List Byte) (evs : List Event) : Prop where
  source : s.source = byteAnswers bytes ++ t.source
  trace : t.trace = s.trace ++ evs
  requests : evs.filterMap Event.request = bytes.map fun b => (1, .ok [b])
  writes : evs.filterMap writeIndex = List.range' i n
  responses : evs.filterMap Event.response = []
  stream : s.bitsWith bytes = bits ++ t.buf
  canonical : s.Canonical → t.Canonical
  dst : t.dst = evs.foldl afterEvent s.dst
  busy : t.busy = s.busy
  live : t.live = s.live
  client : t.client = s.client
  detached : t.detached = s.detached
  uc : t.uc = s.uc

theorem Consumes.fills {s t : State} {bits : List Bool} {bytes : List Byte} (h : Consumes s t bits bytes)
    (hu : t.uc = s.uc) (i : Nat) : Fills i 0 s t bits bytes (byteReads bytes) where
  source := h.source
  trace := h.trace
  requests := by simp [byteReads, List.filterMap_map, Function.comp_def]
  writes := by simp [byteReads, List.filterMap_map, Function.comp_def, writeIndex]
  responses := by simp [byteReads, List.filterMap_map, Function.comp_def]
  stream := h.stream
  canonical := h.canonical
  dst := by
    rw [h.dst]
    generalize s.dst = m
    induction bytes with
    | nil => rfl
    | cons b bytes _ => simp [byteReads, List.foldl_map, afterEvent]
  busy := h.busy
  live := h.live
  client := h.client
  detached := h.detached
  uc := hu

theorem dstWrite_fills (i : Nat) (b : Byte) (s : State) : Fills i 1 s (dstWrite i b s) [] [] [.dstWrite i b] :=
  ⟨rfl, rfl, rfl, rfl, rfl, bitsWith_nil s, id, rfl, rfl, rfl, rfl, rfl, rfl⟩

theorem Fills.trans {i n m : Nat} {s t u : State} {b1 b2 : List Bool} {y1 y2 : List Byte} {e1 e2 : List Event}
    (h1 : Fills i n s t b1 y1 e1) (h2 : Fills (i + n) m t u b2 y2 e2) :
    Fills i (n + m) s u (b1 ++ b2) (y1 ++ y2) (e1 ++ e2) where
  source := by rw [h1.source, h2.source, byteAnswers_append, List.append_assoc]
  trace := by rw [h2.trace, h1.trace, List.append_assoc]
  requests := by rw [List.filterMap_append, h1.requests, h2.requests, List.map_append]
  writes := by rw [List.filterMap_append, h1.writes, h2.writes, List.range'_append_1]
  responses := by rw [List.filterMap_append, h1.responses, h2.responses, List.append_nil]
  stream := by rw [bitsWith_append, h1.stream, List.append_assoc, ← State.bitsWith, h2.stream, List.append_assoc]
  canonical := fun h => h2.canonical (h1.canonical h)
  dst := by rw [h2.dst, h1.dst, List.foldl_append]
  busy := h2.busy.trans h1.busy
  live := h2.live.trans h1.live
  client := h2.client.trans h1.client
  detached := h2.detached.trans h1.detached
  uc := h2.uc.trans h1.uc

/-- What the byte loop can do (R102, R104). -/
theorem fillBytes_fills (n i : Nat) (s : State) :
    (∃ t bits bytes evs, fillBytes n i s = .done () t ∧ Fills i n s t bits bytes evs ∧ bits.length = 8 * n) ∨
    (∃ e u t bits bytes evs m, fillBytes n i s = .ioerr e t ∧ Fills i m s u bits bytes evs ∧ StopsAtError u t e ∧
      m < n) ∨
    (∃ left u t bits bytes evs m, fillBytes n i s = .hold (i + m, left) t ∧ Fills i m s u bits bytes evs ∧
      StopsUnanswered u t ∧ m < n ∧ 1 ≤ left ∧ left ≤ 8 ∧ bits.length + left = 8 * (m + 1) ∧
      ∃ last : List Bool, last.length + left = 8 ∧ u.acc = BitVec.ofNat 32 (natOfBits last) ∧ last <:+ bits) ∨
    (∃ k, fillBytes n i s = .refuse (.sourceContract 1 k) ∧ k ≠ 1) := by
  induction n generalizing i s with
  | zero => exact .inl ⟨s, [], [], [], rfl, (Consumes.refl s).fills rfl i, rfl⟩
  | succ n ih =>
    rw [fillBytes]
    rcases readBits_consumes 8 s with ⟨t, bits, y, h, c, l, hu⟩ | ⟨e, u, t, bits, y, h, c, st, l, hu⟩ |
      ⟨left, u, t, bits, y, h, c, st, l1, l, a, hu, f⟩ | ⟨k, h, hk⟩ <;> rw [h]
    · have c1 := (c.fills hu i).trans (dstWrite_fills i (lowByte (BitVec.ofNat 32 (natOfBits bits))) t)
      rw [List.append_nil, List.append_nil] at c1
      rcases ih (i + 1) (dstWrite i (lowByte (BitVec.ofNat 32 (natOfBits bits))) t) with
        ⟨v, b2, y2, e2, h2, c2, l2⟩ | ⟨e, u, v, b2, y2, e2, m, h2, c2, st, l2⟩ |
        ⟨left, u, v, b2, y2, e2, m, h2, c2, st, l2, l3, l4, l5, last, l6, a2, sfx⟩ | ⟨k, h2, hk⟩
      · have c3 := c1.trans c2
        rw [show 0 + 1 + n = n + 1 by omega] at c3
        exact .inl ⟨v, _, _, _, h2, c3, by rw [List.length_append]; omega⟩
      · have c3 := c1.trans c2
        rw [show 0 + 1 + m = m + 1 by omega] at c3
        exact .inr (.inl ⟨e, u, v, _, _, _, m + 1, h2, c3, st, by omega⟩)
      · have c3 := c1.trans c2
        rw [show 0 + 1 + m = m + 1 by omega] at c3
        rw [show i + 1 + m = i + (m + 1) by omega] at h2
        exact .inr (.inr (.inl ⟨left, u, v, _, _, _, m + 1, h2, c3, st, by omega, l3, l4,
          by rw [List.length_append]; omega, last, l6, a2, sfx.trans (List.suffix_append _ _)⟩))
      · exact .inr (.inr (.inr ⟨k, h2, hk⟩))
    · exact .inr (.inl ⟨e, u, t, bits, y, _, 0, rfl, c.fills hu i, st, by omega⟩)
    · exact .inr (.inr (.inl ⟨left, u, t, bits, y, _, 0, rfl, c.fills hu i, st, by omega, l1, by omega, by omega,
        bits, l, a, List.suffix_refl _⟩))
    · exact .inr (.inr (.inr ⟨k, rfl, hk⟩))

/-- What the writes of the aligned path do: one event each, at ascending indices from `i` (R101). -/
theorem dstWriteAll_eq (i : Nat) (bytes : List Byte) (s : State) :
    dstWriteAll i bytes s =
      { s with
        dst := ((bytes.zipIdx i).map fun c => (c.2, c.1)).foldl (fun m c => m.write c.1 c.2) s.dst
        trace := s.trace ++ (bytes.zipIdx i).map fun c => .dstWrite c.2 c.1 } := by
  induction bytes generalizing i s with
  | nil => simp [dstWriteAll]
  | cons b bytes ih => rw [dstWriteAll, ih]; simp [dstWrite, State.record]

end Sys2Proof.Machine
end

