-- ==== Sys2Proof/Laws/Decode.lean ====
section
/-! SUPPORT. The fields of a command word (R51), and legal operands as inequalities (R55). -/

namespace Sys2Proof

theorem wf_read (n : Nat) : (Instr.read n).wf = true ↔ 1 ≤ n ∧ n ≤ 32 :=
  decide_eq_true_iff (p := legalBits n)

theorem wf_readSigned (n : Nat) : (Instr.readSigned n).wf = true ↔ 1 ≤ n ∧ n ≤ 32 :=
  decide_eq_true_iff (p := legalBits n)

theorem wf_skip (n : Nat) : (Instr.skip n).wf = true ↔ 1 ≤ n ∧ n ≤ 32 :=
  decide_eq_true_iff (p := legalBits n)

theorem wf_readBytes (n : Nat) : (Instr.readBytes n).wf = true ↔ n < 2 ^ 24 :=
  decide_eq_true_iff (p := legalLen n)

theorem opField_eq (w : Word) : opField w = w.toNat % 8 := by
  simp [opField, BitVec.extractLsb'_toNat]

theorem rsvField_eq (w : Word) : rsvField w = w.toNat / 8 % 32 := by
  simp [rsvField, BitVec.extractLsb'_toNat, Nat.shiftRight_eq_div_pow]

theorem argField_eq (w : Word) : argField w = w.toNat / 256 := by
  have := w.isLt
  simp only [argField, BitVec.extractLsb'_toNat, Nat.shiftRight_eq_div_pow]
  omega

/-- A word is its three fields. -/
theorem toNat_eq_fields (w : Word) : w.toNat = argField w * 256 + rsvField w * 8 + opField w := by
  rw [argField_eq, rsvField_eq, opField_eq]
  omega

theorem Instr.opNumber_lt (i : Instr) : i.opNumber < 8 := by cases i <;> simp [Instr.opNumber]

theorem Instr.arg_lt {i : Instr} (h : i.wf = true) : i.arg < 2 ^ 24 := by
  cases i with
  | read n => have := (wf_read n).mp h; simp only [Instr.arg]; omega
  | readSigned n => have := (wf_readSigned n).mp h; simp only [Instr.arg]; omega
  | skip n => have := (wf_skip n).mp h; simp only [Instr.arg]; omega
  | readBytes n => exact (wf_readBytes n).mp h
  | readUnary0 => decide
  | readUnary1 => decide
  | byteAligned => decide
  | byteAlign => decide

/-- The word of a legal command as a number: `(ARG << 8) | OP` (R54). -/
theorem toNat_encode {i : Instr} (h : i.wf = true) : (encode i).toNat = i.arg * 256 + i.opNumber := by
  have h1 := i.opNumber_lt
  have h2 := Instr.arg_lt h
  rw [encode, BitVec.toNat_or, BitVec.toNat_shiftLeft, BitVec.toNat_ofNat, BitVec.toNat_ofNat,
    Nat.mod_eq_of_lt (show i.arg < 2 ^ 32 by omega), Nat.mod_eq_of_lt (show i.opNumber < 2 ^ 32 by omega),
    Nat.shiftLeft_eq, Nat.mod_eq_of_lt (show i.arg * 2 ^ 8 < 2 ^ 32 by omega), Nat.mul_comm,
    ← Nat.two_pow_add_eq_or_of_lt (show i.opNumber < 2 ^ 8 by omega)]
  omega

/-- The fields of the word of a legal command (R52, R54). -/
theorem fields_encode {i : Instr} (h : i.wf = true) :
    rsvField (encode i) = 0 ∧ opField (encode i) = i.opNumber ∧ argField (encode i) = i.arg := by
  have h1 := i.opNumber_lt
  have h2 := toNat_encode h
  rw [rsvField_eq, opField_eq, argField_eq, h2]
  omega

theorem opField_lt (w : Word) : opField w < 8 := by rw [opField_eq]; omega

theorem argField_lt (w : Word) : argField w < 2 ^ 24 := by
  have := w.isLt
  rw [argField_eq]
  omega

theorem decodeBits_eq_ok {mk : Nat → Instr} {arg : Nat} {i : Instr} :
    decodeBits mk arg = .ok i ↔ 1 ≤ arg ∧ arg ≤ 32 ∧ mk arg = i := by
  simp only [decodeBits, Config.bitsMin, Config.bitsMax]
  split
  · simp; omega
  · split
    · simp; omega
    · simp [show 1 ≤ arg by omega, show arg ≤ 32 by omega]

theorem decodeNone_eq_ok {j i : Instr} {arg : Nat} : decodeNone j arg = .ok i ↔ arg = 0 ∧ j = i := by
  unfold decodeNone
  split <;> simp [*]

/-- Everything the decoder accepts (R54, R55): a word is a command exactly when its fields are the command's and the
operand is legal. -/
theorem decode_eq_ok_iff {w : Word} {i : Instr} :
    decode w = .ok i ↔ rsvField w = 0 ∧ opField w = i.opNumber ∧ argField w = i.arg ∧ i.wf = true := by
  have h8 := opField_lt w
  have ha := argField_lt w
  unfold decode
  by_cases h0 : rsvField w = 0
  · rw [if_neg (by simpa using h0)]
    simp only [h0, true_and]
    generalize opField w = o at h8
    generalize argField w = a at ha
    interval_cases o
    · simp only [decodeBits_eq_ok]
      cases i <;> simp [Instr.opNumber, Instr.arg, wf_read]; omega
    · simp only [decodeBits_eq_ok]
      cases i <;> simp [Instr.opNumber, Instr.arg, wf_readSigned]; omega
    · simp only [decodeBits_eq_ok]
      cases i <;> simp [Instr.opNumber, Instr.arg, wf_skip]; omega
    · cases i <;> simp [Instr.opNumber, Instr.arg, wf_readBytes]; omega
    all_goals simp only [decodeNone_eq_ok]; cases i <;> simp [Instr.opNumber, Instr.arg, Instr.wf]
  · simp [h0]

/-- What it means for a word to be the command of a row (R55). -/
theorem OpcodeRow.holds_iff (r : OpcodeRow) (w : Word) :
    r.holds w = true ↔ w &&& r.mask = r.bits ∧ r.argMin ≤ argField w ∧ argField w ≤ r.argMax := by
  simp [OpcodeRow.holds, and_assoc]

end Sys2Proof
end

