-- ==== Sys2Proof/Laws/Memory.lean ====
section
/-! SUPPORT. The laws of the destination memory: read after write, and the canonical form kept by every operation. -/

namespace Sys2Proof.Machine

@[simp] theorem Memory.read_nil (i : Nat) : Memory.read [] i = none := rfl

/-- A store changes one index and no other (R42). -/
theorem Memory.read_write (m : Memory) (i j : Nat) (b : Byte) :
    (Memory.write m i b).read j = if j = i then some b else m.read j := by
  induction m with
  | nil => simp [Memory.write, Memory.read, eq_comm]
  | cons c rest ih =>
    simp only [Memory.write]
    split
    · simp [Memory.read, eq_comm]
    · split
      · next h => subst h; by_cases h : j = c.1 <;> simp [Memory.read, h, eq_comm]
      · by_cases hc : c.1 = j
        · have : ¬ j = i := by omega
          simp [Memory.read, hc, this]
        · simp [Memory.read, hc, ih]

/-- Addresses strictly rise, said of all pairs at once. -/
theorem Memory.wf_iff_pairwise (m : Memory) : m.wf = true ↔ m.Pairwise (fun c d => c.1 < d.1) := by
  induction m with
  | nil => simp [Memory.wf]
  | cons c rest ih =>
    cases rest with
    | nil => simp [Memory.wf]
    | cons d rest =>
      rw [Memory.wf, Bool.and_eq_true, ih, decide_eq_true_eq, List.pairwise_cons (l := d :: rest)]
      constructor
      · rintro ⟨h, hp⟩
        refine ⟨fun e he => ?_, hp⟩
        rcases List.mem_cons.mp he with rfl | he
        · exact h
        · exact h.trans ((List.pairwise_cons.mp hp).1 e he)
      · rintro ⟨h, hp⟩
        exact ⟨h d (by simp), hp⟩

/-- The cells after a store are those before it and the stored one. -/
theorem Memory.mem_write {m : Memory} {i : Nat} {b : Byte} {c : Host.Cell} (h : c ∈ Memory.write m i b) :
    c = (i, b) ∨ c ∈ m := by
  induction m with
  | nil => simpa [Memory.write] using h
  | cons d rest ih =>
    simp only [Memory.write] at h
    split at h
    · simpa using h
    · split at h
      · rcases List.mem_cons.mp h with h | h
        · exact .inl h
        · exact .inr (List.mem_cons_of_mem _ h)
      · rcases List.mem_cons.mp h with rfl | h
        · exact .inr (by simp)
        · exact (ih h).imp id (List.mem_cons_of_mem _)

/-- A store keeps the canonical form. -/
theorem Memory.write_wf {m : Memory} (i : Nat) (b : Byte) (h : m.wf = true) : (Memory.write m i b).wf = true := by
  rw [Memory.wf_iff_pairwise] at h ⊢
  induction m with
  | nil => simp [Memory.write]
  | cons d rest ih =>
    obtain ⟨hd, hr⟩ := List.pairwise_cons.mp h
    simp only [Memory.write]
    split
    · next hlt =>
      refine List.pairwise_cons.mpr ⟨fun e he => ?_, h⟩
      rcases List.mem_cons.mp he with rfl | he
      · exact hlt
      · exact hlt.trans (hd e he)
    · split
      · next heq => exact List.pairwise_cons.mpr ⟨fun e he => heq ▸ hd e he, hr⟩
      · next hge hne =>
        refine List.pairwise_cons.mpr ⟨fun e he => ?_, ih hr⟩
        rcases Memory.mem_write he with rfl | he
        · show d.1 < i
          omega
        · exact hd e he

theorem Memory.foldl_write_wf (cells : Memory) {m : Memory} (h : m.wf = true) :
    (cells.foldl (fun m c => Memory.write m c.1 c.2) m).wf = true := by
  induction cells generalizing m with
  | nil => exact h
  | cons c rest ih => exact ih (Memory.write_wf c.1 c.2 h)

/-- What the client attaches is put into the canonical form. -/
theorem Memory.ofCells_wf (cells : Memory) : (Memory.ofCells cells).wf = true :=
  Memory.foldl_write_wf cells rfl

/-- An index below every listed one has no value. -/
theorem Memory.read_eq_none_of_forall_lt {m : Memory} {i : Nat} (h : ∀ c ∈ m, i < c.1) : m.read i = none := by
  induction m with
  | nil => rfl
  | cons c rest ih =>
    have hc : ¬ c.1 = i := by have := h c (by simp); omega
    rw [Memory.read, if_neg hc]
    exact ih fun d hd => h d (by simp [hd])

/-- Two memories in the canonical form that read alike are equal. -/
theorem Memory.ext_of_wf {m n : Memory} (hm : m.wf = true) (hn : n.wf = true) (h : ∀ i, m.read i = n.read i) :
    m = n := by
  rw [Memory.wf_iff_pairwise] at hm hn
  induction m generalizing n with
  | nil =>
    cases n with
    | nil => rfl
    | cons d n => have := h d.1; simp [Memory.read] at this
  | cons c m ih =>
    obtain ⟨hc, hm'⟩ := List.pairwise_cons.mp hm
    cases n with
    | nil => have := h c.1; simp [Memory.read] at this
    | cons d n =>
      obtain ⟨hd, hn'⟩ := List.pairwise_cons.mp hn
      have hcd : c.1 = d.1 := by
        rcases Nat.lt_trichotomy c.1 d.1 with hlt | heq | hlt
        · have h1 := h c.1
          rw [Memory.read, if_pos rfl, Memory.read_eq_none_of_forall_lt] at h1
          · simp at h1
          · intro e he
            rcases List.mem_cons.mp he with rfl | he
            · exact hlt
            · exact hlt.trans (hd e he)
        · exact heq
        · have h1 := h d.1
          rw [Memory.read_eq_none_of_forall_lt] at h1
          · simp [Memory.read] at h1
          · intro e he
            rcases List.mem_cons.mp he with rfl | he
            · exact hlt
            · exact hlt.trans (hc e he)
      have hv : c.2 = d.2 := by
        have h1 := h c.1
        simpa [Memory.read, hcd] using h1
      have : m = n := by
        refine ih hm' hn' fun i => ?_
        by_cases hi : c.1 = i
        · rw [Memory.read_eq_none_of_forall_lt, Memory.read_eq_none_of_forall_lt]
          · intro e he; have := hd e he; omega
          · intro e he; have := hc e he; omega
        · have h1 := h i
          simpa [Memory.read, hi, ← hcd] using h1
      rw [this, Prod.ext hcd hv]

end Sys2Proof.Machine
end

