-- ==== Sys2Proof/Laws/Exec.lean ====
section
/-! SUPPORT. Everything each command can come to, from any state, in the terms of Consume.lean; and the reading of the
destination after the writes of the aligned path. -/

namespace Sys2Proof.Machine

/-- READ, READ_SIGNED and SKIP, from their start. -/
theorem runExtract_cases (op : Extract) {n : Nat} (hn : legalBits n) (s : State) :
    (∃ u bits bytes, runExtract op n s = .next (respond (.ok (op.value n (BitVec.ofNat 32 (natOfBits bits)))) u) ∧
      Consumes s u bits bytes ∧ bits.length = n ∧ u.uc = s.uc) ∨
    (∃ e u v bits bytes, runExtract op n s = .next (raiseIOError e v) ∧ Consumes s u bits bytes ∧
      StopsAtError u v e ∧ bits.length < n ∧ u.uc = s.uc) ∨
    (∃ left u v bits bytes, runExtract op n s = .next (holdOn (.extract op n left) v) ∧ Consumes s u bits bytes ∧
      StopsUnanswered u v ∧ 1 ≤ left ∧ bits.length + left = n ∧ u.acc = BitVec.ofNat 32 (natOfBits bits) ∧
      u.uc = s.uc) ∨
    (∃ k, runExtract op n s = .refused (.sourceContract 1 k) ∧ k ≠ 1) := by
  rw [runExtract, if_pos hn]
  rcases readBits_consumes n s with ⟨u, bits, y, h, c, l, hu⟩ | ⟨e, u, v, bits, y, h, c, st, l, hu⟩ |
    ⟨left, u, v, bits, y, h, c, st, l1, l, a, hu, _⟩ | ⟨k, h, hk⟩ <;> rw [h]
  · exact .inl ⟨u, bits, y, rfl, c, l, hu⟩
  · exact .inr (.inl ⟨e, u, v, bits, y, rfl, c, st, l, hu⟩)
  · exact .inr (.inr (.inl ⟨left, u, v, bits, y, rfl, c, st, l1, l, a, hu⟩))
  · exact .inr (.inr (.inr ⟨k, rfl, hk⟩))

/-- READ, READ_SIGNED and SKIP, taken up again. -/
theorem resumeExtract_cases (op : Extract) (n left : Nat) (s : State) :
    (∃ u bits bytes, resumeExtract op n left s = .next (respond (.ok (op.value n (bits.foldl shiftInBit s.acc))) u) ∧
      Consumes s u bits bytes ∧ bits.length = left ∧ u.uc = s.uc) ∨
    (∃ e u v bits bytes, resumeExtract op n left s = .next (raiseIOError e v) ∧ Consumes s u bits bytes ∧
      StopsAtError u v e ∧ bits.length < left ∧ u.uc = s.uc) ∨
    (∃ left' u v bits bytes, resumeExtract op n left s = .next (holdOn (.extract op n left') v) ∧
      Consumes s u bits bytes ∧ StopsUnanswered u v ∧ 1 ≤ left' ∧ bits.length + left' = left ∧
      u.acc = bits.foldl shiftInBit s.acc ∧ u.uc = s.uc) ∨
    (∃ k, resumeExtract op n left s = .refused (.sourceContract 1 k) ∧ k ≠ 1) := by
  rw [resumeExtract]
  rcases resumeBits_consumes left s with ⟨u, bits, y, h, c, l, hu⟩ | ⟨e, u, v, bits, y, h, c, st, l, hu⟩ |
    ⟨left', u, v, bits, y, h, c, st, l1, l, a, hu, _⟩ | ⟨k, h, hk⟩ <;> rw [h]
  · exact .inl ⟨u, bits, y, rfl, c, l, hu⟩
  · exact .inr (.inl ⟨e, u, v, bits, y, rfl, c, st, l, hu⟩)
  · exact .inr (.inr (.inl ⟨left', u, v, bits, y, rfl, c, st, l1, l, a, hu⟩))
  · exact .inr (.inr (.inr ⟨k, rfl, hk⟩))

/-- Aligned READ_BYTES, from its start or taken up again (R101, R103, R106). -/
theorem bulkRead_cases (len : Nat) (s : State) :
    (len = 0 ∧ bulkRead len s = .next (respond (.ok 0) (s.record (.srcRead 0 (.ok []))))) ∨
    (len ≠ 0 ∧ ∃ bytes rest, s.source = .answers (.ok bytes) :: rest ∧ bytes.length = len ∧
      bulkRead len s = .next (respond (.ok 0)
        (dstWriteAll 0 bytes ({ s with source := rest }.record (.srcRead len (.ok bytes)))))) ∨
    (len ≠ 0 ∧ ∃ e rest, s.source = .answers (.err e) :: rest ∧
      bulkRead len s = .next (raiseIOError e ({ s with source := rest }.record (.srcRead len (.err e))))) ∨
    (len ≠ 0 ∧ s.source = [] ∧ bulkRead len s = .next (holdOn (.bulk len) s)) ∨
    (len ≠ 0 ∧ ∃ rest, s.source = .delays :: rest ∧
      bulkRead len s = .next (holdOn (.bulk len) { s with source := rest })) ∨
    (len ≠ 0 ∧ ∃ k, bulkRead len s = .refused (.sourceContract len k) ∧ k ≠ len) := by
  by_cases h0 : len = 0
  · subst h0
    exact .inl ⟨rfl, by rw [bulkRead, srcRead_zero]; rfl⟩
  · refine .inr ?_
    rcases hs : s.source with _ | ⟨⟨bytes | e⟩ | _, rest⟩
    · exact .inr (.inr (.inl ⟨h0, rfl, by rw [bulkRead, srcRead_unanswered h0 hs]⟩))
    · by_cases hl : bytes.length = len
      · exact .inl ⟨h0, bytes, rest, rfl, hl, by rw [bulkRead, srcRead_ok h0 hs hl]⟩
      · exact .inr (.inr (.inr (.inr ⟨h0, bytes.length, by simp [bulkRead, srcRead, h0, hs, hl], hl⟩)))
    · exact .inr (.inl ⟨h0, e, rest, rfl, by rw [bulkRead, srcRead_err h0 hs]⟩)
    · exact .inr (.inr (.inr (.inl ⟨h0, rest, rfl, by rw [bulkRead, srcRead_delayed h0 hs]⟩)))

/-- Unaligned READ_BYTES, from byte `i` on with `n` bytes to go (R102, R104). -/
theorem finishBytes_cases (len n i : Nat) (s : State) :
    (∃ u bits bytes evs, finishBytes len (fillBytes n i s) = .next (respond (.ok 0) u) ∧ Fills i n s u bits bytes evs ∧
      bits.length = 8 * n) ∨
    (∃ e u v bits bytes evs m, finishBytes len (fillBytes n i s) = .next (raiseIOError e v) ∧
      Fills i m s u bits bytes evs ∧ StopsAtError u v e ∧ m < n) ∨
    (∃ left u v bits bytes evs m, finishBytes len (fillBytes n i s) = .next (holdOn (.assemble len (i + m) left) v) ∧
      Fills i m s u bits bytes evs ∧ StopsUnanswered u v ∧ m < n ∧ 1 ≤ left ∧ left ≤ 8 ∧
      bits.length + left = 8 * (m + 1) ∧
      ∃ last : List Bool, last.length + left = 8 ∧ u.acc = BitVec.ofNat 32 (natOfBits last) ∧ last <:+ bits) ∨
    (∃ k, finishBytes len (fillBytes n i s) = .refused (.sourceContract 1 k) ∧ k ≠ 1) := by
  rcases fillBytes_fills n i s with ⟨u, bits, y, evs, h, c, l⟩ | ⟨e, u, v, bits, y, evs, m, h, c, st, l⟩ |
    ⟨left, u, v, bits, y, evs, m, h, r⟩ | ⟨k, h, hk⟩ <;> rw [h]
  · exact .inl ⟨u, bits, y, evs, rfl, c, l⟩
  · exact .inr (.inl ⟨e, u, v, bits, y, evs, m, rfl, c, st, l⟩)
  · exact .inr (.inr (.inl ⟨left, u, v, bits, y, evs, m, rfl, r⟩))
  · exact .inr (.inr (.inr ⟨k, rfl, hk⟩))

/-- A unary read, from the count it has reached (R110 to R114). -/
theorem resumeUnary_cases (stop : Bool) (s : State) :
    (∃ u c bytes, resumeUnary stop s = .next (respond (.ok (s.uc + BitVec.ofNat 32 c)) u) ∧
      Consumes s u (List.replicate c (!stop) ++ [stop]) bytes ∧ s.uc.toNat + c < 2 ^ 32) ∨
    (∃ e u v c bytes, resumeUnary stop s = .next (raiseIOError e v) ∧
      Consumes s u (List.replicate c (!stop)) bytes ∧ StopsAtError u v e ∧ s.uc.toNat + c < 2 ^ 32) ∨
    (∃ u v c bytes, resumeUnary stop s = .next (holdOn (.unary stop) v) ∧
      Consumes s u (List.replicate c (!stop)) bytes ∧ StopsUnanswered u v ∧ s.uc.toNat + c < 2 ^ 32 ∧
      u.uc = s.uc + BitVec.ofNat 32 c ∧ u.acc = 0) ∨
    (∃ k, resumeUnary stop s = .refused (.sourceContract 1 k) ∧ k ≠ 1) ∨
    (resumeUnary stop s = .refused .unaryOverflow ∧
      ∃ t bytes, Consumes s t (List.replicate (2 ^ 32 - s.uc.toNat) (!stop)) bytes) := by
  rw [resumeUnary]
  rcases unaryLoop_consumes stop (bitsAhead s + 1) s (Nat.lt_succ_self _) with ⟨t, c, y, h, k, l, hu⟩ |
    ⟨e, u, v, c, y, h, k, st, l⟩ | ⟨u, v, c, y, h, r⟩ | ⟨k, h, hk⟩ | ⟨h, r⟩ <;> rw [h]
  · refine .inl ⟨t.freeUc, c, y, by rw [finishUnary, hu], ?_, l⟩
    exact k.work s.acc t.acc s.uc (Config.freeWord t.fresh) s.fresh (t.fresh + 1)
  · obtain ⟨h0, rest, hs, rfl⟩ := st
    exact .inr (.inl ⟨e, u.freeUc, _, c, y, rfl,
      k.work s.acc u.acc s.uc (Config.freeWord u.fresh) s.fresh (u.fresh + 1), ⟨h0, rest, hs, rfl⟩, l⟩)
  · exact .inr (.inr (.inl ⟨u, v, c, y, rfl, r⟩))
  · exact .inr (.inr (.inr (.inl ⟨k, rfl, hk⟩)))
  · exact .inr (.inr (.inr (.inr ⟨rfl, r⟩)))

/-- The destination after ascending writes from `i` (R42, R101). -/
theorem read_dstWriteAll (i : Nat) (bytes : List Byte) (s : State) (j : Nat) :
    (dstWriteAll i bytes s).dst.read j =
      if i ≤ j ∧ j < i + bytes.length then bytes[j - i]? else s.dst.read j := by
  induction bytes generalizing i s with
  | nil => rw [dstWriteAll, if_neg (by simp)]
  | cons b bytes ih =>
    rw [dstWriteAll, ih]
    have hd : (dstWrite i b s).dst = s.dst.write i b := rfl
    rw [hd, Memory.read_write, List.length_cons]
    by_cases h : j = i
    · subst h
      rw [if_neg (by omega), if_pos rfl, if_pos (by omega), Nat.sub_self]
      rfl
    · rw [if_neg h]
      by_cases h1 : i + 1 ≤ j ∧ j < i + 1 + bytes.length
      · rw [if_pos h1, if_pos (by omega), show j - i = (j - (i + 1)) + 1 by omega]
        rfl
      · rw [if_neg h1, if_neg (by omega)]

end Sys2Proof.Machine
end

