-- ==== Sys2Proof/Laws/Ends.lean ====
section
/-! SUPPORT. How every command ends, said once for all of them: with OK, with IOERR, or held; and what has happened at
the ports and in the state by then. -/

namespace Sys2Proof.Machine

/-- From `s` to `u` the command `i` has done `evs` and nothing else that can be seen. -/
structure Effects (i : Instr) (s u : State) (evs : List Event) : Prop where
  trace : u.trace = s.trace ++ evs
  noResponse : ∀ r, Event.respond r ∉ evs
  noError : ∀ n e, Event.srcRead n (.err e) ∉ evs
  requests : ∀ n a, Event.srcRead n a ∈ evs →
    (n = 1 ∨ i = .readBytes n ∧ s.aligned = true) ∧ ∀ bytes, a = .ok bytes → bytes.length = n
  writes : ∃ m, evs.filterMap writeIndex = List.range m ∧ (m = 0 ∨ ∃ len, i = .readBytes len ∧ m ≤ len)
  dst : u.dst = evs.foldl afterEvent s.dst
  client : u.client = s.client
  live : u.live = s.live
  detached : u.detached = s.detached
  source : u.source <:+ s.source
  uc : i ≠ .readUnary0 → i ≠ .readUnary1 → u.uc = s.uc
  acc : (i = .byteAligned ∨ i = .byteAlign ∨ ∃ len, i = .readBytes len ∧ s.aligned = true) → u.acc = s.acc

/-- The three ends of a command that is not refused. -/
inductive Ending (i : Instr) (s t : State) : Prop where
  /-- Status OK. -/
  | ok (u : State) (evs : List Event) (v : Word) (h : Effects i s u evs) (ht : t = respond (.ok v) u)
  /-- Status IOERR: a request of a legal shape was answered with an error. -/
  | err (u : State) (evs : List Event) (n : Nat) (e : Err) (rest : List SrcMove) (h : Effects i s u evs)
    (hn : n = 1 ∨ i = .readBytes n ∧ s.aligned = true) (hs : u.source = .answers (.err e) :: rest) (hc : u.cnt = 0)
    (ht : t = raiseIOError e { u with source := rest, trace := u.trace ++ [.srcRead n (.err e)] })
  /-- Held. -/
  | hold (u : State) (evs : List Event) (k : Task) (src : List SrcMove) (h : Effects i s u evs)
    (hs : src <:+ u.source) (hc : u.cnt = 0) (ht : t = holdOn k { u with source := src })

theorem next_inj {t u : State} (h : (.next t : Host.Outcome State Fault Refusal) = .next u) : t = u := by
  cases h
  rfl

theorem mem_of_requests {evs : List Event} {bytes : List Byte}
    (h : evs.filterMap Event.request = bytes.map fun b => (1, .ok [b])) {n : Nat} {a : SrcAnswer}
    (hm : Event.srcRead n a ∈ evs) : n = 1 ∧ ∃ b, a = .ok [b] := by
  have h1 : (n, a) ∈ evs.filterMap Event.request := List.mem_filterMap.mpr ⟨_, hm, rfl⟩
  rw [h] at h1
  obtain ⟨b, _, hb⟩ := List.mem_map.mp h1
  cases hb
  exact ⟨rfl, b, rfl⟩

theorem Effects.refl (i : Instr) (s : State) : Effects i s s [] where
  trace := by simp
  noResponse := by simp
  noError := by simp
  requests := by simp
  writes := ⟨0, rfl, .inl rfl⟩
  dst := rfl
  client := rfl
  live := rfl
  detached := rfl
  source := List.suffix_refl _
  uc := fun _ _ => rfl
  acc := fun _ => rfl

/-- The byte loop's effects. -/
theorem Fills.effects {len m : Nat} {s u : State} {bits : List Bool} {bytes : List Byte} {evs : List Event}
    (c : Fills 0 m s u bits bytes evs) (hm : m ≤ len) (ha : s.aligned = false) : Effects (.readBytes len) s u evs where
  trace := c.trace
  noResponse := by
    intro r hr
    have h : r ∈ evs.filterMap Event.response := List.mem_filterMap.mpr ⟨_, hr, rfl⟩
    rw [c.responses] at h
    cases h
  noError := by
    intro n e he
    obtain ⟨_, b, hb⟩ := mem_of_requests c.requests he
    cases hb
  requests := by
    intro n a h
    obtain ⟨rfl, b, rfl⟩ := mem_of_requests c.requests h
    exact ⟨.inl rfl, fun _ h => by cases h; rfl⟩
  writes := ⟨m, by rw [c.writes, List.range_eq_range'], .inr ⟨len, rfl, hm⟩⟩
  dst := c.dst
  client := c.client
  live := c.live
  detached := c.detached
  source := by rw [c.source]; exact List.suffix_append ..
  uc := fun _ _ => c.uc
  acc := by simp [ha]

/-- The effects of a run of bits, for a command that writes no destination. -/
theorem Consumes.effects {i : Instr} {s u : State} {bits : List Bool} {bytes : List Byte} (c : Consumes s u bits bytes)
    (hu : i ≠ .readUnary0 → i ≠ .readUnary1 → u.uc = s.uc) (h1 : i ≠ .byteAligned) (h2 : i ≠ .byteAlign)
    (h3 : ∀ len, i ≠ .readBytes len) : Effects i s u (byteReads bytes) where
  trace := c.trace
  noResponse := by simp [byteReads]
  noError := by simp [byteReads]
  requests := by
    intro n a h
    simp only [byteReads, List.mem_map] at h
    obtain ⟨b, _, hb⟩ := h
    cases hb
    exact ⟨.inl rfl, fun _ h => by cases h; rfl⟩
  writes := ⟨0, by simp [byteReads, List.filterMap_map, Function.comp_def, writeIndex], .inl rfl⟩
  dst := by
    rw [c.dst]
    generalize s.dst = m
    induction bytes with
    | nil => rfl
    | cons b bytes _ => simp [byteReads, List.foldl_map, afterEvent]
  client := c.client
  live := c.live
  detached := c.detached
  source := by rw [c.source]; exact List.suffix_append ..
  uc := hu
  acc := by rintro (h | h | ⟨len, h, _⟩) <;> exact absurd h (by first | assumption | exact h3 len)

theorem foldl_afterEvent_writes (i : Nat) (bytes : List Byte) (m : Memory) :
    ((bytes.zipIdx i).map fun c => Event.dstWrite c.2 c.1).foldl afterEvent m =
      ((bytes.zipIdx i).map fun c => (c.2, c.1)).foldl (fun m c => m.write c.1 c.2) m := by
  induction bytes generalizing i m with
  | nil => rfl
  | cons b bytes ih =>
    simp only [List.zipIdx_cons, List.map_cons, List.foldl_cons]
    exact ih _ _

/-- The effects of the aligned path (R101). -/
theorem bulk_effects {s : State} {bytes : List Byte} {rest : List SrcMove} (h : s.source = .answers (.ok bytes) :: rest)
    (ha : s.aligned = true) :
    Effects (.readBytes bytes.length) s
      (dstWriteAll 0 bytes ({ s with source := rest }.record (.srcRead bytes.length (.ok bytes))))
      (.srcRead bytes.length (.ok bytes) :: (bytes.zipIdx 0).map fun c => .dstWrite c.2 c.1) := by
  rw [dstWriteAll_eq]
  constructor
  · simp
  · simp
  · simp
  · intro n a hm
    simp only [List.mem_cons, List.mem_map] at hm
    rcases hm with hm | ⟨_, _, hm⟩
    · cases hm
      exact ⟨.inr ⟨rfl, ha⟩, fun _ h => by cases h; rfl⟩
    · cases hm
  · refine ⟨bytes.length, ?_, .inr ⟨_, rfl, le_refl _⟩⟩
    simp [List.filterMap_cons, writeIndex, List.filterMap_map, Function.comp_def, List.range_eq_range']
  · exact (foldl_afterEvent_writes 0 bytes s.dst).symm
  all_goals simp [h]

theorem ending_of_error {i : Instr} {s u v : State} {e : Err} {evs : List Event} (he : Effects i s u evs)
    (st : StopsAtError u v e) : Ending i s (raiseIOError e v) := by
  obtain ⟨h0, rest, hs, rfl⟩ := st
  exact .err u evs 1 e rest he (.inl rfl) hs h0 rfl

theorem ending_of_hold {i : Instr} {s u v : State} {k : Task} {evs : List Event} (he : Effects i s u evs)
    (st : StopsUnanswered u v) : Ending i s (holdOn k v) := by
  obtain ⟨h0, ⟨hs, rfl⟩ | ⟨rest, hs, rfl⟩⟩ := st
  · exact .hold _ evs k [] he (by simp) h0 (by rw [← hs])
  · exact .hold _ evs k rest he (by simp [hs]) h0 rfl

theorem runExtract_ends {i : Instr} (op : Extract) {n : Nat} {s t : State} (h1 : i ≠ .byteAligned) (h2 : i ≠ .byteAlign)
    (h3 : ∀ len, i ≠ .readBytes len) (h : runExtract op n s = .next t) : Ending i s t := by
  by_cases hn : legalBits n
  · rcases runExtract_cases op hn s with ⟨u, bits, y, h', c, l, hu⟩ | ⟨e, u, w, bits, y, h', c, st, l, hu⟩ |
      ⟨left, u, w, bits, y, h', c, st, l1, l, a, hu⟩ | ⟨k, h', hk⟩ <;> rw [h'] at h
    · exact .ok u _ _ (c.effects (fun _ _ => hu) h1 h2 h3) (next_inj h).symm
    · exact next_inj h ▸ ending_of_error (c.effects (fun _ _ => hu) h1 h2 h3) st
    · exact next_inj h ▸ ending_of_hold (c.effects (fun _ _ => hu) h1 h2 h3) st
    · cases h
  · rw [runExtract, if_neg hn] at h
    cases h

theorem runUnary_ends {i : Instr} (stop : Bool) {s t : State} (hi : i = .readUnary0 ∨ i = .readUnary1)
    (h : runUnary stop s = .next t) : Ending i s t := by
  have hw : ∀ {u bits y}, Consumes { s with uc := 0 } u bits y → Effects i s u (byteReads y) := fun {u bits y} c => by
    have c1 : Consumes s u bits y := c.work s.acc u.acc s.uc u.uc s.fresh u.fresh
    rcases hi with rfl | rfl <;> exact c1.effects (by simp) (by simp) (by simp) (by simp)
  rw [runUnary] at h
  rcases resumeUnary_cases stop { s with uc := 0 } with ⟨u, c, y, h', k, l⟩ | ⟨e, u, v, c, y, h', k, st, l⟩ |
    ⟨u, v, c, y, h', k, st, l⟩ | ⟨k, h', hk⟩ | ⟨h', _⟩ <;> rw [h'] at h
  · exact .ok u _ _ (hw k) (next_inj h).symm
  · exact next_inj h ▸ ending_of_error (hw k) st
  · exact next_inj h ▸ ending_of_hold (hw k) st
  · cases h
  · cases h

theorem execReadBytes_ends {len : Nat} {s t : State} (h : execReadBytes len s = .next t) :
    Ending (.readBytes len) s t := by
  rw [execReadBytes] at h
  split at h
  · split at h
    · next ha =>
      have h0 : s.cnt = 0 := (aligned_iff s).mp ha
      rcases bulkRead_cases len s with ⟨rfl, h'⟩ | ⟨_, bytes, rest, hs, rfl, h'⟩ | ⟨_, e, rest, hs, h'⟩ |
        ⟨_, hs, h'⟩ | ⟨_, rest, hs, h'⟩ | ⟨_, k, h', _⟩ <;> rw [h'] at h
      · refine .ok _ [.srcRead 0 (.ok [])] _ ?_ (next_inj h).symm
        have r := Effects.refl (.readBytes 0) s
        exact
          { r with
            trace := rfl
            noResponse := by simp
            noError := by simp
            requests := fun n a hm => by
              simp only [List.mem_singleton] at hm
              cases hm
              exact ⟨.inr ⟨rfl, ha⟩, fun _ h => by cases h; rfl⟩
            writes := ⟨0, rfl, .inl rfl⟩ }
      · exact .ok _ _ _ (bulk_effects hs ha) (next_inj h).symm
      · exact next_inj h ▸ .err s [] len e rest (.refl _ s) (.inr ⟨rfl, ha⟩) hs h0 rfl
      · exact next_inj h ▸ .hold s [] _ [] (.refl _ s) (by simp) h0 (by rw [← hs])
      · exact next_inj h ▸ .hold s [] _ rest (.refl _ s) (by simp [hs]) h0 rfl
      · cases h
    · next ha =>
      have ha : s.aligned = false := Bool.eq_false_iff.mpr ha
      rcases finishBytes_cases len len 0 s with ⟨u, bits, y, evs, h', c, l⟩ | ⟨e, u, v, bits, y, evs, m, h', c, st, l⟩ |
        ⟨left, u, v, bits, y, evs, m, h', c, st, l, _⟩ | ⟨k, h', hk⟩ <;> rw [h'] at h
      · exact .ok u _ _ (c.effects (le_refl _) ha) (next_inj h).symm
      · exact next_inj h ▸ ending_of_error (c.effects l.le ha) st
      · exact next_inj h ▸ ending_of_hold (c.effects l.le ha) st
      · cases h
  · cases h

/-- Every command that is not refused ends in one of the three ways. -/
theorem exec_ends {i : Instr} {s t : State} (h : exec i s = .next t) : Ending i s t := by
  cases i with
  | read n => exact runExtract_ends .read (by simp) (by simp) (by simp) h
  | readSigned n => exact runExtract_ends .readSigned (by simp) (by simp) (by simp) h
  | skip n => exact runExtract_ends .skip (by simp) (by simp) (by simp) h
  | readBytes len => exact execReadBytes_ends h
  | readUnary0 => exact runUnary_ends false (.inl rfl) h
  | readUnary1 => exact runUnary_ends true (.inr rfl) h
  | byteAligned => exact .ok s [] _ (.refl _ s) (next_inj h).symm
  | byteAlign =>
    have r := Effects.refl .byteAlign s
    exact .ok (clearBuffer s) [] _ { r with trace := r.trace } (next_inj h).symm

end Sys2Proof.Machine
end

