-- ==== Sys2Proof/Laws/PerInstr.lean ====
section
/-! SUPPORT. Facts about every command as syntax, one lemma per constructor. -/

namespace Sys2Proof.Laws.WordFields

/-- The word of a legal command carries 0 in RSV, the operation number in OP and the operand in ARG (R51, R54). -/
def Statement (i : Instr) : Prop :=
  i.wf = true → rsvField (encode i) = 0 ∧ opField (encode i) = i.opNumber ∧ argField (encode i) = i.arg

theorem read (n : Nat) : Statement (.read n) := fields_encode
theorem readSigned (n : Nat) : Statement (.readSigned n) := fields_encode
theorem skip (n : Nat) : Statement (.skip n) := fields_encode
theorem readBytes (n : Nat) : Statement (.readBytes n) := fields_encode
theorem readUnary0 : Statement .readUnary0 := fields_encode
theorem readUnary1 : Statement .readUnary1 := fields_encode
theorem byteAligned : Statement .byteAligned := fields_encode
theorem byteAlign : Statement .byteAlign := fields_encode

end Sys2Proof.Laws.WordFields
end

