-- ==== Sys2Proof/Laws/Resume.lean ====
section
/-! SUPPORT. What a held command leaves alone when it goes on, said once for every task; and what a response and a hold do
to the ports. -/

namespace Sys2Proof.Machine

/-- From `s` to `t` a command has gone on: the client's moves, the instance and the buffers put away are as before, turns
of the source are used up in order, and the record has grown. -/
structure Grows (s t : State) : Prop where
  client : t.client = s.client
  live : t.live = s.live
  detached : t.detached = s.detached
  source : t.source <:+ s.source
  trace : s.trace <+: t.trace

theorem Grows.refl (s : State) : Grows s s := ⟨rfl, rfl, rfl, List.suffix_refl _, List.prefix_refl _⟩

theorem Grows.trans {s t u : State} (h1 : Grows s t) (h2 : Grows t u) : Grows s u :=
  ⟨h2.client.trans h1.client, h2.live.trans h1.live, h2.detached.trans h1.detached, h2.source.trans h1.source,
    h1.trace.trans h2.trace⟩

theorem Consumes.grows {s t : State} {bits : List Bool} {bytes : List Byte} (c : Consumes s t bits bytes) : Grows s t :=
  ⟨c.client, c.live, c.detached, ⟨_, c.source.symm⟩, ⟨_, c.trace.symm⟩⟩

theorem Fills.grows {i n : Nat} {s t : State} {bits : List Bool} {bytes : List Byte} {evs : List Event}
    (c : Fills i n s t bits bytes evs) : Grows s t :=
  ⟨c.client, c.live, c.detached, ⟨_, c.source.symm⟩, ⟨_, c.trace.symm⟩⟩

theorem StopsAtError.grows {u t : State} {e : Err} (h : StopsAtError u t e) : Grows u t := by
  obtain ⟨_, rest, hs, rfl⟩ := h
  exact ⟨rfl, rfl, rfl, ⟨[_], hs.symm⟩, ⟨_, rfl⟩⟩

theorem StopsUnanswered.grows {u t : State} (h : StopsUnanswered u t) : Grows u t := by
  obtain ⟨_, ⟨_, rfl⟩ | ⟨rest, hs, rfl⟩⟩ := h
  · exact .refl _
  · exact ⟨rfl, rfl, rfl, ⟨[_], hs.symm⟩, List.prefix_refl _⟩

theorem grows_respond (r : Response) (s : State) : Grows s (respond r s) :=
  ⟨rfl, rfl, rfl, List.suffix_refl _, ⟨_, rfl⟩⟩

theorem grows_raiseIOError (e : Err) (s : State) : Grows s (raiseIOError e s) := grows_respond _ _

theorem grows_holdOn (k : Task) (s : State) : Grows s (holdOn k s) :=
  ⟨rfl, rfl, rfl, List.suffix_refl _, List.prefix_refl _⟩

theorem grows_dstWrite (i : Nat) (b : Byte) (s : State) : Grows s (dstWrite i b s) :=
  ⟨rfl, rfl, rfl, List.suffix_refl _, ⟨_, rfl⟩⟩

theorem grows_srcRead {s : State} {n : Nat} {a : SrcAnswer} {rest : List SrcMove} (hs : s.source = .answers a :: rest) :
    Grows s ({ s with source := rest }.record (.srcRead n a)) :=
  ⟨rfl, rfl, rfl, ⟨[_], hs.symm⟩, ⟨_, rfl⟩⟩

theorem grows_dstWriteAll (i : Nat) (bytes : List Byte) (s : State) : Grows s (dstWriteAll i bytes s) := by
  rw [dstWriteAll_eq]
  exact ⟨rfl, rfl, rfl, List.suffix_refl _, ⟨_, rfl⟩⟩

theorem bulkRead_grows {len : Nat} {s t : State} (h : bulkRead len s = .next t) : Grows s t := by
  rcases bulkRead_cases len s with ⟨_, h'⟩ | ⟨_, bytes, rest, hs, _, h'⟩ | ⟨_, e, rest, hs, h'⟩ | ⟨_, _, h'⟩ |
    ⟨_, rest, hs, h'⟩ | ⟨_, k, h', _⟩ <;> rw [h'] at h <;> cases h
  · exact ⟨rfl, rfl, rfl, List.suffix_refl _, ⟨_, (List.append_assoc ..).symm⟩⟩
  · exact ((grows_srcRead hs).trans (grows_dstWriteAll ..)).trans (grows_respond ..)
  · exact (grows_srcRead hs).trans (grows_raiseIOError ..)
  · exact grows_holdOn ..
  · exact ⟨rfl, rfl, rfl, ⟨[_], hs.symm⟩, List.prefix_refl _⟩

theorem finishBytes_grows {len n i : Nat} {s t : State} (h : finishBytes len (fillBytes n i s) = .next t) :
    Grows s t := by
  rcases finishBytes_cases len n i s with ⟨u, _, _, _, h', c, _⟩ | ⟨e, u, v, _, _, _, m, h', c, st, _⟩ |
    ⟨left, u, v, _, _, _, m, h', c, st, _⟩ | ⟨k, h', _⟩ <;> rw [h'] at h <;> cases h
  · exact c.grows.trans (grows_respond ..)
  · exact (c.grows.trans st.grows).trans (grows_raiseIOError ..)
  · exact (c.grows.trans st.grows).trans (grows_holdOn ..)

theorem resumeExtract_grows {op : Extract} {n left : Nat} {s t : State} (h : resumeExtract op n left s = .next t) :
    Grows s t := by
  rcases resumeExtract_cases op n left s with ⟨u, _, _, h', c, _⟩ | ⟨e, u, v, _, _, h', c, st, _⟩ |
    ⟨left', u, v, _, _, h', c, st, _⟩ | ⟨k, h', _⟩ <;> rw [h'] at h <;> cases h
  · exact c.grows.trans (grows_respond ..)
  · exact (c.grows.trans st.grows).trans (grows_raiseIOError ..)
  · exact (c.grows.trans st.grows).trans (grows_holdOn ..)

theorem resumeUnary_grows {stop : Bool} {s t : State} (h : resumeUnary stop s = .next t) : Grows s t := by
  rcases resumeUnary_cases stop s with ⟨u, _, _, h', c, _⟩ | ⟨e, u, v, _, _, h', c, st, _⟩ |
    ⟨u, v, _, _, h', c, st, _⟩ | ⟨k, h', _⟩ | ⟨h', _⟩ <;> rw [h'] at h <;> cases h
  · exact c.grows.trans (grows_respond ..)
  · exact (c.grows.trans st.grows).trans (grows_raiseIOError ..)
  · exact (c.grows.trans st.grows).trans (grows_holdOn ..)

/-- Unaligned READ_BYTES, taken up again at byte `i`: the byte is completed and written and the byte loop goes on, or the
request fails or waits before that (R102, R104). -/
theorem resumeAssemble_cases (len i left : Nat) (s : State) :
    (∃ u b bits bytes, resumeAssemble len i left s =
        finishBytes len (fillBytes (len - (i + 1)) (i + 1) (dstWrite i b u)) ∧
      Consumes s u bits bytes ∧ bits.length = left) ∨
    (∃ e u v bits bytes, resumeAssemble len i left s = .next (raiseIOError e v) ∧ Consumes s u bits bytes ∧
      StopsAtError u v e ∧ bits.length < left) ∨
    (∃ left' u v bits bytes, resumeAssemble len i left s = .next (holdOn (.assemble len i left') v) ∧
      Consumes s u bits bytes ∧ StopsUnanswered u v ∧ 1 ≤ left' ∧ bits.length + left' = left) ∨
    (∃ k, resumeAssemble len i left s = .refused (.sourceContract 1 k) ∧ k ≠ 1) := by
  rw [resumeAssemble]
  rcases resumeBits_consumes left s with ⟨u, bits, y, h, c, l, _⟩ | ⟨e, u, v, bits, y, h, c, st, l, _⟩ |
    ⟨left', u, v, bits, y, h, c, st, l1, l, _⟩ | ⟨k, h, hk⟩ <;> rw [h]
  · exact .inl ⟨u, _, bits, y, rfl, c, l⟩
  · exact .inr (.inl ⟨e, u, v, bits, y, rfl, c, st, l⟩)
  · exact .inr (.inr (.inl ⟨left', u, v, bits, y, rfl, c, st, l1, l⟩))
  · exact .inr (.inr (.inr ⟨k, rfl, hk⟩))

theorem resumeAssemble_grows {len i left : Nat} {s t : State} (h : resumeAssemble len i left s = .next t) :
    Grows s t := by
  rcases resumeAssemble_cases len i left s with ⟨u, b, _, _, h', c, _⟩ | ⟨e, u, v, _, _, h', c, st, _⟩ |
    ⟨left', u, v, _, _, h', c, st, _⟩ | ⟨k, h', _⟩ <;> rw [h'] at h
  · exact (c.grows.trans (grows_dstWrite i b u)).trans (finishBytes_grows h)
  · cases h
    exact (c.grows.trans st.grows).trans (grows_raiseIOError ..)
  · cases h
    exact (c.grows.trans st.grows).trans (grows_holdOn ..)
  · cases h

/-- Every held command leaves these alone when it goes on. -/
theorem resumeTask_grows {k : Task} {s t : State} (h : resumeTask k s = .next t) : Grows s t := by
  cases k with
  | extract op n left => exact resumeExtract_grows h
  | bulk len => exact bulkRead_grows h
  | assemble len i left => exact resumeAssemble_grows h
  | unary stop => exact resumeUnary_grows h

/-! The ports. -/

@[simp] theorem responses_respond (r : Response) (s : State) : (respond r s).responses = s.responses ++ [r] := by
  simp [State.responses, respond, State.record]

@[simp] theorem responsePort_respond (r : Response) (s : State) : (respond r s).responsePort = some r := by
  rw [State.responsePort, responses_respond]
  simp [respond, State.record]

@[simp] theorem responsePort_holdOn (k : Task) (s : State) : (holdOn k s).responsePort = none := rfl

theorem alignedPort_idle {s : State} (h : s.busy = none) : s.alignedPort = some s.aligned := by
  rw [State.alignedPort, h]

theorem alignedPort_busy {s : State} (h : s.busy ≠ none) : s.alignedPort = none := by
  obtain ⟨k, hk⟩ := Option.ne_none_iff_exists'.mp h
  rw [State.alignedPort, hk]

@[simp] theorem status_ok (v : Word) : (Response.ok v).status = 0 := rfl
@[simp] theorem status_ioerr (e : Err) : (Response.ioerr e).status = 1 := rfl
@[simp] theorem valueField_ok (v : Word) : (Response.ok v).valueField = v := rfl
@[simp] theorem valueField_ioerr (e : Err) : (Response.ioerr e).valueField = 0 := rfl
@[simp] theorem errField_ok (v : Word) : (Response.ok v).errField = 0 := rfl
@[simp] theorem errField_ioerr (e : Err) : (Response.ioerr e).errField = e := rfl

end Sys2Proof.Machine
end

