-- ==== Sys2Proof/Laws/Run.lean ====
section
/-! SUPPORT. Runs over a source that hands over bytes one by one, followed to their end: the byte loop of READ_BYTES, the
unary loop, and the sign-extension multiplexer on an extracted pattern. -/

namespace Sys2Proof.Machine

/-- The state after a run of `n` bits: canonical, with the bits not consumed as its buffer (R12, R13). -/
theorem afterBits_facts {s : State} {n : Nat} {bytes : List Byte} {tail : List SrcMove} (hc : s.Canonical)
    (hs : s.source = byteAnswers bytes ++ tail) (hb : bytes.length = needBytes s.cnt.toNat n) :
    (s.afterBits n bytes tail).Canonical ∧ (s.afterBits n bytes tail).buf = (s.bitsWith bytes).drop n ∧
      n ≤ (s.bitsWith bytes).length := by
  have h := readBits_run hc hs hb
  rcases readBits_consumes n s with ⟨t, bits, y, h', c, l, hu⟩ | ⟨e, u, t, bits, y, h', c, st, l, hu⟩ |
      ⟨left, u, t, bits, y, h', c, st, l1, l, a, hu, f⟩ | ⟨k, h', hk⟩ <;> rw [h'] at h
  · have h2 := (Fetch.done.inj h).2
    have hy : y = bytes := by
      have := c.trace
      rw [h2] at this
      have := List.append_cancel_left (show s.trace ++ byteReads bytes = s.trace ++ byteReads y from this)
      clear * - this
      induction y generalizing bytes with
      | nil => cases bytes with
        | nil => rfl
        | cons => cases this
      | cons b y ih => cases bytes with
        | nil => cases this
        | cons b' bytes => simp [byteReads] at this ⊢; exact ⟨this.1.symm, ih (by simpa [byteReads] using this.2)⟩
    subst hy
    have hcan := c.canonical hc
    have hst := c.stream
    rw [h2] at hcan hst
    have hbuf : (s.afterBits n y tail).freeAcc.buf = (s.bitsWith y).drop n := by rw [hst, ← l, List.drop_left]
    refine ⟨hcan, hbuf, ?_⟩
    rw [hst, List.length_append]; omega
  all_goals cases h

/-- The events of the byte loop from index `i` on: one request and one write for each source byte (R102). -/
def fillFrom : Nat → List Bool → List Byte → List Event
  | _, _, [] => []
  | i, bits, b :: bs =>
    .srcRead 1 (.ok [b]) :: .dstWrite i (BitVec.ofNat 8 (natOfBits (bits.take 8))) ::
      fillFrom (i + 1) (bits.drop 8) bs

theorem lowByte_ofNat (x : Nat) : lowByte (BitVec.ofNat 32 x) = BitVec.ofNat 8 x := by
  apply BitVec.eq_of_toNat_eq
  simp [lowByte]

/-- Byte `i` of an unaligned READ_BYTES over these stream bits (R39, R102). -/
def streamByte (bits : List Bool) (i : Nat) : Byte := BitVec.ofNat 8 (natOfBits ((bits.drop (8 * i)).take 8))

/-- The byte loop over bytes that are there (R102): what it has written, and what is left to do. -/
theorem fillBytes_run {s : State} {bytes : List Byte} {tail : List SrcMove} (n i : Nat) (hc : s.Canonical)
    (hs : s.source = byteAnswers bytes ++ tail) (hn : bytes.length ≤ n) :
    ∃ t, fillBytes n i s = fillBytes (n - bytes.length) (i + bytes.length) t ∧
      t = { s.afterBits (8 * bytes.length) bytes tail with
        acc := t.acc, fresh := t.fresh, dst := t.dst, trace := s.trace ++ fillFrom i (s.bitsWith bytes) bytes } ∧
      t.Canonical ∧ t.buf = (s.bitsWith bytes).drop (8 * bytes.length) ∧
      ∀ j, t.dst.read j =
        if i ≤ j ∧ j < i + bytes.length then some (streamByte (s.bitsWith bytes) (j - i)) else s.dst.read j := by
  induction bytes generalizing s n i with
  | nil =>
    refine ⟨s, by simp, ?_, hc, by simp, fun j => by simp⟩
    have h1 : s.bitsWith [] = s.buf := by simp
    have : s.source = tail := by simpa using hs
    simp [State.afterBits, h1, leftJustify_buf hc, fillFrom, ← this]
  | cons b bytes ih =>
    obtain ⟨n, rfl⟩ : ∃ m, n = m + 1 := ⟨n - 1, by simp at hn; omega⟩
    have hk : s.cnt.toNat ≤ 7 := hc.1
    have hs1 : s.source = byteAnswers [b] ++ (byteAnswers bytes ++ tail) := by simpa using hs
    have hb1 : [b].length = needBytes s.cnt.toNat 8 := by simp [needBytes]; omega
    obtain ⟨f1, f2, f3⟩ := afterBits_facts hc hs1 hb1
    rw [fillBytes, readBits_run hc hs1 hb1]
    simp only [lowByte_ofNat]
    set s1 := (s.afterBits 8 [b] (byteAnswers bytes ++ tail)).freeAcc with hs1d
    have hbw : (dstWrite i (BitVec.ofNat 8 (natOfBits ((s.bitsWith [b]).take 8))) s1).bitsWith bytes =
        (s.bitsWith (b :: bytes)).drop 8 := by
      have : (s.bitsWith [b]).drop 8 = s1.buf := f2.symm
      show s1.bitsWith bytes = _
      rw [State.bitsWith, ← this, show b :: bytes = [b] ++ bytes from rfl, bitsWith_append,
        List.drop_append_of_le_length f3]
    have htk : (s.bitsWith [b]).take 8 = (s.bitsWith (b::bytes)).take 8 := by
      rw [show b :: bytes = [b] ++ bytes from rfl, bitsWith_append, List.take_append_of_le_length f3]
    obtain ⟨t, h1, h2, h3, h4, h5⟩ :=
      ih (s := dstWrite i (BitVec.ofNat 8 (natOfBits ((s.bitsWith [b]).take 8))) s1) n (i + 1) f1 rfl
        (by simp at hn; omega)
    refine ⟨t, ?_, ?_, h3, ?_, ?_⟩
    · rw [h1]; simp only [List.length_cons]; congr 1 <;> omega
    · rw [h2]
      simp only [State.afterBits, hbw, List.drop_drop, List.length_cons, fillFrom]
      rw [show 8 + 8 * bytes.length = 8 * (bytes.length + 1) by omega, htk]
      simp [hs1d, State.afterBits, dstWrite, State.record, State.freeAcc]
    · rw [h4, hbw, List.drop_drop, List.length_cons]; congr 1; omega
    · intro j
      rw [h5, hbw]
      have hd : (dstWrite i (BitVec.ofNat 8 (natOfBits ((s.bitsWith [b]).take 8))) s1).dst =
          s.dst.write i (BitVec.ofNat 8 (natOfBits ((s.bitsWith [b]).take 8))) := rfl
      rw [hd, Memory.read_write, List.length_cons]
      by_cases hj : j = i
      · subst hj
        rw [if_neg (by omega), if_pos rfl, if_pos (by omega), Nat.sub_self, htk]
        simp [streamByte]
      · rw [if_neg hj]
        by_cases h6 : i + 1 ≤ j ∧ j < i + 1 + bytes.length
        · rw [if_pos h6, if_pos (by omega), streamByte, streamByte, List.drop_drop]
          congr 6; omega
        · rw [if_neg h6, if_neg (by omega)]

/-- The unary loop over `c` bits that are not the stop bit (R110, R111): the count, and what is left to do. `k` more bits
are known to need no more bytes than there are. -/
theorem unaryLoop_run (stop : Bool) (k c : Nat) {s : State} {bytes : List Byte} {tail : List SrcMove} {more : List Bool}
    (turns : Nat) (hc : s.Canonical) (hs : s.source = byteAnswers bytes ++ tail) (hu : s.uc.toNat + c < 2 ^ 32)
    (hb : s.bitsWith bytes = List.replicate c (!stop) ++ more) (hn : needBytes s.cnt.toNat (c + k) ≤ bytes.length)
    (ht : c < turns) :
    ∃ t bytes', unaryLoop stop turns s = unaryLoop stop (turns - c) t ∧ t.Canonical ∧
      t.source = byteAnswers bytes' ++ tail ∧ t.bitsWith bytes' = more ∧
      t = { s with
        sr := t.sr, cnt := t.cnt, acc := t.acc, uc := s.uc + BitVec.ofNat 32 c, fresh := t.fresh
        source := t.source, trace := t.trace } ∧
      t.trace ++ byteReads bytes' = s.trace ++ byteReads bytes ∧
      needBytes t.cnt.toNat k + bytes.length = needBytes s.cnt.toNat (c + k) + bytes'.length := by
  induction c generalizing s bytes turns with
  | zero =>
    exact ⟨s, bytes, rfl, hc, hs, by simpa using hb, by simp, rfl, by simp⟩
  | succ c ih =>
    obtain ⟨turns, rfl⟩ : ∃ m, turns = m + 1 := ⟨turns - 1, by omega⟩
    obtain ⟨b, s1, bytes1, h1, h2, h3, h4, h5, h6, h7⟩ :=
      nextBit_run (n := c + k) (s := { s with acc := 0 }) hc hs (by rw [show c + k + 1 = c + 1 + k by omega]; exact hn)
    have hb2 : b :: s1.bitsWith bytes1 = List.replicate (c+1) (!stop) ++ more := h4.symm.trans hb
    rw [List.replicate_succ, List.cons_append, List.cons.injEq] at hb2
    obtain ⟨rfl, hb2⟩ := hb2
    have hr : readBits 1 s =
        .done (BitVec.ofNat 32 (natOfBits [!stop])) ({ s1 with acc := shiftInBit 0 (!stop) } : State).freeAcc := by
      have e : s1.acc = 0 := by rw [h7]
      rw [readBits, shiftIn, h1]
      simp only [shiftIn, takeAcc, e]
      cases stop <;> rfl
    have huc : s1.uc = s.uc := by rw [h7]
    rw [unaryLoop, hr]
    simp only [ofNat_one_bit]
    rw [if_neg (by cases stop <;> simp)]
    have hne : ¬ ({s1 with acc := shiftInBit 0 (!stop)} : State).freeAcc.uc = Config.ucMax := by
      show ¬ s1.uc = _
      rw [huc]; intro h; rw [h] at hu; simp at hu; omega
    rw [if_neg hne]
    have h5' : needBytes s1.cnt.toNat (c + k) + bytes.length = needBytes s.cnt.toNat (c + 1 + k) + bytes1.length := by
      rw [show c + 1 + k = c + k + 1 by omega]
      exact h5
    have hn5 : needBytes s1.cnt.toNat (c+k) ≤ bytes1.length := by omega
    have hu5 : (s1.uc + 1).toNat + c < 2 ^ 32 := by
      rw [huc, BitVec.toNat_add]
      simp
      omega
    obtain ⟨t, bytes', g1, g2, g3, g4, g5, g6, g7⟩ :=
      ih (s := { ({ s1 with acc := shiftInBit 0 (!stop) } : State).freeAcc with uc := s1.uc + 1 }) turns h2 h3 hu5 hb2
        hn5 (by omega)
    refine ⟨t, bytes', ?_, g2, g3, g4, ?_, ?_, ?_⟩
    · refine g1.trans ?_
      congr 1
      omega
    · rw [g5]
      have : s1.uc + 1 + BitVec.ofNat 32 c = s.uc + BitVec.ofNat 32 (c + 1) := by
        rw [huc, BitVec.add_assoc, Nat.add_comm c 1, BitVec.ofNat_add]; rfl
      simp only [State.freeAcc, this]
      rw [h7]
    · rw [g6]; exact h6.symm
    · have : needBytes t.cnt.toNat k + bytes1.length = needBytes s1.cnt.toNat (c+k) + bytes'.length := g7
      omega

/-- Turns beyond the bits ahead change nothing. -/
theorem unaryLoop_turns (stop : Bool) (m k : Nat) (s : State) (h : bitsAhead s < m) :
    unaryLoop stop (m + k) s = unaryLoop stop m s := by
  induction m generalizing s with
  | zero => omega
  | succ m ih =>
    rw [show m + 1 + k = (m + k) + 1 by omega, unaryLoop, unaryLoop]
    rcases readBits_consumes 1 s with ⟨t, bits, y, h', c, l, hu⟩ | ⟨e, u, t, bits, y, h', c, st, l, hu⟩ |
      ⟨left, u, t, bits, y, h', c, st, l1, l, a, hu, f⟩ | ⟨k, h', hk⟩ <;> rw [h']
    simp only
    split
    · rfl
    · split
      · rfl
      · refine ih _ ?_
        have := c.bitsAhead
        show bitsAhead t < m
        omega

/-- The multiplexer makes a pattern of `n` bits the two's-complement number of that width (R84, R85). -/
theorem signMux_eq {n x : Nat} (h1 : 1 ≤ n) (h2 : n ≤ 32) (hx : x < 2 ^ n) :
    signMux n (BitVec.ofNat 32 x) = (BitVec.ofNat n x).signExtend 32 := by
  have hp : 2 ^ n ≤ 2 ^ 32 := Nat.pow_le_pow_right (by decide) h2
  have hmask : (signMask n).toNat = 2 ^ 32 - 2 ^ n := by
    rw [signMask, BitVec.toNat_ofNat, Nat.mod_eq_of_lt]
    have : 0 < 2 ^ n := by positivity
    omega
  have hmb : ∀ j, j < 32 → (signMask n).getLsbD j = decide (n ≤ j) := by
    intro j hj
    rw [BitVec.getLsbD, hmask]
    have e : 2 ^ 32 - 2 ^ n = (2 ^ (32 - n) - 1) * 2 ^ n := by
      rw [Nat.sub_mul, ← pow_add, one_mul]; congr 2; omega
    rw [e, Nat.testBit_mul_two_pow, Nat.testBit_two_pow_sub_one]
    by_cases hh : n ≤ j <;> simp [hh]; omega
  apply BitVec.eq_of_getLsbD_eq
  intro j hj
  rw [BitVec.getLsbD_signExtend, BitVec.msb_eq_getLsbD_last]
  have hb : ∀ k, k < 32 → (BitVec.ofNat 32 x).getLsbD k = x.testBit k := fun k hk => by
    rw [BitVec.getLsbD_ofNat]; simp [hk]
  have hn : ∀ k, (BitVec.ofNat n x).getLsbD k = (decide (k < n) && x.testBit k) := fun k => BitVec.getLsbD_ofNat ..
  have hj' : ¬ j < n → x.testBit j = false := fun hh =>
    Nat.testBit_lt_two_pow (hx.trans_le (Nat.pow_le_pow_right (by decide) (by omega)))
  rw [signMux, hb _ (by omega), hn, hn]
  simp only [hj, decide_true, Bool.true_and, show n - 1 < n by omega]
  by_cases hh : j < n
  · split
    · rw [BitVec.getLsbD_or, hmb j hj, hb j hj]; simp [hh]
    · rw [hb j hj]; simp [hh]
  · split
    · next hs => rw [BitVec.getLsbD_or, hmb j hj, hb j hj]; simp [hs]; omega
    · next hs => rw [hb j hj, hj' hh]; simp [hs]

end Sys2Proof.Machine
end

