-- ==== Sys2Proof/Laws/Stream.lean ====
section
/-! SUPPORT. The stream behind the buffer: what a run of bits does to the delivered bytes and to the cursor. -/

namespace Sys2Proof.Machine

theorem delivers_of_requests {evs : List Event} {bytes : List Byte}
    (h : evs.filterMap Event.request = bytes.map fun b => (1, .ok [b])) : evs.flatMap Event.delivers = bytes := by
  induction evs generalizing bytes with
  | nil => exact (List.map_eq_nil_iff.mp h.symm).symm
  | cons ev evs ih =>
    cases ev with
    | srcRead n a =>
      cases bytes with
      | nil => simp at h
      | cons b bytes =>
        simp only [List.filterMap_cons, request_srcRead, List.map_cons, List.cons.injEq, Prod.mk.injEq] at h
        obtain ⟨⟨rfl, rfl⟩, h⟩ := h
        rw [List.flatMap_cons, ih h]
        rfl
    | dstWrite i b =>
      rw [List.flatMap_cons, delivers_dstWrite, List.nil_append]
      exact ih (by simpa [List.filterMap_cons] using h)
    | respond r =>
      rw [List.flatMap_cons, delivers_respond, List.nil_append]
      exact ih (by simpa [List.filterMap_cons] using h)

theorem Fills.delivered {i n : Nat} {s t : State} {bits : List Bool} {bytes : List Byte} {evs : List Event}
    (h : Fills i n s t bits bytes evs) : t.delivered = s.delivered ++ bytes := by
  rw [State.delivered, h.trace, List.flatMap_append, delivers_of_requests h.requests, ← State.delivered]

theorem length_streamBits (s : State) : s.streamBits.length = 8 * s.nb := length_flatMap_byteBits _

theorem cnt_le_of_streamEnd {s : State} (h : s.BufferIsStreamEnd) : s.cnt.toNat ≤ 8 * s.nb := by
  have := h.length_le
  rwa [length_buf, length_streamBits] at this

/-- The stream, split at the cursor (R18). -/
theorem streamBits_eq {s : State} (h : s.BufferIsStreamEnd) :
    ∃ pre, pre.length = s.pos ∧ s.streamBits = pre ++ s.buf := by
  obtain ⟨pre, hp⟩ := h
  refine ⟨pre, ?_, hp.symm⟩
  have := congrArg List.length hp
  rw [List.length_append, length_buf, length_streamBits] at this
  rw [State.pos]
  omega

/-- A run of bits moves the cursor over them and keeps the buffer the end of the stream (R18, R72). -/
theorem stream_run {s t : State} {bits : List Bool} {bytes : List Byte} (h : s.BufferIsStreamEnd)
    (hd : t.delivered = s.delivered ++ bytes) (hb : s.bitsWith bytes = bits ++ t.buf) :
    t.BufferIsStreamEnd ∧ t.pos = s.pos + bits.length ∧ t.nb = s.nb + bytes.length ∧
      ∃ pre, pre.length = s.pos ∧ t.streamBits = pre ++ bits ++ t.buf := by
  obtain ⟨pre, hp, hs⟩ := streamBits_eq h
  have h1 : t.streamBits = pre ++ bits ++ t.buf := by
    rw [State.streamBits, hd, List.flatMap_append, ← State.streamBits, hs, List.append_assoc, ← State.bitsWith, hb,
      List.append_assoc]
  refine ⟨⟨_, h1.symm⟩, ?_, by simp [State.nb, hd], pre, hp, h1⟩
  have h2 := congrArg List.length h1
  rw [List.length_append, List.length_append, length_buf, length_streamBits] at h2
  rw [State.pos]
  omega

theorem Consumes.stream_run {s t : State} {bits : List Bool} {bytes : List Byte} (c : Consumes s t bits bytes)
    (h : s.BufferIsStreamEnd) :
    t.BufferIsStreamEnd ∧ t.pos = s.pos + bits.length ∧ t.nb = s.nb + bytes.length ∧
      ∃ pre, pre.length = s.pos ∧ t.streamBits = pre ++ bits ++ t.buf :=
  Machine.stream_run h c.delivered c.stream

theorem Fills.stream_run {i n : Nat} {s t : State} {bits : List Bool} {bytes : List Byte} {evs : List Event}
    (c : Fills i n s t bits bytes evs) (h : s.BufferIsStreamEnd) :
    t.BufferIsStreamEnd ∧ t.pos = s.pos + bits.length ∧ t.nb = s.nb + bytes.length ∧
      ∃ pre, pre.length = s.pos ∧ t.streamBits = pre ++ bits ++ t.buf :=
  Machine.stream_run h c.delivered c.stream

/-- What happened at the ports, apart from what a run's requests deliver, is nothing the stream can see. -/
theorem stream_congr {s t : State} (hd : t.delivered = s.delivered) (hs : t.sr = s.sr) (hc : t.cnt = s.cnt) :
    t.streamBits = s.streamBits ∧ t.buf = s.buf ∧ t.nb = s.nb ∧ t.pos = s.pos := by
  simp [State.streamBits, State.buf, State.nb, State.pos, hd, hs, hc]

theorem dstWriteAll_delivered (i : Nat) (bytes : List Byte) (s : State) :
    (dstWriteAll i bytes s).delivered = s.delivered := by
  rw [dstWriteAll_eq]
  simp [State.delivered, List.flatMap_map]

theorem StopsAtError.delivered {u t : State} {e : Err} (h : StopsAtError u t e) : t.delivered = u.delivered := by
  obtain ⟨_, rest, _, rfl⟩ := h
  simp [State.delivered]

theorem StopsUnanswered.trace {u t : State} (h : StopsUnanswered u t) : t.trace = u.trace := by
  obtain ⟨_, ⟨_, rfl⟩ | ⟨_, _, rfl⟩⟩ := h <;> rfl

/-- All bits of the stream that have been delivered have been consumed when the buffer is empty. -/
theorem pos_of_aligned {s : State} (h : s.cnt = 0) : s.pos = 8 * s.nb := by simp [State.pos, h]

end Sys2Proof.Machine
end

