-- ==== Sys2Proof/Tests/Slice0.lean ====
section
/-! SUPPORT. Tests: legal and illegal operands, the words of spec/95_test_vectors.md section 4.9, single commands of its
vectors, and for every statement of Obligations.lean a state that meets its hypotheses. -/

namespace Sys2Proof.Tests

open Sys2Proof.Machine Sys2Proof.Claims

/-! Legal operands (R55): one ill-formed term for each check. -/

theorem test_wf_read : (Instr.read 0).wf = false ∧ (Instr.read 33).wf = false ∧ (Instr.read 1).wf = true ∧
    (Instr.read 32).wf = true := by decide
theorem test_wf_readSigned : (Instr.readSigned 0).wf = false ∧ (Instr.readSigned 33).wf = false ∧
    (Instr.readSigned 1).wf = true ∧ (Instr.readSigned 32).wf = true := by decide
theorem test_wf_skip : (Instr.skip 0).wf = false ∧ (Instr.skip 33).wf = false ∧ (Instr.skip 1).wf = true ∧
    (Instr.skip 32).wf = true := by decide
theorem test_wf_readBytes : (Instr.readBytes 16777216).wf = false ∧ (Instr.readBytes 16777215).wf = true ∧
    (Instr.readBytes 0).wf = true := by decide

/-! Decoding, from the layout of R51: `ARG` in bits 31 to 8, `RSV` in bits 7 to 3, `OP` in bits 2 to 0. -/

theorem test_decode_read : decode 0b000000000000000000000001_00000_000 = .ok (.read 1) ∧
    decode 0x00002000 = .ok (.read 32) := by decide
theorem test_decode_readSigned : decode 0b000000000000000000100000_00000_001 = .ok (.readSigned 32) ∧
    decode 0x00000501 = .ok (.readSigned 5) := by decide
theorem test_decode_skip : decode 0b000000000000000000100000_00000_010 = .ok (.skip 32) ∧
    decode 0x00000C02 = .ok (.skip 12) := by decide
theorem test_decode_readBytes : decode 0b111111111111111111111111_00000_011 = .ok (.readBytes 16777215) ∧
    decode 0x00000003 = .ok (.readBytes 0) := by decide
theorem test_decode_readUnary0 : decode 0b000000000000000000000000_00000_100 = .ok .readUnary0 := by decide
theorem test_decode_readUnary1 : decode 0b000000000000000000000000_00000_101 = .ok .readUnary1 := by decide
theorem test_decode_byteAligned : decode 0b000000000000000000000000_00000_110 = .ok .byteAligned := by decide
theorem test_decode_byteAlign : decode 0b000000000000000000000000_00000_111 = .ok .byteAlign := by decide
theorem test_decode_reserved : decode 0x00000000 = .error .u1 ∧ decode 0x00002100 = .error .u2 ∧
    decode 0x00000001 = .error .u1 ∧ decode 0x00000002 = .error .u1 ∧ decode 0x00002102 = .error .u2 ∧
    decode 0x00000104 = .error .u3 ∧ decode 0x00000408 = .error .u4 ∧ decode 0x000000FF = .error .u4 := by decide
theorem test_decodeTableWord : decodeTableWord 32 0x00000300 = some (.read 3) ∧
    decodeTableWord 32 0x00000408 = none := by decide

/-! Single commands. The source hands over bytes one by one where `byteAnswers` lists them. -/

/-- A reader with this buffer over this source. -/
def reader (sr : Byte) (cnt : BitVec 4) (source : List SrcMove) : State :=
  { State.reset with sr := sr, cnt := cnt, source := source }

/-- SR, CNT, the responses and the sizes of the requests after a step. -/
def seen : Host.Outcome State Fault Refusal → Option (Byte × BitVec 4 × List Response × List Nat)
  | .next t => some (t.sr, t.cnt, t.responses, t.requests.map Prod.fst)
  | _ => none

/-- The destination after a step, and its response. -/
def written : Host.Outcome State Fault Refusal → Option (Memory × List Response)
  | .next t => some (t.dst, t.responses)
  | _ => none

/-- A state that presents one command word. -/
def presenting (w : Word) (s : State) : State := { s with client := [.command w] }

/-- V-RD-1, command 2. -/
theorem test_read_crosses_bytes :
    seen (exec (.read 13) (reader 0b00101000 5 (byteAnswers [0x5A, 0xFF]))) = some (0x00, 0, [.ok 1370], [1]) := by
  decide
/-- V-RD-2, command 2. -/
theorem test_read_32 :
    seen (exec (.read 32) (reader 0xD0 4 (byteAnswers [0xEA, 0xDB, 0xEE, 0xF0]))) =
      some (0x00, 4, [.ok 0xDEADBEEF], [1, 1, 1, 1]) := by decide
/-- V-RS-4, command 1. -/
theorem test_readSigned_negative :
    seen (exec (.readSigned 5) (reader 0 0 (byteAnswers [0x83, 0xC0]))) = some (0x60, 3, [.ok 0xFFFFFFF0], [1]) := by
  decide
/-- R85 at `bits = 32`, with V-RS-3's pattern: the mask is 0. -/
theorem test_readSigned_32 : Extract.value .readSigned 32 0x80000000 = 0x80000000 ∧ signMask 32 = 0 := by decide
/-- V-SK-1, command 3. -/
theorem test_skip : seen (exec (.skip 12) (reader 0x40 4 (byteAnswers [0x56]))) = some (0x00, 0, [.ok 0], [1]) := by
  decide
/-- V-RB-3, command 2. -/
theorem test_readBytes_unaligned :
    written (exec (.readBytes 2) (reader 0xB0 4 (byteAnswers [0xCD, 0xEF]))) =
      some ([(0, 0xBC), (1, 0xDE)], [.ok 0]) := by decide
/-- V-RB-2, command 1: nothing is written. -/
theorem test_readBytes_aligned_fails :
    written (exec (.readBytes 3) { reader 0 0 [.answers (.err 7)] with dst := [(0, 0xEE), (1, 0xEE), (2, 0xEE)] }) =
      some ([(0, 0xEE), (1, 0xEE), (2, 0xEE)], [.ioerr 7]) := by decide
/-- V-UN-3, command 1. -/
theorem test_readUnary0 :
    seen (exec .readUnary0 (reader 0 0 (byteAnswers [0xFF, 0xFF, 0x7F]))) = some (0xFE, 7, [.ok 16], [1, 1, 1]) := by
  decide
/-- V-UN-5, command 1. -/
theorem test_readUnary1 :
    seen (exec .readUnary1 (reader 0 0 (byteAnswers [0x00, 0x01]))) = some (0x00, 0, [.ok 15], [1, 1]) := by decide
/-- V-AL-1, command 2. -/
theorem test_byteAligned : seen (exec .byteAligned (reader 0xA0 5 [])) = some (0xA0, 5, [.ok 0], []) := by decide
/-- V-AL-1, command 3. -/
theorem test_byteAlign : seen (exec .byteAlign (reader 0xA0 5 [])) = some (0x00, 0, [.ok 0], []) := by decide
/-- R53: the word `read 3`, presented after reset, over the source of P2. -/
theorem test_step : seen (step (presenting 0x00000300 (reader 0 0 (byteAnswers [0xB4])))) =
    some (0xA0, 5, [.ok 5], [1]) := by decide
/-- R53, R120: the word placed for the next step runs as the first command after reset. -/
theorem test_withFetchWord : seen (step (State.reset.withFetchWord 32 0x00000006)) = some (0x00, 0, [.ok 1], []) := by
  decide
/-- R61's form of a line. -/
theorem test_assemble : assembleLine ("read 4 # comment".toList) = some 0x00000400 ∧
    assembleLine ("skip 0x0C".toList) = some 0x00000C02 ∧ assembleLine ("read 33".toList) = none := by decide

/-! For every statement with hypotheses a state and operands that meet them, at the ends of their ranges. The numbers are
those of spec/95_test_vectors.md where a comment names a vector. -/

/-- An outcome is a next state with a property, from evaluating both. -/
theorem exists_next {o : Host.Outcome State Fault Refusal} {P : State → Prop} [DecidablePred P]
    (h : (match o with | .next t => decide (P t) | _ => false) = true) : ∃ t, o = .next t ∧ P t := by
  cases o with
  | next t => exact ⟨t, rfl, of_decide_eq_true h⟩
  | fault f => cases f
  | refused r => cases h

/-- V-AL-1 after command 1: three bits of 0xB4 consumed. -/
def midByte (source : List SrcMove) : State :=
  { reader 0xA0 5 source with trace := [.srcRead 1 (.ok [0xB4]), .respond (.ok 5)] }

/-- A `read 8` held after four bits. -/
def heldRead (source : List SrcMove) : State :=
  { reader 0 0 source with
    acc := 0xF, busy := some (.extract .read 8 4), trace := [.srcRead 1 (.ok [0xFF]), .respond (.ok 15)] }

theorem witness_EncodedCommandDecodesBack :
    ∀ i ∈ [.read 1, .read 32, .readSigned 1, .readSigned 32, .skip 1, .skip 32, .readBytes 0, .readBytes 16777215,
      .readUnary0, .readUnary1, .byteAligned, .byteAlign], Instr.wf i = true := by decide
theorem witness_DecodedWordEncodesBack : decode 0xFFFFFF03 = .ok (.readBytes 16777215) := by decide
theorem witness_StepRunsThePresentedCommand :
    ((presenting 0x00000300 State.reset).busy = none ∧ (presenting 0x00000300 State.reset).live = true ∧
      (presenting 0x00000300 State.reset).client = .command 0x00000300 :: [] ∧ decode 0x00000300 = .ok (.read 3)) ∧
    decodeTableWord 32 0x00000300 = some (.read 3) := by decide
theorem witness_ReservedWordIsRefusedByClassAndWord :
    ((presenting 0x00000408 State.reset).busy = none ∧
      (presenting 0x00000408 State.reset).client = .command 0x00000408 :: [] ∧
      (presenting 0x00000408 State.reset).live = true ∧ decode 0x00000408 = .error .u4) ∧
    (presenting 0x00000300 { State.reset with live := false }).live = false := by decide
theorem witness_HeldBlockWaitsForItsSource :
    (heldRead []).busy = some (.extract .read 8 4) ∧
    ((heldRead []).Inv ∧ (heldRead []).busy ≠ none ∧ (heldRead []).source = []) ∧
    ((heldRead [.delays]).Inv ∧ (heldRead [.delays]).source = .delays :: []) ∧
    (heldRead (byteAnswers [0x5A])).Inv ∧ ∃ t, step (heldRead (byteAnswers [0x5A])) = .next t ∧ t.busy = none :=
  ⟨by decide, by decide, by decide, by decide, exists_next (by decide)⟩
theorem witness_DelaysChangeNothingElse :
    SrcMove.delays ∉ (midByte (byteAnswers [0x5A])).source ∧
    ∃ t, exec (.read 16) (midByte (byteAnswers [0x5A])) = .next t ∧ t.busy = some (.extract .read 16 3) :=
  ⟨by decide, exists_next (by decide)⟩
theorem witness_NextBitFollowsItsListForm :
    ((reader 0x80 1 []).Canonical ∧ (reader 0x80 1 []).buf = [true]) ∧
    ((reader 0 0 (byteAnswers [0xB4])).Canonical ∧ (reader 0 0 (byteAnswers [0xB4])).buf = [] ∧
      (reader 0 0 (byteAnswers [0xB4])).source = .answers (.ok [0xB4]) :: []) ∧
    (reader 0 0 [.answers (.err 7)]).buf = [] ∧ (reader 0 0 []).buf = [] := by decide
theorem witness_FailedRefillChangesNothing : ∃ t, nextBit (reader 0 0 [.answers (.err 7)]) = .ioerr 7 t := ⟨_, rfl⟩
theorem witness_EachBufferHasOneRegisterImage :
    [true, false, true, true, false, true, true].length ≤ 7 ∧ (reader 0xB6 7 []).Canonical ∧
    (reader 0xB6 7 []).buf = [true, false, true, true, false, true, true] ∧ (reader 0 0 []).Canonical := by decide

/-- A width from the buffer alone, and the greatest one over four bytes. -/
theorem witness_ReadReturnsTheNextBits :
    ((reader 0xA0 5 []).Canonical ∧ 1 ≤ 1 ∧ 1 ≤ 32 ∧ (reader 0xA0 5 []).source = byteAnswers [] ++ [] ∧
      ([] : List Byte).length = needBytes (reader 0xA0 5 []).cnt.toNat 1) ∧
    (reader 0xA0 5 (byteAnswers [1, 2, 3, 4])).Canonical ∧
    (reader 0xA0 5 (byteAnswers [1, 2, 3, 4])).source = byteAnswers [1, 2, 3, 4] ++ [] ∧
    ([1, 2, 3, 4] : List Byte).length = needBytes (reader 0xA0 5 (byteAnswers [1, 2, 3, 4])).cnt.toNat 32 := by decide
theorem witness_ReadSignedReturnsTwosComplement :
    (reader 0xA0 5 (byteAnswers [1, 2, 3, 4])).Canonical ∧ 1 ≤ 32 ∧ 32 ≤ 32 ∧
    (reader 0xA0 5 (byteAnswers [1, 2, 3, 4])).source = byteAnswers [1, 2, 3, 4] ++ [] ∧
    ([1, 2, 3, 4] : List Byte).length = needBytes (reader 0xA0 5 (byteAnswers [1, 2, 3, 4])).cnt.toNat 32 := by decide
theorem witness_SkipConsumesTheNextBits :
    (reader 0 0 (byteAnswers [1])).Canonical ∧ 1 ≤ 8 ∧ 8 ≤ 32 ∧
    (reader 0 0 (byteAnswers [1])).source = byteAnswers [1] ++ [] ∧
    ([1] : List Byte).length = needBytes (reader 0 0 (byteAnswers [1])).cnt.toNat 8 := by decide
theorem witness_ReadValueLaw :
    (midByte (byteAnswers [0x5A])).Inv ∧ ∃ t, exec (.read 13) (midByte (byteAnswers [0x5A])) = .next t ∧
      t.busy = none ∧ t.responses = (midByte (byteAnswers [0x5A])).responses ++ [.ok 0x145A] :=
  ⟨by decide, exists_next (by decide)⟩
theorem witness_ExtractorFailsAtTheFailingRequest :
    (reader 0xA0 5 (byteAnswers [1, 2, 3] ++ .answers (.err 7) :: [])).Canonical ∧ 1 ≤ 32 ∧ 32 ≤ 32 ∧
    (reader 0xA0 5 []).cnt.toNat + 8 * ([1, 2, 3] : List Byte).length < 32 := by decide
theorem witness_ExtractorIsHeldWithoutAnAnswer :
    (reader 0xA0 5 (byteAnswers [1, 2, 3])).Canonical ∧ 1 ≤ 30 ∧ 30 ≤ 32 ∧
    (reader 0xA0 5 (byteAnswers [1, 2, 3])).source = byteAnswers [1, 2, 3] ∧
    (reader 0xA0 5 (byteAnswers [1, 2, 3])).cnt.toNat + 8 * ([1, 2, 3] : List Byte).length < 30 := by decide
/-- S4, and a failure. -/
theorem witness_ReadSignedAgainstRead :
    (∃ t, exec (.read 4) (reader 0x80 4 []) = .next t ∧ t.busy = none ∧ t.trace = [] ++ [.respond (.ok 8)]) ∧
    ∃ t, exec (.read 4) (reader 0 0 [.answers (.err 7)]) = .next t ∧ t.busy = none ∧
      t.trace = [.srcRead 1 (.err 7)] ++ [.respond (.ioerr 7)] :=
  ⟨exists_next (by decide), exists_next (by decide)⟩
theorem witness_SkipAgainstRead :
    (∃ t, exec (.read 4) (reader 0x80 4 []) = .next t ∧ t.busy = none ∧ t.trace = [] ++ [.respond (.ok 8)]) ∧
    ∃ t, exec (.read 4) (reader 0 0 [.answers (.err 7)]) = .next t ∧ t.busy = none ∧
      t.trace = [.srcRead 1 (.err 7)] ++ [.respond (.ioerr 7)] := witness_ReadSignedAgainstRead
theorem witness_SignMultiplexerSelectsPerBit :
    (legalBits 1 ∧ (1 : Word).toNat < 2 ^ 1 ∧ (1 : Word).getLsbD (1 - 1) = true) ∧
    (legalBits 32 ∧ (0x80000000 : Word).toNat < 2 ^ 32 ∧ (0x80000000 : Word).getLsbD (32 - 1) = true) ∧
    legalBits 4 ∧ (7 : Word).toNat < 2 ^ 4 ∧ (7 : Word).getLsbD (4 - 1) = false := by decide
/-- V-RD-1's composition, its two halves and its failure, whole and in either half. -/
theorem witness_SplitReadsCompose :
    (1 ≤ 3 ∧ 1 ≤ 13 ∧ 3 + 13 ≤ 32) ∧
    (∃ t, exec (.read 3) (reader 0 0 (byteAnswers [0xA5, 0x5A])) = .next t ∧
      (t.busy = none ∧ t.responses = [.ok 5]) ∧
      ∃ u, exec (.read 13) t = .next u ∧ u.busy = none ∧ u.responses = [.ok 5] ++ [.ok 1370]) ∧
    (∃ t, exec (.skip 3) (reader 0 0 (byteAnswers [0xA5, 0x5A])) = .next t ∧
      (t.busy = none ∧ t.responses = [.ok 0]) ∧
      ∃ u, exec (.read 13) t = .next u ∧ u.busy = none ∧ u.responses = [.ok 0] ++ [.ok 1370]) ∧
    (∃ t, exec (.read (3 + 13)) (reader 0 0 (byteAnswers [0xA5, 0x5A])) = .next t ∧
      t.busy = none ∧ t.responses = [.ok 0xA55A]) ∧
    (∃ t, exec (.read (3 + 13)) (reader 0 0 (byteAnswers [0xA5] ++ [.answers (.err 7)])) = .next t ∧
      t.busy = none ∧ t.responses = [.ioerr 7]) ∧
    (∃ t, exec (.read 3) (reader 0 0 [.answers (.err 7)]) = .next t ∧ t.busy = none ∧ t.responses = [.ioerr 7]) ∧
    ∃ t, exec (.read 3) (reader 0 0 (byteAnswers [0xA5] ++ [.answers (.err 7)])) = .next t ∧
      (t.busy = none ∧ t.responses = [.ok 5]) ∧
      ∃ u, exec (.read 13) t = .next u ∧ u.busy = none ∧ u.responses = [.ok 5] ++ [.ioerr 7] :=
  ⟨by decide, ⟨_, rfl, by decide, exists_next (by decide)⟩, ⟨_, rfl, by decide, exists_next (by decide)⟩,
    exists_next (by decide), exists_next (by decide), exists_next (by decide),
    ⟨_, rfl, by decide, exists_next (by decide)⟩⟩
theorem witness_ByteParallelFormAgrees :
    (reader 0xFE 7 []).Canonical ∧ legalBits 1 ∧ legalBits 32 ∧ (reader 0 0 []).Canonical := by decide

/-- V-RB-1. -/
theorem witness_AlignedReadBytesBypassesTheBuffer :
    (reader 0 0 [.answers (.ok [0x01, 0x02])]).cnt = 0 ∧ 1 ≤ 2 ∧ 2 < 2 ^ 24 ∧ ([0x01, 0x02] : List Byte).length = 2 ∧
    (reader 0 0 [.answers (.ok [0x01, 0x02])]).source = .answers (.ok [0x01, 0x02]) :: [] := by decide
theorem witness_AlignedReadBytesFailsWhole :
    (reader 0 0 [.answers (.err 7)]).cnt = 0 ∧ 1 ≤ 16777215 ∧ 16777215 < 2 ^ 24 ∧
    (reader 0 0 [.answers (.err 7)]).source = .answers (.err 7) :: [] := by decide
/-- V-RB-3. -/
theorem witness_UnalignedReadBytesAssembles :
    (reader 0xB0 4 (byteAnswers [0xCD, 0xEF])).Canonical ∧ (reader 0xB0 4 (byteAnswers [0xCD, 0xEF])).cnt ≠ 0 ∧
    ([0xCD, 0xEF] : List Byte).length < 2 ^ 24 ∧
    (reader 0xB0 4 (byteAnswers [0xCD, 0xEF])).source = byteAnswers [0xCD, 0xEF] ++ [] := by decide
/-- V-RB-4. -/
theorem witness_UnalignedReadBytesFillsPartly :
    (reader 0xB0 4 (byteAnswers [0xCD] ++ .answers (.err 7) :: [])).Canonical ∧
    (reader 0xB0 4 (byteAnswers [0xCD] ++ .answers (.err 7) :: [])).cnt ≠ 0 ∧ 2 < 2 ^ 24 ∧
    ([0xCD] : List Byte).length < 2 ∧
    (reader 0xB0 4 (byteAnswers [0xCD] ++ .answers (.err 7) :: [])).source =
      byteAnswers [0xCD] ++ .answers (.err 7) :: [] := by decide
theorem witness_ReadBytesOfLengthZero : (reader 0 0 []).cnt = 0 ∧ (reader 0x80 1 []).cnt ≠ 0 := by decide
theorem witness_ReadBytesKeepsAlignment :
    (midByte (byteAnswers [0xCD])).Inv ∧
    (∃ t, exec (.readBytes 1) (midByte (byteAnswers [0xCD])) = .next t ∧ t.busy = none ∧
      t.responses = (midByte []).responses ++ [.ok 0]) ∧
    ∃ t, exec (.readBytes 1) (midByte [.answers (.err 7)]) = .next t ∧ t.busy = none ∧
      t.responses = (midByte []).responses ++ [.ioerr 7] :=
  ⟨by decide, exists_next (by decide), exists_next (by decide)⟩
theorem witness_BulkReadEqualsByteReads :
    (reader 0 0 []).Canonical ∧ (reader 0 0 []).cnt = 0 ∧ 1 ≤ ([0x01, 0x02] : List Byte).length ∧
    ([0x01, 0x02] : List Byte).length < 2 ^ 24 ∧ ([0x01, 0x02] : List Byte).length < 3 ∧ 3 < 2 ^ 24 := by decide
theorem witness_ReadBytesIsHeldWithoutAnAnswer :
    ((reader 0 0 []).Canonical ∧ ([] : List Byte).length < 1 ∧ 1 < 2 ^ 24 ∧ (reader 0 0 []).cnt = 0 ∧
      (reader 0 0 []).source = []) ∧
    (reader 0xB0 4 (byteAnswers [0xCD])).Canonical ∧ ([0xCD] : List Byte).length < 2 ∧
    (reader 0xB0 4 (byteAnswers [0xCD])).cnt ≠ 0 ∧
    (reader 0xB0 4 (byteAnswers [0xCD])).source = byteAnswers [0xCD] := by decide

/-- V-UN-5: the stop bit is the last bit of its byte; and a count of 0 from the buffer. -/
theorem witness_UnaryReadCountsToTheStopBit :
    ((reader 0 0 (byteAnswers [0x00, 0x01])).Canonical ∧ 15 < 2 ^ 32 ∧
      (reader 0 0 (byteAnswers [0x00, 0x01])).source = byteAnswers [0x00, 0x01] ++ [] ∧
      (reader 0 0 []).bitsWith [0x00, 0x01] = List.replicate 15 (!true) ++ true :: [] ∧
      ([0x00, 0x01] : List Byte).length = needBytes (reader 0 0 []).cnt.toNat (15 + 1)) ∧
    (reader 0x40 2 []).Canonical ∧ (reader 0x40 2 []).source = byteAnswers [] ++ [] ∧
    (reader 0x40 2 []).bitsWith [] = List.replicate 0 (!false) ++ false :: [true] ∧
    ([] : List Byte).length = needBytes (reader 0x40 2 []).cnt.toNat (0 + 1) := by decide
/-- V-UN-6. -/
theorem witness_UnaryReadFailsWithoutAStopBit :
    (reader 0 0 (byteAnswers [0xFF] ++ .answers (.err 7) :: [])).Canonical ∧ 8 < 2 ^ 32 ∧
    (reader 0 0 (byteAnswers [0xFF] ++ .answers (.err 7) :: [])).source = byteAnswers [0xFF] ++ .answers (.err 7) :: [] ∧
    (reader 0 0 (byteAnswers [0xFF] ++ .answers (.err 7) :: [])).bitsWith [0xFF] = List.replicate 8 (!false) := by decide
theorem witness_UnaryReadIsHeldWithoutAnAnswer :
    (reader 0 0 (byteAnswers [0xFF])).Canonical ∧ 8 < 2 ^ 32 ∧
    (reader 0 0 (byteAnswers [0xFF])).source = byteAnswers [0xFF] ∧
    (reader 0 0 (byteAnswers [0xFF])).bitsWith [0xFF] = List.replicate 8 (!false) := by decide

/-- A `read_unary0` held at the greatest count, over these bytes. -/
def heldUnary (bytes : List Byte) : State :=
  { reader 0 0 (byteAnswers bytes) with uc := 0xFFFFFFFF, busy := some (.unary false) }

theorem bits_of_ones (n : Nat) : (List.replicate n (0xFF : Byte)).flatMap byteBits = List.replicate (8 * n) true := by
  induction n with
  | zero => rfl
  | succ n ih =>
    rw [List.replicate_succ, List.flatMap_cons, ih, show 8 * (n + 1) = 8 + 8 * n by omega, List.replicate_add]
    rfl

/-- 2^29 bytes of 1s, for a `read_unary0`. -/
theorem witness_UnaryCountNeverWraps_long :
    ∃ (c : Nat) (bytes : List Byte), (reader 0 0 (byteAnswers bytes)).Canonical ∧ 2 ^ 32 ≤ c ∧
      (reader 0 0 (byteAnswers bytes)).source = byteAnswers bytes ++ [] ∧
      (reader 0 0 (byteAnswers bytes)).bitsWith bytes = List.replicate c (!false) ++ [] := by
  obtain ⟨n, hn⟩ : ∃ n, 2 ^ 32 ≤ 8 * n := ⟨2 ^ 29, by norm_num⟩
  refine ⟨8 * n, List.replicate n 0xFF, canonical_clear (reader 0 0 (byteAnswers (List.replicate n 0xFF))), hn,
    (List.append_nil _).symm, ?_⟩
  rw [List.append_nil]
  exact bits_of_ones n
/-- A held one before a byte that counts and before one that stops; and two buffered bits. -/
theorem witness_UnaryCountNeverWraps :
    ((heldUnary [0x80]).Inv ∧ (heldUnary [0x80]).busy = some (.unary false) ∧ (heldUnary [0x80]).uc = 0xFFFFFFFF ∧
      (heldUnary [0x80]).source = .answers (.ok [0x80]) :: [] ∧ (0x80 : Byte).getLsbD 7 ≠ false) ∧
    ((heldUnary [0x7F]).Inv ∧ (0x7F : Byte).getLsbD 7 = false) ∧
    ({ reader 0xC0 2 [] with uc := 0xFFFFFFFF }).Canonical ∧
    ({ reader 0xC0 2 [] with uc := 0xFFFFFFFF }).uc = 0xFFFFFFFF ∧
    ({ reader 0xC0 2 [] with uc := 0xFFFFFFFF }).buf = true :: [true] ∧ true ≠ false ∧ true = true := by decide

theorem witness_ByteAlignIsIdempotent : ∃ t, exec .byteAlign (reader 0xA0 5 []) = .next t := ⟨_, rfl⟩
theorem witness_AlignedExactlyOnByteBoundaries :
    (midByte []).Inv ∧ (midByte []).aligned = false ∧ State.reset.Inv ∧ State.reset.aligned = true := by decide
theorem witness_CursorMovesByTheTable :
    (midByte (byteAnswers [0x0F])).Inv ∧
    (∃ t, exec .readUnary1 (midByte (byteAnswers [0x0F])) = .next t ∧ t.busy = none ∧
      t.responses = (midByte []).responses ++ [.ok 0]) ∧
    ∃ t, exec (.readBytes 2) (reader 0 0 [.answers (.err 7)]) = .next t ∧ t.busy = none ∧ t.responses = [] ++ [.ioerr 7] :=
  ⟨by decide, exists_next (by decide), exists_next (by decide)⟩
/-- V-ERR-1, command 3. -/
theorem witness_ErrorLeavesTheReaderAligned :
    (midByte [.answers (.err 7)]).Inv ∧
    ∃ t, exec (.read 8) (midByte [.answers (.err 7)]) = .next t ∧ t.busy = none ∧
      t.responses = (midByte []).responses ++ [.ioerr 7] :=
  ⟨by decide, exists_next (by decide)⟩
theorem witness_ErrorExactlyWhenTheSourceErrs :
    (∃ t, exec (.skip 1) (midByte []) = .next t ∧ t.busy = none ∧ t.responses = (midByte []).responses ++ [.ok 0]) ∧
    ∃ t, exec .readUnary1 (reader 0 0 [.answers (.err 7)]) = .next t ∧ t.busy = none ∧ t.responses = [] ++ [.ioerr 7] :=
  ⟨exists_next (by decide), exists_next (by decide)⟩
theorem witness_OneResponseAfterAllEffects :
    (∃ t, exec (.readBytes 2) (midByte (byteAnswers [1, 2])) = .next t ∧ t.busy = none) ∧
    ∃ t, exec (.readBytes 2) (midByte (byteAnswers [1])) = .next t ∧ t.busy ≠ none :=
  ⟨exists_next (by decide), exists_next (by decide)⟩
theorem witness_SourceRequestsHaveTwoShapes :
    (∃ t, exec (.readBytes 2) (reader 0 0 [.answers (.ok [1, 2])]) = .next t ∧ .srcRead 2 (.ok [1, 2]) ∈ t.trace) ∧
    ∃ t, exec (.readBytes 2) (midByte (byteAnswers [1, 2])) = .next t ∧ .srcRead 1 (.ok [2]) ∈ t.trace :=
  ⟨exists_next (by decide), exists_next (by decide)⟩
theorem witness_DestinationWritesAscend :
    ∃ t, exec (.readBytes 2) (midByte (byteAnswers [1, 2])) = .next t ∧ .dstWrite 1 0x08 ∈ t.trace :=
  exists_next (by decide)
theorem witness_CommandsLeaveTheRestAlone :
    ∃ t, exec (.readBytes 1) (reader 0 0 [.answers (.ok [1]), .delays]) = .next t ∧ t.source = [.delays] :=
  exists_next (by decide)
theorem witness_LegalCommandsHaveNamedRefusalsOnly :
    (Instr.read 9).wf = true ∧ exec (.read 9) (reader 0 0 [.answers (.ok [])]) = .refused (.sourceContract 1 0) :=
  ⟨by decide, rfl⟩
theorem witness_InvariantKeptByEveryStep :
    ({ midByte (byteAnswers [0xCD]) with client := [.command 0x00000203] }).Inv ∧
    (∃ t, step { midByte (byteAnswers [0xCD]) with client := [.command 0x00000203] } = .next t ∧
      t.busy = some (.assemble 2 1 3)) ∧
    (heldRead (byteAnswers [0x5A])).Inv ∧ ∃ t, step (heldRead (byteAnswers [0x5A])) = .next t ∧ t.buf.length = 4 :=
  ⟨by decide, exists_next (by decide), by decide, exists_next (by decide)⟩
theorem witness_ConstructionStartsANewInstance :
    ({ midByte [] with client := [.construct none] }).busy = none ∧
    ({ midByte [] with client := [.construct none] }).client = .construct none :: [] := by decide
theorem witness_ReleaseEndsTheInstance :
    (({ midByte [] with client := [.release] }).busy = none ∧ ({ midByte [] with client := [.release] }).live = true ∧
      ({ midByte [] with client := [.release] }).client = .release :: []) ∧
    ({ heldRead [] with client := [.release] }).busy ≠ none ∧
    ∃ t, step { heldRead [] with client := [.release] } = .next t ∧ t.live = true :=
  ⟨by decide, by decide, exists_next (by decide)⟩
theorem witness_IdleBlockKeepsItsState :
    ((midByte []).busy = none ∧ (midByte []).client = []) ∧
    ({ midByte [] with client := [.attach [(0, 0xEE)]] }).client = .attach [(0, 0xEE)] :: [] := by decide
theorem witness_SourceAnswerLiftsTheHold :
    ((heldRead [.answers (.err 7)]).Inv ∧ (heldRead [.answers (.err 7)]).outstanding = some 1 ∧
      (heldRead [.answers (.err 7)]).source = .answers (.err 7) :: []) ∧
    ((heldRead (byteAnswers [0x5A])).Inv ∧ (heldRead (byteAnswers [0x5A])).outstanding = some 1 ∧
      (heldRead (byteAnswers [0x5A])).source = .answers (.ok [0x5A]) :: [] ∧ ([0x5A] : List Byte).length = 1) ∧
    (∃ t, step (heldRead (byteAnswers [0x5A])) = .next t ∧ t.buf.length = 4) ∧
    { reader 0 0 [.answers (.err 7)] with busy := some (.bulk 2) }.Inv ∧
    { reader 0 0 [.answers (.err 7)] with busy := some (.bulk 2) }.outstanding = some 2 :=
  ⟨by decide, by decide, exists_next (by decide), by decide, by decide⟩
/-- V-RS-4, command 1; V-UN-6; and a command that is held. -/
theorem witness_PortsDriveTheResponse :
    (∃ t, exec (.readSigned 5) (reader 0 0 (byteAnswers [0x83, 0xC0])) = .next t ∧ t.busy = none ∧
      t.responsePort = some (.ok 0xFFFFFFF0) ∧ t.alignedPort = some false) ∧
    (∃ t, exec .readUnary0 (reader 0 0 (byteAnswers [0xFF] ++ [.answers (.err 7)])) = .next t ∧ t.busy = none ∧
      t.responsePort = some (.ioerr 7) ∧ t.alignedPort = some true) ∧
    ∃ t, exec (.readBytes 2) (midByte (byteAnswers [1])) = .next t ∧ t.busy ≠ none :=
  ⟨exists_next (by decide), exists_next (by decide), exists_next (by decide)⟩
theorem witness_AlignedOutputFollowsTheBuffer :
    (midByte []).busy = none ∧ (midByte []).alignedPort = some false ∧ State.reset.busy = none ∧
    State.reset.alignedPort = some true ∧ (heldRead []).busy ≠ none := by decide

end Sys2Proof.Tests
end

/-! The state family: the register image of a buffer, the invariant along every step, and the cursor. -/

namespace Sys2Proof.Machine

open Sys2Proof.Claims

/-! The register image of a buffer (R13). -/

/-- The byte whose top bits are these, with zeros below (R12). -/
def topBits (bits : List Bool) : Byte := (BitVec.ofBoolListBE bits).zeroExtend 8 <<< (8 - bits.length)

theorem getMsbD_topBits {bits : List Bool} (h : bits.length ≤ 8) {i : Nat} (hi : i < bits.length) :
    (topBits bits).getMsbD i = bits[i] := by
  simp [topBits, show i + (8 - bits.length) + bits.length - 8 = i by omega, hi]

theorem shiftLeft_topBits (bits : List Bool) (h : bits.length ≤ 8) : topBits bits <<< bits.length = 0 := by
  rw [topBits, ← BitVec.shiftLeft_add, Nat.sub_add_cancel h]
  exact BitVec.shiftLeft_eq_zero (le_refl 8)

/-- The reader after reset with these bits buffered. -/
def holding (bits : List Bool) : State :=
  { State.reset with sr := topBits bits, cnt := BitVec.ofNat 4 bits.length }

theorem cnt_holding {bits : List Bool} (h : bits.length ≤ 7) : (holding bits).cnt.toNat = bits.length := by
  simp [holding]
  omega

theorem canonical_holding {bits : List Bool} (h : bits.length ≤ 7) : (holding bits).Canonical := by
  rw [State.Canonical, cnt_holding h]
  exact ⟨h, shiftLeft_topBits bits (by omega)⟩

theorem buf_holding {bits : List Bool} (h : bits.length ≤ 7) : (holding bits).buf = bits := by
  have hl : (holding bits).buf.length = bits.length := by rw [length_buf, cnt_holding h]
  refine List.ext_getElem hl fun i _ hi => ?_
  simp only [State.buf, List.getElem_map, List.getElem_range]
  exact getMsbD_topBits (by omega) hi

/-- SR is zero below the buffered bits (R13). -/
theorem State.Canonical.getLsbD_sr {s : State} (h : s.Canonical) {j : Nat} (hj : j < 8 - s.cnt.toNat) :
    s.sr.getLsbD j = false := by
  obtain ⟨-, hz⟩ := h
  have hb : (s.sr <<< s.cnt.toNat).getLsbD (s.cnt.toNat + j) = false := by rw [hz]; exact BitVec.getLsbD_zero
  simpa [-BitVec.getLsbD_eq_getElem, show s.cnt.toNat + j < 8 by omega] using hb

/-- Settles O13: `holding` has each buffer, and a canonical state is told by its buffer. -/
theorem eachBufferHasOneRegisterImage : Obligations.EachBufferHasOneRegisterImage := by
  intro bits h
  refine ⟨holding bits, canonical_holding h, buf_holding h, fun t ht hbuf => ?_⟩
  obtain ⟨hsr, hcnt⟩ := regs_eq_of_buf_eq ht (canonical_holding h) (hbuf.trans (buf_holding h).symm)
  refine ⟨hsr, hcnt, fun j hj => ht.getLsbD_sr ?_⟩
  rwa [← length_buf, hbuf]

/-! The `aligned` output (R16, R50). -/

/-- Settles O58: while the block is idle the output is ALIGNED, and BYTE_ALIGNED responds with the same flag. -/
theorem alignedOutputFollowsTheBuffer : Obligations.AlignedOutputFollowsTheBuffer := by
  refine fun s => ⟨fun hidle => ?_, alignedPort_busy⟩
  rw [alignedPort_idle hidle]
  refine ⟨by simp, by simp [State.aligned], _, _, rfl, responsePort_respond .., alignedPort_idle rfl, ?_⟩
  cases s.aligned <;> simp

/-! The invariant apart from the hold: what a run of bits, a failing request and an unanswered one keep. -/

/-- The invariant but for what a held command looks like. -/
structure State.Sound (s : State) : Prop where
  canonical : s.Canonical
  streamEnd : s.BufferIsStreamEnd
  memories : s.memoriesWf = true

theorem inv_iff (s : State) : s.Inv ↔ s.Sound ∧ s.holdLegal = true :=
  ⟨fun ⟨hc, hb, hh, hm⟩ => ⟨⟨hc, hb, hm⟩, hh⟩, fun ⟨⟨hc, hb, hm⟩, hh⟩ => ⟨hc, hb, hh, hm⟩⟩

/-- Of a state `Sound` sees the buffer, the delivered bytes and the memories, and nothing else. -/
theorem State.Sound.congr {s t : State} (h : s.Sound) (hsr : t.sr = s.sr) (hcnt : t.cnt = s.cnt)
    (hd : t.delivered = s.delivered) (hm : t.memoriesWf = true) : t.Sound := by
  obtain ⟨hstream, hbuf, -, -⟩ := stream_congr hd hsr hcnt
  refine ⟨?_, ?_, hm⟩
  · rw [State.Canonical, hsr, hcnt]
    exact h.canonical
  · rw [State.BufferIsStreamEnd, hstream, hbuf]
    exact h.streamEnd

theorem memoriesWf_iff (s : State) : s.memoriesWf = true ↔ s.dst.wf = true ∧ s.detached.all Memory.wf = true := by
  rw [State.memoriesWf, Bool.and_eq_true]

theorem afterEvent_wf {m : Memory} (ev : Event) (h : m.wf = true) : (afterEvent m ev).wf = true := by
  cases ev with
  | dstWrite i b => exact Memory.write_wf i b h
  | srcRead n a => exact h
  | respond r => exact h

theorem foldl_afterEvent_wf (evs : List Event) {m : Memory} (h : m.wf = true) : (evs.foldl afterEvent m).wf = true := by
  induction evs generalizing m with
  | nil => exact h
  | cons ev evs ih => exact ih (afterEvent_wf ev h)

theorem Consumes.sound {s u : State} {bits : List Bool} {bytes : List Byte} (c : Consumes s u bits bytes)
    (h : s.Sound) : u.Sound where
  canonical := c.canonical h.canonical
  streamEnd := (c.stream_run h.streamEnd).1
  memories := by
    rw [State.memoriesWf, c.dst, c.detached]
    exact h.memories

theorem Fills.sound {i n : Nat} {s u : State} {bits : List Bool} {bytes : List Byte} {evs : List Event}
    (c : Fills i n s u bits bytes evs) (h : s.Sound) : u.Sound where
  canonical := c.canonical h.canonical
  streamEnd := (c.stream_run h.streamEnd).1
  memories := by
    obtain ⟨hdst, hdet⟩ := (memoriesWf_iff s).mp h.memories
    rw [memoriesWf_iff, c.dst, c.detached]
    exact ⟨foldl_afterEvent_wf evs hdst, hdet⟩

theorem StopsAtError.sound {u v : State} {e : Err} (st : StopsAtError u v e) (h : u.Sound) : v.Sound := by
  have hd := st.delivered
  obtain ⟨-, rest, -, rfl⟩ := st
  exact h.congr rfl rfl hd h.memories

theorem StopsUnanswered.sound {u v : State} (st : StopsUnanswered u v) (h : u.Sound) : v.Sound := by
  obtain ⟨-, ⟨-, rfl⟩ | ⟨rest, -, rfl⟩⟩ := st
  · exact h
  · exact h.congr rfl rfl rfl h.memories

theorem sound_dstWriteAll (i : Nat) (bytes : List Byte) {s : State} (h : s.Sound) : (dstWriteAll i bytes s).Sound := by
  refine h.congr ?_ ?_ (dstWriteAll_delivered i bytes s) ?_
  · rw [dstWriteAll_eq]
  · rw [dstWriteAll_eq]
  · obtain ⟨hdst, hdet⟩ := (memoriesWf_iff s).mp h.memories
    rw [dstWriteAll_eq, memoriesWf_iff]
    exact ⟨Memory.foldl_write_wf _ hdst, hdet⟩

/-- An empty buffer is the end of every stream. -/
theorem sound_of_aligned {s : State} (hsr : s.sr = 0) (hcnt : s.cnt = 0) (hm : s.memoriesWf = true) : s.Sound where
  canonical := by rw [State.Canonical, hsr, hcnt]; decide
  streamEnd := by
    rw [State.BufferIsStreamEnd, (buf_eq_nil_iff s).mpr hcnt]
    exact List.nil_suffix
  memories := hm

/-- A request on an empty buffer, whatever it delivers, leaves the buffer the end of the stream. -/
theorem State.Sound.served {s t : State} (h : s.Sound) (h0 : s.cnt = 0) (hsr : t.sr = s.sr) (hcnt : t.cnt = s.cnt)
    (hm : t.memoriesWf = s.memoriesWf) : t.Sound :=
  sound_of_aligned (hsr.trans (sr_eq_zero_of_aligned h.canonical h0)) (hcnt.trans h0) (hm.trans h.memories)

/-! The three ends of a command meet the invariant. -/

theorem holdLegal_idle {s : State} (h : s.busy = none) : s.holdLegal = true := by rw [State.holdLegal, h]

theorem holdLegal_busy {s : State} {k : Task} (h : s.busy = some k) :
    s.holdLegal = true ↔ s.live = true ∧ s.cnt = 0 ∧ k.legal s.acc = true := by
  simp [State.holdLegal, h, and_assoc]

theorem State.Sound.inv_of_idle {s : State} (h : s.Sound) (hidle : s.busy = none) : s.Inv :=
  (inv_iff s).mpr ⟨h, holdLegal_idle hidle⟩

theorem inv_respond (r : Response) {u : State} (h : u.Sound) : (respond r u).Inv :=
  (h.congr (t := respond r u) rfl rfl (by simp [State.delivered]) h.memories).inv_of_idle rfl

theorem inv_raiseIOError (e : Err) {u : State} (h : u.Sound) : (raiseIOError e u).Inv := inv_respond _ h

theorem inv_holdOn {k : Task} {u : State} (h : u.Sound) (hl : u.live = true) (h0 : u.cnt = 0)
    (hk : k.legal u.acc = true) : (holdOn k u).Inv :=
  (inv_iff _).mpr ⟨h.congr rfl rfl rfl h.memories, (holdLegal_busy rfl).mpr ⟨hl, h0, hk⟩⟩

/-- A hold at an unanswered request, from the state in which the request was made. -/
theorem StopsUnanswered.inv {k : Task} {u v : State} (st : StopsUnanswered u v) (h : u.Sound) (hl : u.live = true)
    (hk : k.legal u.acc = true) : (holdOn k v).Inv := by
  have hv := st.sound h
  rcases st with ⟨h0, ⟨-, rfl⟩ | ⟨rest, -, rfl⟩⟩ <;> exact inv_holdOn hv hl h0 hk

/-! What is left of a held command, and what ACC holds by then (R80, R146). -/

theorem legal_extract_iff (op : Extract) (n left : Nat) (acc : Word) :
    (Task.extract op n left).legal acc = true ↔ legalBits n ∧ 1 ≤ left ∧ left ≤ n ∧ acc.toNat < 2 ^ (n - left) := by
  simp [Task.legal, and_assoc]

theorem legal_bulk_iff (len : Nat) (acc : Word) : (Task.bulk len).legal acc = true ↔ 1 ≤ len ∧ legalLen len := by
  simp [Task.legal]

theorem legal_assemble_iff (len i left : Nat) (acc : Word) :
    (Task.assemble len i left).legal acc = true ↔
      legalLen len ∧ i < len ∧ 1 ≤ left ∧ left ≤ 7 ∧ acc.toNat < 2 ^ (8 - left) := by
  simp [Task.legal, and_assoc]

theorem legal_unary_iff (stop : Bool) (acc : Word) : (Task.unary stop).legal acc = true ↔ acc = 0 := by
  simp [Task.legal]

/-- Taking in bits from a pattern of `k` bits gives a pattern of as many bits more (R80). -/
theorem toNat_foldl_shiftInBit_lt {acc : Word} {k : Nat} (h : acc.toNat < 2 ^ k) (bits : List Bool) :
    (bits.foldl shiftInBit acc).toNat < 2 ^ (k + bits.length) := by
  have hb := natOfBits_lt bits
  rw [toNat_foldl_shiftInBit]
  calc (acc.toNat * 2 ^ bits.length + natOfBits bits) % 2 ^ 32
      ≤ acc.toNat * 2 ^ bits.length + natOfBits bits := Nat.mod_le _ _
    _ < (acc.toNat + 1) * 2 ^ bits.length := by rw [Nat.add_mul, Nat.one_mul]; omega
    _ ≤ 2 ^ k * 2 ^ bits.length := Nat.mul_le_mul_right _ h
    _ = 2 ^ (k + bits.length) := (pow_add ..).symm

theorem toNat_ofNat_natOfBits_lt (bits : List Bool) : (BitVec.ofNat 32 (natOfBits bits)).toNat < 2 ^ bits.length := by
  rw [BitVec.toNat_ofNat]
  exact (Nat.mod_le _ _).trans_lt (natOfBits_lt bits)

/-! Every command keeps the invariant, from its start and taken up again. -/

section Commands

variable {s t : State} (hs : s.Sound) (hl : s.live = true)
include hs hl

theorem runExtract_inv {op : Extract} {n : Nat} (h : runExtract op n s = .next t) : t.Inv := by
  by_cases hn : legalBits n
  · rcases runExtract_cases op hn s with ⟨u, bits, _, h', c, -, -⟩ | ⟨e, u, v, bits, _, h', c, st, -, -⟩ |
      ⟨left, u, v, bits, _, h', c, st, h1, hlen, hacc, -⟩ | ⟨k, h', -⟩ <;> rw [h'] at h <;> cases h
    · exact inv_respond _ (c.sound hs)
    · exact inv_raiseIOError _ (st.sound (c.sound hs))
    · refine st.inv (c.sound hs) (c.live.trans hl) ((legal_extract_iff ..).mpr ⟨hn, h1, by omega, ?_⟩)
      rw [hacc, show n - left = bits.length by omega]
      exact toNat_ofNat_natOfBits_lt bits
  · rw [runExtract, if_neg hn] at h
    cases h

theorem resumeExtract_inv {op : Extract} {n left : Nat} (hk : (Task.extract op n left).legal s.acc = true)
    (h : resumeExtract op n left s = .next t) : t.Inv := by
  obtain ⟨hn, -, hle, hacc⟩ := (legal_extract_iff ..).mp hk
  rcases resumeExtract_cases op n left s with ⟨u, bits, _, h', c, -, -⟩ | ⟨e, u, v, bits, _, h', c, st, -, -⟩ |
    ⟨left', u, v, bits, _, h', c, st, h1, hlen, hacc', -⟩ | ⟨k, h', -⟩ <;> rw [h'] at h <;> cases h
  · exact inv_respond _ (c.sound hs)
  · exact inv_raiseIOError _ (st.sound (c.sound hs))
  · refine st.inv (c.sound hs) (c.live.trans hl) ((legal_extract_iff ..).mpr ⟨hn, h1, by omega, ?_⟩)
    rw [hacc', show n - left' = n - left + bits.length by omega]
    exact toNat_foldl_shiftInBit_lt hacc bits

theorem bulkRead_inv {len : Nat} (h0 : s.cnt = 0) (hlen : legalLen len) (h : bulkRead len s = .next t) : t.Inv := by
  rcases bulkRead_cases len s with ⟨-, h'⟩ | ⟨-, bytes, rest, -, -, h'⟩ | ⟨-, e, rest, -, h'⟩ | ⟨hne, -, h'⟩ |
    ⟨hne, rest, -, h'⟩ | ⟨-, k, h', -⟩ <;> rw [h'] at h <;> cases h
  · exact inv_respond _ (hs.served h0 rfl rfl rfl)
  · exact inv_respond _ (sound_dstWriteAll _ _ (hs.served h0 rfl rfl rfl))
  · exact inv_raiseIOError _ (hs.served h0 rfl rfl rfl)
  · exact inv_holdOn hs hl h0 ((legal_bulk_iff ..).mpr ⟨Nat.one_le_iff_ne_zero.mpr hne, hlen⟩)
  · exact inv_holdOn (hs.served h0 rfl rfl rfl) hl h0 ((legal_bulk_iff ..).mpr ⟨Nat.one_le_iff_ne_zero.mpr hne, hlen⟩)

/-- The byte loop on an unaligned buffer: the bits that are there never fill a whole number of bytes, so a byte that is
held has at least one bit already (R102). -/
theorem finishBytes_inv {len n i : Nat} (h0 : s.cnt ≠ 0) (hlen : legalLen len) (hn : i + n ≤ len)
    (h : finishBytes len (fillBytes n i s) = .next t) : t.Inv := by
  rcases finishBytes_cases len n i s with ⟨u, _, _, _, h', c, -⟩ | ⟨e, u, v, _, _, _, m, h', c, st, -⟩ |
    ⟨left, u, v, bits, bytes, _, m, h', c, st, hm, h1, -, hbits, last, hlast, hacc, -⟩ | ⟨k, h', -⟩ <;>
    rw [h'] at h <;> cases h
  · exact inv_respond _ (c.sound hs)
  · exact inv_raiseIOError _ (st.sound (c.sound hs))
  · have h7 : left ≤ 7 := by
      have hcnt : s.cnt.toNat ≤ 7 := hs.canonical.1
      have hpos := (cnt_pos_iff s).mpr h0
      have hall := congrArg List.length c.stream
      rw [length_bitsWith, List.length_append, (buf_eq_nil_iff u).mpr st.1, List.length_nil] at hall
      omega
    refine st.inv (c.sound hs) (c.live.trans hl) ((legal_assemble_iff ..).mpr ⟨hlen, by omega, h1, h7, ?_⟩)
    rw [hacc, show 8 - left = last.length by omega]
    exact toNat_ofNat_natOfBits_lt last

theorem resumeAssemble_inv {len i left : Nat} (h0 : s.cnt = 0) (hk : (Task.assemble len i left).legal s.acc = true)
    (h : resumeAssemble len i left s = .next t) : t.Inv := by
  obtain ⟨hlen, hi, h1, h7, hacc⟩ := (legal_assemble_iff ..).mp hk
  rw [resumeAssemble] at h
  rcases resumeBits_consumes left s with ⟨u, bits, bytes, h', c, hbits, -⟩ | ⟨e, u, v, _, _, h', c, st, -, -⟩ |
    ⟨left', u, v, bits, _, h', c, st, h1', hbits, hacc', -, -⟩ | ⟨k, h', -⟩ <;> rw [h'] at h
  · have hu : u.cnt ≠ 0 := by
      have hcnt : s.cnt.toNat = 0 := congrArg BitVec.toNat h0
      have hlength := c.length
      rw [← cnt_pos_iff]
      omega
    have hw := (dstWrite_fills i (lowByte (bits.foldl shiftInBit s.acc)) u).sound (c.sound hs)
    exact finishBytes_inv hw (c.live.trans hl) hu hlen (by omega) h
  · cases h
    exact inv_raiseIOError _ (st.sound (c.sound hs))
  · cases h
    refine st.inv (c.sound hs) (c.live.trans hl) ((legal_assemble_iff ..).mpr ⟨hlen, hi, h1', by omega, ?_⟩)
    rw [hacc', show 8 - left' = 8 - left + bits.length by omega]
    exact toNat_foldl_shiftInBit_lt hacc bits
  · cases h

theorem resumeUnary_inv {stop : Bool} (h : resumeUnary stop s = .next t) : t.Inv := by
  rcases resumeUnary_cases stop s with ⟨u, _, _, h', c, -⟩ | ⟨e, u, v, _, _, h', c, st, -⟩ |
    ⟨u, v, _, _, h', c, st, -, -, hacc⟩ | ⟨k, h', -⟩ | ⟨h', -⟩ <;> rw [h'] at h <;> cases h
  · exact inv_respond _ (c.sound hs)
  · exact inv_raiseIOError _ (st.sound (c.sound hs))
  · exact st.inv (c.sound hs) (c.live.trans hl) ((legal_unary_iff ..).mpr hacc)

theorem runUnary_inv {stop : Bool} (h : runUnary stop s = .next t) : t.Inv :=
  resumeUnary_inv (hs.congr (t := { s with uc := 0 }) rfl rfl rfl hs.memories) hl h

theorem execReadBytes_inv {len : Nat} (h : execReadBytes len s = .next t) : t.Inv := by
  rw [execReadBytes] at h
  split at h
  · next hlen =>
    split at h
    · next ha => exact bulkRead_inv hs hl ((aligned_iff s).mp ha) hlen h
    · next ha => exact finishBytes_inv hs hl (mt (aligned_iff s).mpr ha) hlen (by omega) h
  · cases h

/-- Every command of a live reader keeps the invariant. -/
theorem exec_inv {i : Instr} (h : exec i s = .next t) : t.Inv := by
  cases i with
  | read n => exact runExtract_inv (op := .read) hs hl h
  | readSigned n => exact runExtract_inv (op := .readSigned) hs hl h
  | skip n => exact runExtract_inv (op := .skip) hs hl h
  | readBytes len => exact execReadBytes_inv hs hl h
  | readUnary0 => exact runUnary_inv (stop := false) hs hl h
  | readUnary1 => exact runUnary_inv (stop := true) hs hl h
  | byteAligned => exact next_inj h ▸ inv_respond _ hs
  | byteAlign => exact next_inj h ▸ inv_respond _ (sound_of_aligned rfl rfl hs.memories)

/-- A held command keeps the invariant when it goes on. -/
theorem resumeTask_inv {k : Task} (h0 : s.cnt = 0) (hk : k.legal s.acc = true) (h : resumeTask k s = .next t) :
    t.Inv := by
  cases k with
  | extract op n left => exact resumeExtract_inv hs hl hk h
  | bulk len => exact bulkRead_inv hs hl h0 ((legal_bulk_iff ..).mp hk).2 h
  | assemble len i left => exact resumeAssemble_inv hs hl h0 hk h
  | unary stop => exact resumeUnary_inv hs hl h

end Commands

/-! The client's moves keep the invariant. -/

/-- What a step of an idle block can be (R166): nothing, a command, or another move of the client. -/
inductive IdleStep (s t : State) : Prop where
  /-- The client makes no move. -/
  | idle (hc : s.client = []) (ht : t = s)
  /-- It presents a command, and the live reader runs it. -/
  | runs (w : Word) (i : Instr) (rest : List ClientMove) (hc : s.client = .command w :: rest) (hl : s.live = true)
    (hw : decode w = .ok i) (ht : exec i { s with client := rest } = .next t)
  /-- It attaches a destination buffer. -/
  | attaches (cells : Memory) (rest : List ClientMove) (hc : s.client = .attach cells :: rest)
    (ht : t = attachBuffer cells { s with client := rest })
  /-- It constructs a new reader. -/
  | constructs (src : Option (List SrcMove)) (rest : List ClientMove) (hc : s.client = .construct src :: rest)
    (ht : t = construct src { s with client := rest })
  /-- It releases the live reader. -/
  | releases (rest : List ClientMove) (hc : s.client = .release :: rest) (hl : s.live = true)
    (ht : t = releaseInstance { s with client := rest })

theorem idleStep_of_step {s t : State} (hidle : s.busy = none) (h : step s = .next t) : IdleStep s t := by
  rw [step, hidle] at h
  match hc : s.client with
  | [] =>
    simp only [clientTurn, hc] at h
    exact .idle hc (next_inj h).symm
  | .command w :: rest =>
    simp only [clientTurn, hc, presentCommand] at h
    by_cases hl : s.live = true
    · rw [if_pos hl] at h
      cases hw : decode w with
      | ok i => exact .runs w i rest hc hl hw (by simpa only [hw] using h)
      | error c => simp [hw] at h
    · simp [hl] at h
  | .attach cells :: rest =>
    simp only [clientTurn, hc] at h
    exact .attaches cells rest hc (next_inj h).symm
  | .construct src :: rest =>
    simp only [clientTurn, hc] at h
    exact .constructs src rest hc (next_inj h).symm
  | .release :: rest =>
    simp only [clientTurn, hc] at h
    by_cases hl : s.live = true
    · rw [if_pos hl] at h
      exact .releases rest hc hl (next_inj h).symm
    · simp [hl] at h

theorem inv_attachBuffer (cells : Memory) {s : State} (h : s.Sound) (hidle : s.busy = none) :
    (attachBuffer cells s).Inv := by
  refine State.Sound.inv_of_idle (h.congr rfl rfl rfl ?_) hidle
  obtain ⟨hdst, hdet⟩ := (memoriesWf_iff s).mp h.memories
  rw [memoriesWf_iff, attachBuffer_dst, attachBuffer_detached, List.all_append, hdet]
  exact ⟨Memory.ofCells_wf cells, by simp [hdst]⟩

theorem inv_construct (src : Option (List SrcMove)) {s : State} (hm : s.memoriesWf = true) : (construct src s).Inv :=
  State.Sound.inv_of_idle (sound_of_aligned rfl rfl hm) rfl

theorem inv_releaseInstance {s : State} (h : s.Sound) (hidle : s.busy = none) : (releaseInstance s).Inv :=
  State.Sound.inv_of_idle (h.congr rfl rfl rfl h.memories) hidle

theorem IdleStep.inv {s t : State} (h : IdleStep s t) (hs : s.Sound) (hidle : s.busy = none) : t.Inv := by
  have hrest : ∀ rest, ({ s with client := rest }).Sound := fun rest => hs.congr rfl rfl rfl hs.memories
  cases h with
  | idle _ ht => exact ht ▸ hs.inv_of_idle hidle
  | runs w i rest _ hl _ ht => exact exec_inv (hrest rest) hl ht
  | attaches cells rest _ ht => exact ht ▸ inv_attachBuffer cells (hrest rest) hidle
  | constructs src rest _ ht => exact ht ▸ inv_construct src hs.memories
  | releases rest _ _ ht => exact ht ▸ inv_releaseInstance (hrest rest) hidle

/-- Settles O50: an idle step is a move of the client, a held one takes its command up again, and each keeps the
invariant. -/
theorem invariantKeptByEveryStep : Obligations.InvariantKeptByEveryStep := by
  intro s t hinv h
  obtain ⟨hs, hhold⟩ := (inv_iff s).mp hinv
  cases hbusy : s.busy with
  | none => exact (idleStep_of_step hbusy h).inv hs hbusy
  | some k =>
    obtain ⟨hl, h0, hk⟩ := (holdLegal_busy hbusy).mp hhold
    rw [step, hbusy] at h
    exact resumeTask_inv hs hl h0 hk h

/-- Settles O51: after reset nothing is buffered, no command is in progress and no byte is listed. -/
theorem resetMeetsTheInvariant : Obligations.ResetMeetsTheInvariant :=
  (sound_of_aligned rfl rfl rfl).inv_of_idle rfl

/-! Responses: none while a command runs, one at its end. -/

theorem StopsAtError.responses {u v : State} {e : Err} (st : StopsAtError u v e) : v.responses = u.responses := by
  obtain ⟨-, rest, -, rfl⟩ := st
  simp [State.responses]

theorem StopsUnanswered.responses {u v : State} (st : StopsUnanswered u v) : v.responses = u.responses := by
  rw [State.responses, st.trace, State.responses]

theorem Fills.responses_eq {i n : Nat} {s u : State} {bits : List Bool} {bytes : List Byte} {evs : List Event}
    (c : Fills i n s u bits bytes evs) : u.responses = s.responses := by
  rw [State.responses, c.trace, List.filterMap_append, c.responses, List.append_nil, State.responses]

theorem Effects.responses {i : Instr} {s u : State} {evs : List Event} (c : Effects i s u evs) :
    u.responses = s.responses := by
  have hnone : evs.filterMap Event.response = [] := by
    refine List.filterMap_eq_nil_iff.mpr fun ev hev => ?_
    cases ev with
    | respond r => exact absurd hev (c.noResponse r)
    | srcRead n a => rfl
    | dstWrite i b => rfl
  rw [State.responses, c.trace, List.filterMap_append, hnone, List.append_nil, State.responses]

/-- The response a command completes with is the one it gives. -/
theorem response_eq_of_completes {s u : State} {r r' : Response} (hu : u.responses = s.responses)
    (h : Completes s (respond r u) r') : r = r' := by
  have hr := h.2
  rw [responses_respond, hu] at hr
  simpa using hr

/-- A command that is held does not complete. -/
theorem not_completes_holdOn {s u : State} {k : Task} {r : Response} : ¬ Completes s (holdOn k u) r := by
  rintro ⟨hbusy, -⟩
  cases hbusy

/-! The cursor after each command that completed with status OK (R19). -/

@[simp] theorem delivered_respond (r : Response) (s : State) : (respond r s).delivered = s.delivered := by
  simp [State.delivered]

@[simp] theorem nb_respond (r : Response) (s : State) : (respond r s).nb = s.nb := by simp [State.nb]

@[simp] theorem pos_respond (r : Response) (s : State) : (respond r s).pos = s.pos := by simp [State.pos]

theorem responses_dstWriteAll (i : Nat) (bytes : List Byte) (s : State) :
    (dstWriteAll i bytes s).responses = s.responses := by
  rw [dstWriteAll_eq]
  simp [State.responses, List.filterMap_map, Function.comp_def]

/-- On an empty buffer the cursor moves over whatever is delivered. -/
theorem pos_of_delivered {s u : State} {bytes : List Byte} (h0 : s.cnt = 0) (hu : u.cnt = s.cnt)
    (hd : u.delivered = s.delivered ++ bytes) : u.pos = s.pos + 8 * bytes.length := by
  rw [pos_of_aligned h0, pos_of_aligned (hu.trans h0), State.nb, State.nb, hd, List.length_append, Nat.mul_add]

/-- The aligned path of READ_BYTES consumes all that is delivered; a failing request delivers nothing (R101, R103). -/
theorem bulkRead_pos {len : Nat} {s t : State} {r : Response} (h0 : s.cnt = 0) (hc : Completes s t r)
    (h : bulkRead len s = .next t) :
    (r = .ok 0 ∧ t.pos = s.pos + 8 * len) ∨ ((∃ e, r = .ioerr e) ∧ t.pos = s.pos) := by
  rcases bulkRead_cases len s with ⟨rfl, h'⟩ | ⟨-, bytes, rest, -, rfl, h'⟩ | ⟨-, e, rest, -, h'⟩ | ⟨-, -, h'⟩ |
    ⟨-, rest, -, h'⟩ | ⟨-, k, h', -⟩ <;> rw [h'] at h <;> cases h
  · refine .inl ⟨(response_eq_of_completes (by simp [State.responses]) hc).symm, ?_⟩
    exact pos_of_delivered (bytes := []) h0 rfl (by simp [State.delivered])
  · refine .inl ⟨(response_eq_of_completes (by rw [responses_dstWriteAll]; simp [State.responses]) hc).symm, ?_⟩
    refine pos_of_delivered h0 (by rw [dstWriteAll_eq]; rfl) ?_
    rw [delivered_respond, dstWriteAll_delivered]
    simp [State.delivered]
  · refine .inr ⟨⟨e, (response_eq_of_completes (by simp [State.responses]) hc).symm⟩, ?_⟩
    exact pos_of_delivered (bytes := []) h0 rfl (by simp [State.delivered])
  · exact absurd hc not_completes_holdOn
  · exact absurd hc not_completes_holdOn

section Cursor

variable {s t : State} {v : Word} (hs : s.BufferIsStreamEnd) (hc : Completes s t (.ok v))
include hs hc

theorem runExtract_pos {op : Extract} {n : Nat} (h : runExtract op n s = .next t) : t.pos = s.pos + n := by
  by_cases hn : legalBits n
  · rcases runExtract_cases op hn s with ⟨u, bits, _, h', c, hlen, -⟩ | ⟨e, u, w, _, _, h', c, st, -, -⟩ |
      ⟨left, u, w, _, _, h', -⟩ | ⟨k, h', -⟩ <;> rw [h'] at h <;> cases h
    · obtain ⟨-, hp, -⟩ := c.stream_run hs
      rw [pos_respond, hp, hlen]
    · cases response_eq_of_completes (st.responses.trans c.responses) hc
    · exact absurd hc not_completes_holdOn
  · rw [runExtract, if_neg hn] at h
    cases h

theorem runUnary_pos {stop : Bool} (h : runUnary stop s = .next t) : t.pos = s.pos + v.toNat + 1 := by
  rw [runUnary] at h
  rcases resumeUnary_cases stop { s with uc := 0 } with ⟨u, k, _, h', c, hk⟩ | ⟨e, u, w, k, _, h', c, st, -⟩ |
    ⟨u, w, k, _, h', -⟩ | ⟨k, h', -⟩ | ⟨h', -⟩ <;> rw [h'] at h <;> cases h
  · have hv : v.toNat = k := by
      cases response_eq_of_completes c.responses hc
      simpa using hk
    obtain ⟨-, hp, -⟩ := c.stream_run hs
    rw [List.length_append, List.length_replicate] at hp
    rw [pos_respond, hp, hv]
    rfl
  · cases response_eq_of_completes (st.responses.trans c.responses) hc
  · exact absurd hc not_completes_holdOn

theorem execReadBytes_pos {len : Nat} (h : execReadBytes len s = .next t) : t.pos = s.pos + 8 * len := by
  rw [execReadBytes] at h
  split at h
  · split at h
    · next ha =>
      rcases bulkRead_pos ((aligned_iff s).mp ha) hc h with ⟨-, hp⟩ | ⟨⟨e, he⟩, -⟩
      · exact hp
      · cases he
    · rcases finishBytes_cases len len 0 s with ⟨u, bits, _, _, h', c, hlen⟩ | ⟨e, u, w, _, _, _, m, h', c, st, -⟩ |
        ⟨left, u, w, _, _, _, m, h', -⟩ | ⟨k, h', -⟩ <;> rw [h'] at h <;> cases h
      · obtain ⟨-, hp, -⟩ := c.stream_run hs
        rw [pos_respond, hp, hlen]
      · cases response_eq_of_completes (st.responses.trans c.responses_eq) hc
      · exact absurd hc not_completes_holdOn
  · cases h

end Cursor

/-- BYTE_ALIGN moves the cursor over the buffered bits, at most seven, to the end of the stream (R121, R122). -/
theorem byteAlign_cursor {s t : State} (hs : s.Sound) (h : exec .byteAlign s = .next t) (v : Word) :
    CursorAfter .byteAlign s t (.ok v) := by
  obtain rfl := next_inj h
  have hle := cnt_le_of_streamEnd hs.streamEnd
  have h7 : s.cnt.toNat ≤ 7 := hs.canonical.1
  have hpos : (respond (.ok 0) (clearBuffer s)).pos = 8 * s.nb := by
    rw [pos_respond]
    exact pos_of_aligned rfl
  simp only [CursorAfter, length_buf, hpos, true_and]
  rw [State.pos]
  omega

/-- R19's rows for the commands that complete OK. -/
theorem cursorAfter_ok {i : Instr} {s t : State} {v : Word} (hs : s.Sound) (h : exec i s = .next t)
    (hc : Completes s t (.ok v)) : CursorAfter i s t (.ok v) := by
  have hb := hs.streamEnd
  cases i with
  | read n => exact runExtract_pos (op := .read) hb hc h
  | readSigned n => exact runExtract_pos (op := .readSigned) hb hc h
  | skip n => exact runExtract_pos (op := .skip) hb hc h
  | readBytes len => exact execReadBytes_pos hb hc h
  | readUnary0 => exact runUnary_pos (stop := false) hb hc h
  | readUnary1 => exact runUnary_pos (stop := true) hb hc h
  | byteAligned => exact next_inj h ▸ pos_respond _ s
  | byteAlign => exact byteAlign_cursor hs h v

theorem pos_le_of_cursorAfter_ok {i : Instr} {s t : State} {v : Word} (h : CursorAfter i s t (.ok v)) :
    s.pos ≤ t.pos := by
  cases i with
  | byteAlign =>
    obtain ⟨-, -, hle, -⟩ := h
    exact hle
  | byteAligned => exact h.ge
  | _ => simp only [CursorAfter] at h; omega

/-! The cursor after a command that completed with status IOERR (R19): every delivered bit is consumed. -/

theorem cnt_of_ioerr {i : Instr} {s t : State} {e : Err} (h : exec i s = .next t) (hc : Completes s t (.ioerr e)) :
    t.cnt = 0 := by
  cases exec_ends h with
  | ok u evs v he ht =>
    subst ht
    cases response_eq_of_completes he.responses hc
  | err u evs n e' rest _ _ _ h0 ht => exact ht ▸ h0
  | hold u evs k src _ _ _ ht =>
    subst ht
    exact absurd hc not_completes_holdOn

/-- No command takes back what was delivered. -/
theorem nb_le_of_exec {i : Instr} {s t : State} (h : exec i s = .next t) : s.nb ≤ t.nb := by
  have key : ∀ evs, t.trace = s.trace ++ evs → s.nb ≤ t.nb := fun evs htr => by
    simp [State.nb, State.delivered, htr]
  cases exec_ends h with
  | ok u evs v he ht => exact key (evs ++ [.respond (.ok v)]) (by simp [ht, he.trace])
  | err u evs n e rest he _ _ _ ht =>
    exact key (evs ++ [.srcRead n (.err e), .respond (.ioerr e)]) (by simp [ht, he.trace])
  | hold u evs k src he _ _ ht => exact key evs (by simp [ht, he.trace])

/-- R19's rows for the commands that complete IOERR. -/
theorem cursorAfter_ioerr {i : Instr} {s t : State} {e : Err} (h : exec i s = .next t)
    (hc : Completes s t (.ioerr e)) : CursorAfter i s t (.ioerr e) := by
  refine ⟨pos_of_aligned (cnt_of_ioerr h hc), ?_⟩
  rintro len rfl ha
  change execReadBytes len s = .next t at h
  rw [execReadBytes, if_pos ha] at h
  split at h
  · rcases bulkRead_pos ((aligned_iff s).mp ha) hc h with ⟨hr, -⟩ | ⟨-, hp⟩
    · cases hr
    · exact hp
  · cases h

theorem pos_le_of_ioerr {i : Instr} {s t : State} {e : Err} (h : exec i s = .next t)
    (hc : Completes s t (.ioerr e)) : s.pos ≤ t.pos := by
  have hnb := nb_le_of_exec h
  rw [pos_of_aligned (cnt_of_ioerr h hc), State.pos]
  omega

/-- Settles O41: the table of R19 by response, and that no row moves the cursor back. -/
theorem cursorMovesByTheTable : Obligations.CursorMovesByTheTable := by
  intro i s t r hinv h hc
  obtain ⟨hs, -⟩ := (inv_iff s).mp hinv
  cases r with
  | ok v =>
    have hcur := cursorAfter_ok hs h hc
    exact ⟨hcur, pos_le_of_cursorAfter_ok hcur⟩
  | ioerr e => exact ⟨cursorAfter_ioerr h hc, pos_le_of_ioerr h hc⟩

end Sys2Proof.Machine

/-! The memory family: the requests made of the source, the writes to the destination, and what no command touches. -/

namespace Sys2Proof.Machine

/-! What a command still does once its effects are complete: its response, after a request that failed, if one did. -/

/-- An event with which the command `i`, begun in `s`, may end: its response, or a request of a legal shape (R35)
answered with an error. It never is a write. -/
def ClosingEvent (i : Instr) (s : State) : Event → Prop
  | .srcRead n a => (n = 1 ∨ i = .readBytes n ∧ s.aligned = true) ∧ ∃ e, a = .err e
  | .dstWrite _ _ => False
  | .respond _ => True

/-- The three ends of a command, said at once: after its effects there are closing events, the source's turns may be
used up further, and the block is idle or held. -/
theorem exec_closes {i : Instr} {s t : State} (h : exec i s = .next t) :
    ∃ u evs last busy src, Effects i s u evs ∧ (∀ ev ∈ last, ClosingEvent i s ev) ∧ src <:+ u.source ∧
      t = { u with busy := busy, source := src, trace := u.trace ++ last } := by
  cases exec_ends h with
  | ok u evs v he ht =>
    exact ⟨u, evs, [.respond (.ok v)], none, u.source, he, by simp [ClosingEvent], List.suffix_refl _, ht⟩
  | err u evs n e rest he hn hsrc _ ht =>
    refine ⟨u, evs, [.srcRead n (.err e), .respond (.ioerr e)], none, rest, he, ?_, ?_, ?_⟩
    · simpa [ClosingEvent] using hn
    · rw [hsrc]
      exact List.suffix_cons _ _
    · rw [ht, raiseIOError, respond, State.record, List.append_assoc]
      rfl
  | hold u evs k src he hsrc _ ht =>
    refine ⟨u, evs, [], some k, src, he, by simp, hsrc, ?_⟩
    rw [ht, List.append_nil]
    rfl

theorem ClosingEvent.writeIndex_eq_none {i : Instr} {s : State} {ev : Event} (h : ClosingEvent i s ev) :
    writeIndex ev = none := by
  cases ev with
  | dstWrite j b => exact h.elim
  | srcRead n a => rfl
  | respond r => rfl

/-! The destination after a record of events. -/

/-- An event that is no write leaves the destination as it was. -/
theorem afterEvent_of_writeIndex_eq_none {ev : Event} (h : writeIndex ev = none) (m : Memory) :
    afterEvent m ev = m := by
  cases ev with
  | dstWrite i b => cases h
  | srcRead n a => rfl
  | respond r => rfl

/-- A write leaves every other index as it was (R42). -/
theorem read_afterEvent_of_ne {ev : Event} {j : Nat} (h : writeIndex ev ≠ some j) (m : Memory) :
    (afterEvent m ev).read j = m.read j := by
  cases ev with
  | dstWrite i b =>
    have hj : j ≠ i := fun hji => h (congrArg some hji.symm)
    rw [afterEvent, Memory.read_write, if_neg hj]
  | srcRead n a => rfl
  | respond r => rfl

theorem foldl_afterEvent_of_no_write {evs : List Event} (h : ∀ ev ∈ evs, writeIndex ev = none) (m : Memory) :
    evs.foldl afterEvent m = m := by
  induction evs with
  | nil => rfl
  | cons ev evs ih =>
    obtain ⟨hev, hevs⟩ := List.forall_mem_cons.mp h
    rw [List.foldl_cons, afterEvent_of_writeIndex_eq_none hev]
    exact ih hevs

/-- The destination reads as before at every index that is not written (R42). -/
theorem read_foldl_afterEvent_of_notMem {evs : List Event} {j : Nat} (h : j ∉ evs.filterMap writeIndex) (m : Memory) :
    (evs.foldl afterEvent m).read j = m.read j := by
  induction evs generalizing m with
  | nil => rfl
  | cons ev evs ih =>
    simp only [List.mem_filterMap, List.mem_cons, not_exists, not_and] at h ih
    rw [List.foldl_cons, ih fun e he => h e (.inr he), read_afterEvent_of_ne (h ev (.inl rfl))]

/-! The obligations. -/

/-- Settles O45: the requests of the effects have the two shapes, and so has the failing one after them. -/
theorem sourceRequestsHaveTwoShapes : Obligations.SourceRequestsHaveTwoShapes := by
  intro i s t h
  obtain ⟨u, evs, last, busy, src, he, hlast, -, rfl⟩ := exec_closes h
  refine ⟨evs ++ last, by simp [he.trace], fun n a hm => ?_⟩
  rcases List.mem_append.mp hm with hm | hm
  · exact he.requests n a hm
  · obtain ⟨hshape, e, rfl⟩ := hlast _ hm
    exact ⟨hshape, fun bytes hok => by cases hok⟩

/-- Settles O46: the writes are those of the effects, since no closing event is one. -/
theorem destinationWritesAscend : Obligations.DestinationWritesAscend := by
  intro i s t h
  obtain ⟨u, evs, last, busy, src, he, hlast, -, rfl⟩ := exec_closes h
  obtain ⟨m, hw, hm⟩ := he.writes
  have hnone : ∀ ev ∈ last, writeIndex ev = none := fun ev hev => (hlast ev hev).writeIndex_eq_none
  refine ⟨evs ++ last, m, by simp [he.trace], ?_, hm, ?_, fun j hj => ?_⟩
  · rw [List.filterMap_append, List.filterMap_eq_nil_iff.mpr hnone, List.append_nil, hw]
  · rw [List.foldl_append, foldl_afterEvent_of_no_write hnone]
    exact he.dst
  · have hnot : j ∉ evs.filterMap writeIndex := by simpa [hw] using hj
    have hread := read_foldl_afterEvent_of_notMem hnot s.dst
    rwa [← he.dst] at hread

/-- Settles O47: the effects leave the rest alone, and a command's end changes only `busy`, the source's turns and the
record. -/
theorem commandsLeaveTheRestAlone : Obligations.CommandsLeaveTheRestAlone := by
  intro i s t h
  obtain ⟨u, evs, last, busy, src, he, -, hsrc, rfl⟩ := exec_closes h
  exact ⟨he.client, he.live, he.detached, hsrc.trans he.source, he.uc, he.acc⟩

end Sys2Proof.Machine

/-! The encoding family: command words and their rows, the assembler's text, and what a presented command gives back. -/

namespace Sys2Proof

/-! Words and commands (R51 to R59). -/

/-- Settles O1: the word carries the command's fields, and the decoder accepts a word by its fields. -/
theorem encodedCommandDecodesBack : Obligations.EncodedCommandDecodesBack := by
  intro i h
  obtain ⟨hrsv, hop, harg⟩ := fields_encode h
  exact decode_eq_ok_iff.mpr ⟨hrsv, hop, harg, h⟩

/-- Settles O2: a word and the word of the command it decodes to agree in all three fields. -/
theorem decodedWordEncodesBack : Obligations.DecodedWordEncodesBack := by
  intro w i h
  obtain ⟨hrsv, hop, harg, hwf⟩ := decode_eq_ok_iff.mp h
  refine ⟨hwf, BitVec.eq_of_toNat_eq ?_⟩
  rw [toNat_encode hwf, toNat_eq_fields w, hrsv, hop, harg]
  omega

/-- Settles O5: the words of R54's examples, decoded. -/
theorem specCommandWordsDecode : Obligations.SpecCommandWordsDecode := by
  unfold Obligations.SpecCommandWordsDecode
  decide

/-! The rows of the opcode table (R55). -/

/-- A row of format A: its mask leaves RSV and OP. -/
theorem operandRow_holds_iff (w : Word) {n : Nat} (hn : n < 8) (lo hi : Nat) :
    OpcodeRow.holds ⟨0x000000FF, BitVec.ofNat 32 n, lo, hi⟩ w = true ↔
      rsvField w = 0 ∧ opField w = n ∧ lo ≤ argField w ∧ argField w ≤ hi := by
  have hmask : (w &&& 0x000000FF).toNat = w.toNat % 2 ^ 8 := by
    rw [BitVec.toNat_and]
    exact Nat.and_two_pow_sub_one_eq_mod w.toNat 8
  rw [OpcodeRow.holds_iff, ← BitVec.toNat_inj, hmask, BitVec.toNat_ofNat, rsvField_eq, opField_eq]
  dsimp only
  omega

/-- A row of format N: its mask leaves the whole word, ARG included. -/
theorem fixedRow_holds_iff (w : Word) {n : Nat} (hn : n < 8) :
    OpcodeRow.holds ⟨0xFFFFFFFF, BitVec.ofNat 32 n, 0, 0⟩ w = true ↔
      rsvField w = 0 ∧ opField w = n ∧ 0 ≤ argField w ∧ argField w ≤ 0 := by
  have hmask : w &&& 0xFFFFFFFF = w := BitVec.and_allOnes
  have h8 := opField_lt w
  rw [OpcodeRow.holds_iff, hmask, ← BitVec.toNat_inj, BitVec.toNat_ofNat, toNat_eq_fields w]
  dsimp only
  omega

/-- A word is the command of a row exactly when RSV is 0, OP is the row's operation number and ARG is in the row's
range. -/
theorem row_holds_iff (i : Instr) (w : Word) :
    i.row.holds w = true ↔
      rsvField w = 0 ∧ opField w = i.opNumber ∧ i.row.argMin ≤ argField w ∧ argField w ≤ i.row.argMax := by
  have hn := i.opNumber_lt
  cases i with
  | read _ => exact operandRow_holds_iff w hn 1 32
  | readSigned _ => exact operandRow_holds_iff w hn 1 32
  | skip _ => exact operandRow_holds_iff w hn 1 32
  | readBytes _ => exact operandRow_holds_iff w hn 0 16777215
  | readUnary0 => exact fixedRow_holds_iff w hn
  | readUnary1 => exact fixedRow_holds_iff w hn
  | byteAligned => exact fixedRow_holds_iff w hn
  | byteAlign => exact fixedRow_holds_iff w hn

/-- An operand is legal exactly when it is in the range of the command's row. -/
theorem wf_iff_arg_in_row (i : Instr) : i.wf = true ↔ i.row.argMin ≤ i.arg ∧ i.arg ≤ i.row.argMax := by
  cases i with
  | read n => exact wf_read n
  | readSigned n => exact wf_readSigned n
  | skip n => exact wf_skip n
  | readBytes n => simp [wf_readBytes, Instr.row, Instr.arg]; omega
  | _ => simp [Instr.wf, Instr.row, Instr.arg]

/-- The command of the same row with this operand, where the row's format has one. -/
def Instr.withArg : Instr → Nat → Instr
  | .read _, arg => .read arg
  | .readSigned _, arg => .readSigned arg
  | .skip _, arg => .skip arg
  | .readBytes _, arg => .readBytes arg
  | i, _ => i

theorem row_withArg (i : Instr) (arg : Nat) : (i.withArg arg).row = i.row := by cases i <;> rfl

theorem opNumber_withArg (i : Instr) (arg : Nat) : (i.withArg arg).opNumber = i.opNumber := by cases i <;> rfl

theorem arg_withArg (i : Instr) {arg : Nat} (h : arg ≤ i.row.argMax) : (i.withArg arg).arg = arg := by
  cases i with
  | read n => rfl
  | readSigned n => rfl
  | skip n => rfl
  | readBytes n => rfl
  | _ => exact (Nat.le_zero.mp h).symm

/-- The decoder reads the command of a row off the row and the operand off ARG. -/
theorem decode_eq_ok_iff_row {w : Word} {i : Instr} :
    decode w = .ok i ↔ i.row.holds w = true ∧ i.arg = argField w := by
  rw [decode_eq_ok_iff, row_holds_iff, wf_iff_arg_in_row]
  constructor
  · rintro ⟨hrsv, hop, harg, hrange⟩
    exact ⟨⟨hrsv, hop, harg ▸ hrange⟩, harg.symm⟩
  · rintro ⟨⟨hrsv, hop, hrange⟩, harg⟩
    exact ⟨hrsv, hop, harg.symm, harg ▸ hrange⟩

/-- A word of a row is the row's command with the word's operand. -/
theorem decode_of_row_holds {w : Word} {i : Instr} (h : i.row.holds w = true) :
    decode w = .ok (i.withArg (argField w)) := by
  obtain ⟨-, -, -, hmax⟩ := (row_holds_iff i w).mp h
  exact decode_eq_ok_iff_row.mpr ⟨by rwa [row_withArg], arg_withArg i hmax⟩

/-- Settles O3: a word of some row decodes to a command of that row, and a word that decodes is of its command's row. -/
theorem wordIsTheCommandOfItsTableRow : Obligations.WordIsTheCommandOfItsTableRow := by
  refine fun w => ⟨fun i => decode_eq_ok_iff_row, ?_⟩
  constructor
  · rintro ⟨c, hc⟩ i
    by_contra h
    have hok := decode_of_row_holds (Bool.eq_true_of_not_eq_false h)
    rw [hc] at hok
    cases hok
  · intro h
    cases hw : decode w with
    | error c => exact ⟨c, rfl⟩
    | ok i =>
      have hrow := (decode_eq_ok_iff_row.mp hw).1
      rw [h i] at hrow
      cases hrow

/-! The words that are no command (R56, R59). -/

/-- The words named by a class: U4 by RSV alone, the others by OP and ARG where RSV is 0. -/
def WordClass.Names (w : Word) : WordClass → Prop
  | .u4 => rsvField w ≠ 0
  | .u3 => rsvField w = 0 ∧ 4 ≤ opField w ∧ argField w ≠ 0
  | .u1 => rsvField w = 0 ∧ opField w ≤ 2 ∧ argField w = 0
  | .u2 => rsvField w = 0 ∧ opField w ≤ 2 ∧ 33 ≤ argField w

theorem decodeBits_eq_error {mk : Nat → Instr} {arg : Nat} {c : WordClass} :
    decodeBits mk arg = .error c ↔ c = .u1 ∧ arg = 0 ∨ c = .u2 ∧ 33 ≤ arg := by
  simp only [decodeBits, Config.bitsMin, Config.bitsMax]
  split
  · cases c <;> simp <;> omega
  · split
    · cases c <;> simp <;> omega
    · simp; omega

theorem decodeNone_eq_error {i : Instr} {arg : Nat} {c : WordClass} :
    decodeNone i arg = .error c ↔ c = .u3 ∧ arg ≠ 0 := by
  unfold decodeNone
  split <;> simp [*, eq_comm]

/-- Everything the decoder refuses, by class: RSV first (R59), then each operation number checks ARG for its format. -/
theorem decode_eq_error_iff {w : Word} {c : WordClass} : decode w = .error c ↔ c.Names w := by
  by_cases hrsv : rsvField w = 0
  · have h8 := opField_lt w
    rw [decode, if_neg (by simpa using hrsv)]
    cases c <;> simp only [WordClass.Names, hrsv, true_and, ne_eq, not_true_eq_false]
    all_goals
      generalize opField w = o at h8
      interval_cases o <;> simp [decodeBits_eq_error, decodeNone_eq_error]
  · rw [decode, if_pos hrsv]
    cases c <;> simp [WordClass.Names, hrsv]

/-- Settles O4: the four classes, one by one. -/
theorem reservedWordsAreNamedInOrder : Obligations.ReservedWordsAreNamedInOrder := fun _ =>
  ⟨decode_eq_error_iff, decode_eq_error_iff, decode_eq_error_iff, decode_eq_error_iff⟩

end Sys2Proof

namespace Sys2Proof.Machine

open Sys2Proof.Claims

/-! The assembler (R61): numbers. -/

theorem digitValue_digitChar {d : Nat} (h : d < 10) : digitValue 10 (digitChar d) = some d := by
  interval_cases d <;> rfl

theorem readDigits_append (base v : Nat) (xs ys : List Char) :
    readDigits base v (xs ++ ys) = (readDigits base v xs).bind fun u => readDigits base u ys := by
  induction xs generalizing v with
  | nil => rfl
  | cons c xs ih =>
    rw [List.cons_append, readDigits, readDigits]
    cases digitValue base c with
    | none => rfl
    | some d => exact ih _

/-- The digits are those of the number, given more turns than it has digits. -/
theorem readDigits_decimalDigits {turns n : Nat} (h : n < turns) :
    readDigits 10 0 (decimalDigits turns n) = some n := by
  induction turns generalizing n with
  | zero => omega
  | succ turns ih =>
    rw [decimalDigits]
    split
    · next hn => simp [readDigits, digitValue_digitChar hn]
    · next hn =>
      rw [readDigits_append, ih (by omega), Option.bind_some, readDigits, digitValue_digitChar (by omega)]
      exact congrArg some (by omega)

/-- Decimal digits are the characters of values below 10. -/
theorem exists_of_mem_decimalDigits {turns n : Nat} {c : Char} (h : c ∈ decimalDigits turns n) :
    ∃ d < 10, c = digitChar d := by
  induction turns generalizing n with
  | zero => cases h
  | succ turns ih =>
    rw [decimalDigits] at h
    split at h
    · next hn => exact ⟨n, hn, List.mem_singleton.mp h⟩
    · rcases List.mem_append.mp h with h | h
      · exact ih h
      · exact ⟨n % 10, by omega, List.mem_singleton.mp h⟩

theorem decimal_ne_nil (n : Nat) : decimal n ≠ [] := by
  rw [decimal, decimalDigits]
  split <;> simp

/-- A decimal number has no character that means something else to the assembler. -/
theorem notMem_decimal (n : Nat) {c : Char} (hc : c ∈ [' ', '#', 'x']) : c ∉ decimal n := by
  intro h
  obtain ⟨d, hd, rfl⟩ := exists_of_mem_decimalDigits h
  revert hc
  interval_cases d <;> decide

/-- An operand with no `x` in it is read in decimal. -/
theorem readNumber_of_notMem {cs : List Char} (hne : cs ≠ []) (hx : 'x' ∉ cs) : readNumber cs = readDigits 10 0 cs := by
  unfold readNumber
  split
  · exact absurd rfl hne
  · simp at hx
  · rfl

theorem readNumber_decimal (n : Nat) : readNumber (decimal n) = some n := by
  rw [readNumber_of_notMem (decimal_ne_nil n) (notMem_decimal n (by decide))]
  exact readDigits_decimalDigits (Nat.lt_succ_self n)

theorem checkedCommand_decimal (mk : Nat → Instr) (n : Nat) :
    checkedCommand mk (decimal n) = if (mk n).wf = true then some (mk n) else none := by
  rw [checkedCommand, readNumber_decimal]

/-! The assembler (R61): the words of a line. -/

theorem splitWords_cons_of_ne {c : Char} (hc : c ≠ ' ') (rest : List Char) {w : List Char} {ws : List (List Char)}
    (h : splitWords rest = w :: ws) : splitWords (c :: rest) = (c :: w) :: ws := by
  rw [splitWords, h]
  exact hc

theorem splitWords_singleton {c : Char} (hc : c ≠ ' ') : splitWords [c] = [[c]] := by
  rw [splitWords]
  · rfl
  · exact hc

theorem splitWords_word {w : List Char} (hne : w ≠ []) (h : ' ' ∉ w) : splitWords w = [w] := by
  induction w with
  | nil => exact absurd rfl hne
  | cons c w ih =>
    obtain ⟨hc, hw⟩ := not_or.mp (List.mem_cons.not.mp h)
    cases w with
    | nil => exact splitWords_singleton (Ne.symm hc)
    | cons d w => exact splitWords_cons_of_ne (Ne.symm hc) _ (ih (by simp) hw)

theorem splitWords_word_space {w : List Char} (h : ' ' ∉ w) (rest : List Char) :
    splitWords (w ++ ' ' :: rest) = w :: splitWords rest := by
  induction w with
  | nil => rfl
  | cons c w ih =>
    obtain ⟨hc, hw⟩ := not_or.mp (List.mem_cons.not.mp h)
    exact splitWords_cons_of_ne (Ne.symm hc) _ (ih hw)

/-- A line without a comment. -/
theorem lineWords_of_notMem {line : List Char} (h : '#' ∉ line) :
    lineWords line = (splitWords line).filter fun w => !w.isEmpty := by
  rw [lineWords, List.takeWhile_eq_self_iff.mpr]
  intro c hc
  exact decide_eq_true fun hcc : c = '#' => h (hcc ▸ hc)

theorem lineWords_word {w : List Char} (hne : w ≠ []) (hs : ' ' ∉ w) (hh : '#' ∉ w) : lineWords w = [w] := by
  rw [lineWords_of_notMem hh, splitWords_word hne hs]
  simp [hne]

theorem lineWords_word_decimal {w : List Char} (hne : w ≠ []) (hs : ' ' ∉ w) (hh : '#' ∉ w) (n : Nat) :
    lineWords (w ++ ' ' :: decimal n) = [w, decimal n] := by
  have hn := notMem_decimal n (c := '#') (by decide)
  rw [lineWords_of_notMem (by simp [hh, hn]), splitWords_word_space hs,
    splitWords_word (decimal_ne_nil n) (notMem_decimal n (by decide))]
  simp [hne, decimal_ne_nil]

/-- A command's name is one word, and no part of it starts a comment. -/
theorem asmName_isWord (i : Instr) : asmName i ≠ [] ∧ ' ' ∉ asmName i ∧ '#' ∉ asmName i := by
  cases i <;> simp [asmName]

theorem lineWords_asmName (i : Instr) : lineWords (asmName i) = [asmName i] :=
  let ⟨hne, hs, hh⟩ := asmName_isWord i
  lineWords_word hne hs hh

theorem lineWords_asmName_decimal (i : Instr) (n : Nat) :
    lineWords (asmName i ++ ' ' :: decimal n) = [asmName i, decimal n] :=
  let ⟨hne, hs, hh⟩ := asmName_isWord i
  lineWords_word_decimal hne hs hh n

/-- Settles O6: a line's words are the name and the operand in decimal, and the operand is checked. -/
theorem assemblerReadsItsOwnText : Obligations.AssemblerReadsItsOwnText := by
  intro i
  cases i with
  | read n =>
    rw [asmText, parseLine, lineWords_asmName_decimal]
    exact checkedCommand_decimal .read n
  | readSigned n =>
    rw [asmText, parseLine, lineWords_asmName_decimal]
    exact checkedCommand_decimal .readSigned n
  | skip n =>
    rw [asmText, parseLine, lineWords_asmName_decimal]
    exact checkedCommand_decimal .skip n
  | readBytes n =>
    rw [asmText, parseLine, lineWords_asmName_decimal]
    exact checkedCommand_decimal .readBytes n
  | readUnary0 => rw [asmText, parseLine, lineWords_asmName]; rfl
  | readUnary1 => rw [asmText, parseLine, lineWords_asmName]; rfl
  | byteAligned => rw [asmText, parseLine, lineWords_asmName]; rfl
  | byteAlign => rw [asmText, parseLine, lineWords_asmName]; rfl

/-! A word that is no command (R56, R165). -/

theorem clientTurn_command {s : State} {w : Word} {rest : List ClientMove} (h : s.client = .command w :: rest) :
    clientTurn s = presentCommand w { s with client := rest } := by
  rw [clientTurn, h]

theorem presentCommand_reserved {s : State} {w : Word} {c : WordClass} (hl : s.live = true) (hw : decode w = .error c) :
    presentCommand w s = .refuse (.reservedWord c w) := by
  rw [presentCommand, if_pos hl, hw]

theorem presentCommand_released {s : State} (w : Word) (hl : s.live = false) :
    presentCommand w s = .refuse .noInstance := by
  rw [presentCommand, hl]
  rfl

theorem step_of_refuse {s : State} {r : Refusal} (hidle : s.busy = none) (h : clientTurn s = .refuse r) :
    step s = .refused r := by
  rw [step, hidle]
  dsimp only
  rw [h]

/-- Settles O8: the idle block decodes the word it is presented, if it is live. -/
theorem reservedWordIsRefusedByClassAndWord : Obligations.ReservedWordIsRefusedByClassAndWord := by
  intro s w rest hidle hcl
  have hturn := clientTurn_command hcl
  exact ⟨fun c hl hw => step_of_refuse hidle (hturn.trans (presentCommand_reserved hl hw)),
    fun hl => step_of_refuse hidle (hturn.trans (presentCommand_released w hl))⟩

/-! The response of a command (R57). -/

/-- Settles O44: the effects hold no response, and each of the three ends adds at most one, the last event. -/
theorem oneResponseAfterAllEffects : Obligations.OneResponseAfterAllEffects := by
  intro i s t h
  cases exec_ends h with
  | ok u evs v he ht =>
    subst ht
    exact ⟨fun _ => ⟨evs, .ok v, by simp [he.trace], he.noResponse⟩, fun hb => absurd rfl hb⟩
  | err u evs n e rest he _ _ _ ht =>
    subst ht
    refine ⟨fun _ => ⟨evs ++ [.srcRead n (.err e)], .ioerr e, by simp [he.trace], fun r hr => ?_⟩,
      fun hb => absurd rfl hb⟩
    exact he.noResponse r (by simpa using hr)
  | hold u evs k src he _ _ ht =>
    subst ht
    exact ⟨fun hb => (by cases hb), fun _ => ⟨evs, he.trace, he.noResponse⟩⟩

/-! The value a command answers with (R58). -/

section Values

variable {s t : State} {v : Word} (hc : Completes s t (.ok v))
include hc

/-- An extractor command answers with the value of a pattern of its legal width. -/
theorem runExtract_value {op : Extract} {n : Nat} (h : runExtract op n s = .next t) :
    legalBits n ∧ ∃ x < 2 ^ n, v = op.value n (BitVec.ofNat 32 x) := by
  by_cases hn : legalBits n
  · rcases runExtract_cases op hn s with ⟨u, bits, _, h', c, hlen, -⟩ | ⟨e, u, w, _, _, h', c, st, -, -⟩ |
      ⟨left, u, w, _, _, h', -⟩ | ⟨k, h', -⟩ <;> rw [h'] at h <;> cases h
    · cases response_eq_of_completes c.responses hc
      exact ⟨hn, natOfBits bits, hlen ▸ natOfBits_lt bits, rfl⟩
    · cases response_eq_of_completes (st.responses.trans c.responses) hc
    · exact absurd hc not_completes_holdOn
  · rw [runExtract, if_neg hn] at h
    cases h

/-- READ_BYTES answers with no value on either path. -/
theorem execReadBytes_value {len : Nat} (h : execReadBytes len s = .next t) : v = 0 := by
  rw [execReadBytes] at h
  split at h
  · split at h
    · next ha =>
      rcases bulkRead_pos ((aligned_iff s).mp ha) hc h with ⟨hr, -⟩ | ⟨⟨e, he⟩, -⟩
      · exact Response.ok.inj hr
      · cases he
    · rcases finishBytes_cases len len 0 s with ⟨u, _, _, _, h', c, -⟩ | ⟨e, u, w, _, _, _, m, h', c, st, -⟩ |
        ⟨left, u, w, _, _, _, m, h', -⟩ | ⟨k, h', -⟩ <;> rw [h'] at h <;> cases h
      · cases response_eq_of_completes c.responses_eq hc
        rfl
      · cases response_eq_of_completes (st.responses.trans c.responses_eq) hc
      · exact absurd hc not_completes_holdOn
  · cases h

/-- A unary read answers with the number of bits before the stop bit. -/
theorem runUnary_value {stop : Bool} (h : runUnary stop s = .next t) :
    ∃ bytes, t.delivered = s.delivered ++ bytes ∧
      s.bitsWith bytes = List.replicate v.toNat (!stop) ++ stop :: t.buf := by
  rw [runUnary] at h
  rcases resumeUnary_cases stop { s with uc := 0 } with ⟨u, k, bytes, h', c, hk⟩ | ⟨e, u, w, k, _, h', c, st, -⟩ |
    ⟨u, w, k, _, h', -⟩ | ⟨k, h', -⟩ | ⟨h', -⟩ <;> rw [h'] at h <;> cases h
  · have hv : v.toNat = k := by
      cases response_eq_of_completes c.responses hc
      simpa using hk
    refine ⟨bytes, (delivered_respond ..).trans c.delivered, ?_⟩
    rw [hv]
    exact c.stream.trans (List.append_assoc ..)
  · cases response_eq_of_completes (st.responses.trans c.responses) hc
  · exact absurd hc not_completes_holdOn

end Values

/-- The multiplexer's result is a number of the pattern's width (R84, R85). -/
theorem toInt_signMux_bounds {n x : Nat} (hn : legalBits n) (hx : x < 2 ^ n) :
    -2 ^ (n - 1) ≤ (signMux n (BitVec.ofNat 32 x)).toInt ∧ (signMux n (BitVec.ofNat 32 x)).toInt < 2 ^ (n - 1) := by
  obtain ⟨h1, h32⟩ := hn
  rw [signMux_eq h1 h32 hx, BitVec.toInt_signExtend_of_le h32]
  exact ⟨BitVec.le_toInt _, BitVec.toInt_lt⟩

/-- The value field of a command with status OK (R58). -/
theorem portValue_of_completes {i : Instr} {s t : State} {v : Word} (h : exec i s = .next t)
    (hc : Completes s t (.ok v)) : PortValue i s t v := by
  cases i with
  | read n =>
    obtain ⟨hn, x, hx, rfl⟩ := runExtract_value (op := .read) hc h
    exact (Nat.mod_le _ _).trans_lt hx
  | readSigned n =>
    obtain ⟨hn, x, hx, rfl⟩ := runExtract_value (op := .readSigned) hc h
    exact toInt_signMux_bounds hn hx
  | skip n =>
    obtain ⟨-, x, -, rfl⟩ := runExtract_value (op := .skip) hc h
    rfl
  | readBytes len => exact execReadBytes_value hc h
  | readUnary0 => exact runUnary_value (stop := false) hc h
  | readUnary1 => exact runUnary_value (stop := true) hc h
  | byteAligned =>
    obtain rfl := next_inj h
    cases response_eq_of_completes rfl hc
    simp [PortValue]
  | byteAlign =>
    obtain rfl := next_inj h
    cases response_eq_of_completes rfl hc
    rfl

/-! The ports after a command (R50, R57). -/

/-- While the block is idle the output `aligned` says whether the buffer is empty. -/
theorem alignedPort_eq_buf {s : State} (hidle : s.busy = none) : s.alignedPort = some (decide (s.buf = [])) := by
  rw [alignedPort_idle hidle, State.aligned]
  simp [beq_eq_decide]

/-- Settles O57: each of the three ends drives the ports; with status OK the value is the command's. -/
theorem portsDriveTheResponse : Obligations.PortsDriveTheResponse := by
  intro i s t h
  refine ⟨fun hb => ?_, fun hidle => ⟨alignedPort_eq_buf hidle, ?_⟩⟩
  · obtain ⟨k, hk⟩ := Option.ne_none_iff_exists'.mp hb
    exact ⟨by rw [State.responsePort, hk], alignedPort_busy hb⟩
  · cases exec_ends h with
    | ok u evs v he ht =>
      have hresp : t.responses = s.responses ++ [.ok v] := by rw [ht, responses_respond, he.responses]
      refine ⟨.ok v, hresp, by rw [ht, responsePort_respond], .inl ⟨rfl, ?_, rfl⟩⟩
      exact portValue_of_completes h ⟨hidle, hresp⟩
    | err u evs n e rest he _ _ _ ht =>
      refine ⟨.ioerr e, ?_, by rw [ht, raiseIOError, responsePort_respond], .inr ⟨rfl, rfl, n, ?_⟩⟩
      · rw [ht, raiseIOError, responses_respond, ← he.responses]
        simp [State.responses]
      · simp [ht, State.requests, List.filterMap_cons]
    | hold u evs k src _ _ _ ht =>
      rw [ht] at hidle
      cases hidle

end Sys2Proof.Machine

/-! The bit fetch family: `next_bit` against its list form, and what a failed refill leaves. -/

namespace Sys2Proof.Machine

/-- The eight bits of a byte in delivery order, written out (R37). -/
theorem byteBits_eq_getLsbD (b : Byte) : byteBits b =
    [b.getLsbD 7, b.getLsbD 6, b.getLsbD 5, b.getLsbD 4, b.getLsbD 3, b.getLsbD 2, b.getLsbD 1, b.getLsbD 0] := rfl

/-- The buffer after a refill and its pop is the byte without its first bit (R71, R72). -/
theorem buf_pop_refill (b : Byte) (s : State) : (pop (refill b s)).buf = (byteBits b).tail := by
  rw [byteBits_eq_cons b s, List.tail_cons]

/-- `next_bit` fails only where the refill it asks for is answered with the error (R70). -/
theorem stopsAtError_of_nextBit {s t : State} {e : Err} (h : nextBit s = .ioerr e t) : StopsAtError s t e := by
  rcases nextBit_consumes s with ⟨b, u, bytes, hn, -⟩ | ⟨e', u, hn, hstop⟩ | ⟨u, hn, -⟩ | ⟨k, hn, -⟩ <;>
    rw [hn] at h <;> cases h
  exact hstop

/-- A request answered with an error leaves the buffer, which was empty, and the delivered bytes (R73). -/
theorem StopsAtError.unchanged {s t : State} {e : Err} (h : StopsAtError s t e) :
    s.cnt = 0 ∧ t.sr = s.sr ∧ t.cnt = s.cnt ∧ t.delivered = s.delivered := by
  obtain ⟨hcnt, rest, -, rfl⟩ := h
  exact ⟨hcnt, rfl, rfl, by simp [State.delivered]⟩

/-- Settles O11: with bits buffered a pop takes the front; with none the refill brings a byte, fails or
waits. -/
theorem nextBitFollowsItsListForm : Obligations.NextBitFollowsItsListForm := by
  intro s hc
  refine ⟨fun b rest hbuf => ?_, fun hbuf B src hs => ?_, fun hbuf e src hs => ?_, fun hbuf hs => ?_⟩
  · have hcnt : s.cnt ≠ 0 := fun h => List.cons_ne_nil b rest (hbuf.symm.trans ((buf_eq_nil_iff s).mpr h))
    obtain ⟨rfl, rfl⟩ := List.cons.inj (hbuf.symm.trans (buf_eq_cons_pop hcnt))
    exact ⟨pop s, nextBit_buffered hcnt, rfl, canonical_pop hcnt hc, rfl⟩
  · exact ⟨_, nextBit_refill ((buf_eq_nil_iff s).mp hbuf) hs, canonical_pop_refill _ _,
      by rw [buf_pop_refill, byteBits_eq_getLsbD, List.tail_cons], rfl⟩
  · exact nextBit_err ((buf_eq_nil_iff s).mp hbuf) hs
  · exact nextBit_unanswered ((buf_eq_nil_iff s).mp hbuf) hs

/-- Settles O12: the failing refill stops at its request, and CNT and the delivered bytes say the rest. -/
theorem failedRefillChangesNothing : Obligations.FailedRefillChangesNothing := by
  intro s t e h
  obtain ⟨hs, hsr, hcnt, hdel⟩ := (stopsAtError_of_nextBit h).unchanged
  have hnb : t.nb = s.nb := by rw [State.nb, State.nb, hdel]
  have ht : t.cnt = 0 := hcnt.trans hs
  exact ⟨(buf_eq_nil_iff t).mpr ht, (aligned_iff t).mpr ht, (buf_eq_nil_iff s).mpr hs, hsr, hcnt,
    by rw [State.aligned, State.aligned, hcnt], hnb, by rw [State.pos, State.pos, hnb, hcnt]⟩

end Sys2Proof.Machine

/-! The read family: READ, READ_SIGNED and SKIP, from their start to their response. -/

namespace Sys2Proof.Machine

open Sys2Proof.Claims

/-! Extractor commands over bytes that are there (R80, R83), and past them (R82). -/

theorem exec_extractOf (op : Extract) (n : Nat) (s : State) : exec (extractOf op n) s = runExtract op n s := by
  cases op <;> rfl

theorem legalBits_of_runExtract {op : Extract} {n : Nat} {s t : State} (h : runExtract op n s = .next t) :
    legalBits n := by
  by_contra hn
  rw [runExtract, if_neg hn] at h
  cases h

/-- The bits a run of `n` consumes, as a number, are a pattern of `n` bits. -/
theorem natOfBits_take_lt (bits : List Bool) (n : Nat) : natOfBits (bits.take n) < 2 ^ n :=
  (natOfBits_lt _).trans_le (Nat.pow_le_pow_right (by decide) (by simp))

section Run

variable {s : State} {n : Nat} {bytes : List Byte} {rest : List SrcMove} (hc : s.Canonical) (h1 : 1 ≤ n) (h32 : n ≤ 32)
include hc h1 h32

theorem runExtract_run (op : Extract) (hs : s.source = byteAnswers bytes ++ rest)
    (hb : bytes.length = needBytes s.cnt.toNat n) :
    runExtract op n s = .next (respond
      (.ok (op.value n (BitVec.ofNat 32 (natOfBits ((s.bitsWith bytes).take n)))))
      (s.afterBits n bytes rest).freeAcc) := by
  rw [runExtract, if_pos ⟨h1, h32⟩, readBits_run hc hs hb, finishExtract]

theorem runExtract_err (op : Extract) {e : Err} (hs : s.source = byteAnswers bytes ++ .answers (.err e) :: rest)
    (hn : s.cnt.toNat + 8 * bytes.length < n) :
    runExtract op n s = .next (raiseIOError e { s with
      sr := 0, cnt := 0, source := rest, acc := Config.freeWord s.fresh, fresh := s.fresh + 1
      trace := s.trace ++ byteReads bytes ++ [.srcRead 1 (.err e)] }) := by
  rw [runExtract, if_pos ⟨h1, h32⟩, readBits_err hc hs hn, finishExtract]

end Run

/-- Settles O14: the run of the extractor, with READ's value the pattern itself. -/
theorem readReturnsTheNextBits : Obligations.ReadReturnsTheNextBits :=
  fun _ _ _ _ hc h1 h32 hs hb => ⟨_, runExtract_run hc h1 h32 .read hs hb, rfl⟩

/-- Settles O15: the same run, its pattern sent through the multiplexer. -/
theorem readSignedReturnsTwosComplement : Obligations.ReadSignedReturnsTwosComplement := by
  intro s n bytes rest hc h1 h32 hs hb
  refine ⟨_, runExtract_run hc h1 h32 .readSigned hs hb, ?_⟩
  rw [Extract.value, signMux_eq h1 h32 (natOfBits_take_lt _ n)]
  rfl

/-- Settles O16: the same run, its pattern dropped. -/
theorem skipConsumesTheNextBits : Obligations.SkipConsumesTheNextBits :=
  fun _ _ _ _ hc h1 h32 hs hb => ⟨_, runExtract_run hc h1 h32 .skip hs hb, rfl⟩

/-- Settles O18: the loop drains the bytes that are there, and the next request fails. -/
theorem extractorFailsAtTheFailingRequest : Obligations.ExtractorFailsAtTheFailingRequest := by
  intro op s n bytes e rest hc h1 h32 hs hn
  refine ⟨_, (exec_extractOf op n s).trans (runExtract_err hc h1 h32 op hs hn), ?_⟩
  simp only [raiseIOError, respond, State.record, List.append_assoc, List.singleton_append]

/-! The value of READ in the stream (R81). -/

@[simp] theorem streamBits_respond (r : Response) (s : State) : (respond r s).streamBits = s.streamBits := by
  rw [State.streamBits, delivered_respond, State.streamBits]

/-- A list in the middle of another, read at its offset. -/
theorem getD_append_middle {pre bits post : List Bool} {i : Nat} (hi : i < bits.length) :
    (pre ++ bits ++ post).getD (pre.length + i) false = bits.getD i false := by
  rw [List.append_assoc, List.getD_append_right _ _ _ _ (by omega), Nat.add_sub_cancel_left,
    List.getD_append _ _ _ _ hi]

/-- Settles O17: the consumed bits stand in the stream at the cursor, and the pattern is their weighted sum. -/
theorem readValueLaw : Obligations.ReadValueLaw := by
  intro s t n v hinv h hc
  have hn : legalBits n := legalBits_of_runExtract (op := .read) h
  obtain ⟨-, hend, -, -⟩ := hinv
  change runExtract .read n s = .next t at h
  rcases runExtract_cases .read hn s with ⟨u, bits, _, h', c, rfl, -⟩ | ⟨e, u, w, _, _, h', c, st, -, -⟩ |
    ⟨left, u, w, _, _, h', -⟩ | ⟨k, h', -⟩ <;> rw [h'] at h <;> cases h
  · cases response_eq_of_completes c.responses hc
    obtain ⟨-, hpos, -, pre, hpre, hstream⟩ := c.stream_run hend
    have hlt : natOfBits bits < 2 ^ 32 := (natOfBits_lt bits).trans_le (Nat.pow_le_pow_right (by decide) hn.2)
    refine ⟨by simp [hstream, hpre], by rw [pos_respond, hpos], ?_⟩
    rw [streamBits_respond, hstream, ← hpre, Extract.value, BitVec.toNat_ofNat, Nat.mod_eq_of_lt hlt, natOfBits_eq_sum]
    exact Finset.sum_congr rfl fun i hi => by rw [getD_append_middle (Finset.mem_range.mp hi)]
  · cases response_eq_of_completes (st.responses.trans c.responses) hc
  · exact absurd hc not_completes_holdOn

/-! The sign-extension multiplexer (R85). -/

/-- The multiplexer sign-extends a pattern of its width (R84, R85). -/
theorem signMux_eq_signExtend {n : Nat} {v : Word} (hn : legalBits n) (hv : v.toNat < 2 ^ n) :
    signMux n v = (v.setWidth n).signExtend 32 := by
  simpa using signMux_eq hn.1 hn.2 hv

theorem msb_setWidth_eq {n : Nat} (v : Word) (hn : legalBits n) : (v.setWidth n).msb = v.getLsbD (n - 1) := by
  have h1 : 1 ≤ n := hn.1
  rw [BitVec.msb_eq_getLsbD_last, BitVec.getLsbD_setWidth, decide_eq_true (by omega), Bool.true_and]

/-- The multiplexer's result as an integer: the pattern, less `2^n` when its top bit is 1 (R86). -/
theorem toInt_signMux {n : Nat} {v : Word} (hn : legalBits n) (hv : v.toNat < 2 ^ n) :
    (signMux n v).toInt = if v.getLsbD (n - 1) then (v.toNat : Int) - 2 ^ n else v.toNat := by
  rw [signMux_eq_signExtend hn hv, BitVec.toInt_signExtend_of_le hn.2, BitVec.toInt_eq_msb_cond, msb_setWidth_eq v hn,
    BitVec.toNat_setWidth, Nat.mod_eq_of_lt hv]
  simp

/-- A pattern of `n` bits is 0 from bit `n` up. -/
theorem getLsbD_of_lt {n : Nat} {v : Word} (hv : v.toNat < 2 ^ n) {j : Nat} (hj : n ≤ j) : v.getLsbD j = false :=
  Nat.testBit_lt_two_pow (hv.trans_le (Nat.pow_le_pow_right (by decide) hj))

theorem getLsbD_signMux {n : Nat} {v : Word} (hn : legalBits n) (hv : v.toNat < 2 ^ n) {j : Nat} (hj : j < 32) :
    (signMux n v).getLsbD j = if j < n then v.getLsbD j else v.getLsbD (n - 1) := by
  rw [signMux_eq_signExtend hn hv, BitVec.getLsbD_signExtend, decide_eq_true hj, Bool.true_and, msb_setWidth_eq v hn,
    BitVec.getLsbD_setWidth]
  split
  · next hlt => rw [decide_eq_true hlt, Bool.true_and]
  · rfl

/-- Settles O22: bit by bit, and as a number: with sign 1 the integer is negative, so it stands `2^32` higher. -/
theorem signMultiplexerSelectsPerBit : Obligations.SignMultiplexerSelectsPerBit := by
  intro n v hn hv
  refine ⟨fun j hj => getLsbD_signMux hn hv hj, fun j _ => ?_, fun hsign => ?_, fun hsign => ?_⟩
  · split
    · rfl
    · next hge => exact getLsbD_of_lt hv (Nat.le_of_not_lt hge)
  · have hint := toInt_signMux hn hv
    rw [if_pos hsign, BitVec.toInt_eq_toNat_cond] at hint
    have hv' : (v.toNat : Int) < 2 ^ n := by exact_mod_cast hv
    have hnat : ((signMux n v).toNat : Int) + 2 ^ n = v.toNat + 2 ^ 32 := by
      split at hint <;> omega
    exact_mod_cast hnat
  · rw [Extract.value, signMux, hsign]
    rfl

/-! One command against another from the same state (R86, R87, R88). -/

/-- Another extractor command does what READ does, with its own value of the same pattern. -/
theorem runExtract_against_read (op : Extract) {s t : State} {n : Nat} (h : exec (.read n) s = .next t)
    (hidle : t.busy = none) :
    (∀ evs v, t.trace = evs ++ [.respond (.ok v)] → legalBits n ∧ v.toNat < 2 ^ n ∧
      runExtract op n s = .next { t with trace := evs ++ [.respond (.ok (op.value n v))] }) ∧
    (∀ evs e, t.trace = evs ++ [.respond (.ioerr e)] → runExtract op n s = .next t) := by
  have hn : legalBits n := legalBits_of_runExtract (op := .read) h
  change runExtract .read n s = .next t at h
  rw [runExtract, if_pos hn] at h ⊢
  rcases readBits_consumes n s with ⟨u, bits, _, h', -, hlen, -⟩ | ⟨e, _, u, _, _, h', -⟩ | ⟨left, _, u, _, _, h', -⟩ |
    ⟨k, h', -⟩ <;> rw [h'] at h ⊢ <;> cases h
  · refine ⟨fun evs v htr => ?_, fun evs e htr => ?_⟩
    · obtain ⟨rfl, hv⟩ := List.append_inj' htr rfl
      cases hv
      exact ⟨hn, hlen ▸ toNat_ofNat_natOfBits_lt bits, rfl⟩
    · cases (List.append_inj' htr rfl).2
  · refine ⟨fun evs v htr => ?_, fun _ _ _ => rfl⟩
    cases (List.append_inj' htr rfl).2
  · cases hidle

/-- Settles O20: one run with two values of its pattern. -/
theorem readSignedAgainstRead : Obligations.ReadSignedAgainstRead := by
  intro s t n h hidle
  obtain ⟨hok, herr⟩ := runExtract_against_read .readSigned h hidle
  refine ⟨fun evs v htr => ?_, herr⟩
  obtain ⟨hn, hv, hrun⟩ := hok evs v htr
  have hint := toInt_signMux hn hv
  exact ⟨signMux n v, hrun, fun hb => by rw [hint, hb]; rfl, fun hb => by rw [hint, hb]; rfl⟩

/-- Settles O21: one run, its value kept or dropped. -/
theorem skipAgainstRead : Obligations.SkipAgainstRead := by
  intro s t n h hidle
  obtain ⟨hok, herr⟩ := runExtract_against_read .skip h hidle
  refine ⟨fun evs v htr => ?_, herr⟩
  obtain ⟨-, -, hrun⟩ := hok evs v htr
  exact hrun

end Sys2Proof.Machine

/-! The byte-parallel form of the extractor (R89) against its loop. -/

namespace Sys2Proof.Machine

open Sys2Proof.Claims

/-! The numbers of the byte-parallel form. -/

/-- The first `n` bits of a pattern are what a right shift leaves of it. -/
theorem natOfBits_take (bits : List Bool) (n : Nat) :
    natOfBits (bits.take n) = natOfBits bits / 2 ^ (bits.length - n) := by
  have hlt := natOfBits_lt (bits.drop n)
  have happ := natOfBits_append (bits.take n) (bits.drop n)
  rw [List.length_drop] at hlt happ
  rw [List.take_append_drop] at happ
  rw [happ, Nat.mul_comm, Nat.mul_add_div (by positivity), Nat.div_eq_of_lt hlt, Nat.add_zero]

theorem natOfBits_byteBits (b : Byte) : natOfBits (byteBits b) = b.toNat := by
  rw [byteBits, natOfBits_top b 8 (le_refl 8), Nat.sub_self, pow_zero, Nat.div_one]

/-- The buffer as a number (R12). -/
theorem natOfBits_buf {s : State} (h : s.cnt.toNat ≤ 8) : natOfBits s.buf = s.sr.toNat / 2 ^ (8 - s.cnt.toNat) :=
  natOfBits_top s.sr s.cnt.toNat h

/-- Appending bytes below a pattern appends their bits (R89). -/
theorem appendBytes_natOfBits (bits : List Bool) (bytes : List Byte) :
    appendBytes (natOfBits bits) bytes = natOfBits (bits ++ bytes.flatMap byteBits) := by
  induction bytes generalizing bits with
  | nil => rw [List.flatMap_nil, List.append_nil, appendBytes, List.foldl_nil]
  | cons b bytes ih =>
    have hb : natOfBits bits * 2 ^ 8 + b.toNat = natOfBits (bits ++ byteBits b) := by
      rw [natOfBits_append, natOfBits_byteBits, length_byteBits]
    rw [List.flatMap_cons, ← List.append_assoc, ← ih, ← hb]
    rfl

/-! Several bits leave the buffer at once. -/

/-- The registers shifted by `n` bits at once, as the byte-parallel form does from a buffer that holds them (R89). -/
def shiftOut (n : Nat) (s : State) : State :=
  { s with sr := s.sr <<< n, cnt := BitVec.ofNat 4 (s.cnt.toNat - n) }

theorem cnt_shiftOut (n : Nat) (s : State) : (shiftOut n s).cnt.toNat = s.cnt.toNat - n := by
  have := s.cnt.isLt
  rw [shiftOut, BitVec.toNat_ofNat, Nat.mod_eq_of_lt (by omega)]

theorem buf_shiftOut (n : Nat) (s : State) : (shiftOut n s).buf = s.buf.drop n := by
  refine List.ext_getElem (by simp [cnt_shiftOut]) fun i hi _ => ?_
  have hi' : i < s.cnt.toNat - n := by simpa [cnt_shiftOut] using hi
  simp [State.buf, shiftOut, BitVec.getMsbD_shiftLeft, Nat.add_comm]

/-- The register image of what is left of the buffer is SR shifted (R13, R89). -/
theorem leftJustify_drop_buf {n : Nat} {s : State} (hn : n ≤ s.cnt.toNat) (h7 : s.cnt.toNat - n ≤ 7)
    (hz : s.sr <<< s.cnt.toNat = 0) : leftJustify (s.buf.drop n) = s.sr <<< n := by
  rw [← buf_shiftOut, leftJustify_buf]
  · rfl
  · rw [State.Canonical, cnt_shiftOut, shiftOut, ← BitVec.shiftLeft_add, Nat.add_sub_cancel' hn]
    exact ⟨h7, hz⟩

theorem leftJustify_drop_byteBits (b : Byte) {n : Nat} (h1 : 1 ≤ n) (h8 : n ≤ 8) :
    leftJustify ((byteBits b).drop n) = b <<< n := by
  have hcnt : (refill b State.reset).cnt.toNat = 8 := rfl
  rw [← buf_refill b State.reset]
  exact leftJustify_drop_buf (by omega) (by omega) (BitVec.shiftLeft_eq_zero (le_refl 8))

/-! Where a source stops handing over bytes one by one. -/

/-- The next turn of the source brings no byte: it is silent, delays, fails, or breaks R31. -/
inductive NoByte : List SrcMove → Prop where
  | unanswered : NoByte []
  | delayed (rest : List SrcMove) : NoByte (.delays :: rest)
  | err (e : Err) (rest : List SrcMove) : NoByte (.answers (.err e) :: rest)
  | breach (bytes : List Byte) (rest : List SrcMove) (h : bytes.length ≠ 1) : NoByte (.answers (.ok bytes) :: rest)

/-- A source hands over `m` bytes one by one, or fewer and then no byte. -/
theorem source_cases (m : Nat) (src : List SrcMove) :
    ∃ bytes tail, src = byteAnswers bytes ++ tail ∧ (bytes.length = m ∨ bytes.length < m ∧ NoByte tail) := by
  induction m generalizing src with
  | zero => exact ⟨[], src, rfl, .inl rfl⟩
  | succ m ih =>
    match src with
    | [] => exact ⟨[], [], rfl, .inr ⟨Nat.succ_pos m, .unanswered⟩⟩
    | .delays :: rest => exact ⟨[], _, rfl, .inr ⟨Nat.succ_pos m, .delayed rest⟩⟩
    | .answers (.err e) :: rest => exact ⟨[], _, rfl, .inr ⟨Nat.succ_pos m, .err e rest⟩⟩
    | .answers (.ok bytes) :: rest =>
      by_cases hl : bytes.length = 1
      · obtain ⟨b, rfl⟩ := List.length_eq_one_iff.mp hl
        obtain ⟨more, tail, rfl, hm⟩ := ih rest
        exact ⟨b :: more, tail, rfl, by simpa using hm⟩
      · exact ⟨[], _, rfl, .inr ⟨Nat.succ_pos m, .breach bytes rest hl⟩⟩

theorem srcRead_breach {n : Nat} {s : State} {bytes : List Byte} {rest : List SrcMove} (hn : n ≠ 0)
    (hs : s.source = .answers (.ok bytes) :: rest) (hl : bytes.length ≠ n) :
    srcRead n s = .refuse (.sourceContract n bytes.length) := by
  simp [srcRead, hn, hs, hl]

/-- The loop that has used up the bytes there are asks for the next one on an empty buffer (R83). -/
theorem readBits_drained {n : Nat} {s : State} {bytes : List Byte} {tail : List SrcMove} (hc : s.Canonical)
    (hs : s.source = byteAnswers bytes ++ tail) (hn : s.cnt.toNat + 8 * bytes.length < n) :
    ∃ left u, readBits n s = takeAcc (shiftIn (left + 1) u) ∧ u.cnt = 0 ∧ u.source = tail := by
  obtain ⟨left, hleft⟩ : ∃ left, n - (s.cnt.toNat + 8 * bytes.length) = left + 1 :=
    ⟨n - (s.cnt.toNat + 8 * bytes.length) - 1, by omega⟩
  rw [readBits, shiftIn_drained (s := { s with acc := 0 }) hc hs hn.le]
  exact ⟨left, _, congrArg takeAcc (congrArg (shiftIn · _) hleft), rfl, rfl⟩

/-! The requests of the byte-parallel form. -/

/-- The state after the source has handed over these bytes and is left with `tail`. -/
def handedOver (s : State) (bytes : List Byte) (tail : List SrcMove) : State :=
  { s with source := tail, trace := s.trace ++ byteReads bytes }

/-- What requests answered before put in front of a result. -/
def Fetch.prepend (bytes : List Byte) : Fetch Unit (List Byte) → Fetch Unit (List Byte)
  | .done more s => .done (bytes ++ more) s
  | .ioerr e s => .ioerr e s
  | .hold w s => .hold w s
  | .refuse r => .refuse r

theorem Fetch.prepend_prepend (xs ys : List Byte) (f : Fetch Unit (List Byte)) :
    (f.prepend ys).prepend xs = f.prepend (xs ++ ys) := by
  cases f <;> simp [Fetch.prepend]

theorem pullBytes_byte {s : State} {b : Byte} {rest : List SrcMove} (m : Nat)
    (hs : s.source = .answers (.ok [b]) :: rest) :
    pullBytes (m + 1) s = (pullBytes m (handedOver s [b] rest)).prepend [b] := by
  have hread : srcRead Config.refillLen s = .done [b] (handedOver s [b] rest) := srcRead_ok (by decide) hs rfl
  rw [pullBytes, hread]
  cases h : pullBytes m (handedOver s [b] rest) <;> simp only [h, Fetch.prepend]

/-- Requests over bytes that are there: the rest are made of what the source has then. -/
theorem pullBytes_byteAnswers {s : State} {bytes : List Byte} {tail : List SrcMove} (m : Nat)
    (hs : s.source = byteAnswers bytes ++ tail) :
    pullBytes (bytes.length + m) s = (pullBytes m (handedOver s bytes tail)).prepend bytes := by
  induction bytes generalizing s with
  | nil =>
    have htail : s.source = tail := hs
    have hsame : handedOver s [] tail = s := by simp [handedOver, ← htail]
    rw [hsame, List.length_nil, Nat.zero_add]
    cases pullBytes m s <;> rfl
  | cons b bytes ih =>
    have hover : handedOver (handedOver s [b] (byteAnswers bytes ++ tail)) bytes tail =
        handedOver s (b :: bytes) tail := by simp [handedOver]
    rw [List.length_cons, Nat.add_right_comm, pullBytes_byte (rest := byteAnswers bytes ++ tail) _ hs, ih rfl, hover,
      Fetch.prepend_prepend]
    rfl

/-- `m` requests over a source that answers them all. -/
theorem pullBytes_run {s : State} {bytes : List Byte} {tail : List SrcMove}
    (hs : s.source = byteAnswers bytes ++ tail) :
    pullBytes bytes.length s = .done bytes (handedOver s bytes tail) := by
  have hp := pullBytes_byteAnswers 0 hs
  rwa [pullBytes, Fetch.prepend, List.append_nil] at hp

/-! The ends of the byte-parallel form. -/

section Parallel

variable {s u : State} {n : Nat} {bytes : List Byte} {tail : List SrcMove}

/-- With enough bits buffered there is no request, and SR is shifted by `n` (R89). -/
theorem readParallel_buffered (hc : s.Canonical) (hn : n ≤ s.cnt.toNat) :
    readParallel n s =
      .done (BitVec.ofNat 32 (natOfBits ((s.bitsWith []).take n))) (s.afterBits n [] s.source) := by
  obtain ⟨h7, hz⟩ := hc
  have h7 : s.cnt.toNat ≤ 7 := h7
  have hvalue : natOfBits (s.buf.take n) = s.sr.toNat / 2 ^ (8 - n) := by
    rw [natOfBits_take, length_buf, natOfBits_buf (by omega), Nat.div_div_eq_div_mul, ← pow_add]
    congr 2
    omega
  simp only [readParallel, if_pos hn, bitsWith_nil, hvalue, State.afterBits, List.length_drop, length_buf,
    leftJustify_drop_buf hn (by omega) hz, byteReads_nil, List.append_nil]

/-- Over the bytes it needs, the last of them fills SR with the bits not consumed (R89). -/
theorem readParallel_refilled (hc : s.Canonical) (hn : s.cnt.toNat < n) (hs : s.source = byteAnswers bytes ++ tail)
    (hb : bytes.length = needBytes s.cnt.toNat n) :
    readParallel n s =
      .done (BitVec.ofNat 32 (natOfBits ((s.bitsWith bytes).take n))) (s.afterBits n bytes tail) := by
  have h7 : s.cnt.toNat ≤ 7 := hc.1
  have hb' : (n - s.cnt.toNat + 7) / 8 = bytes.length := hb.symm
  have hlen := length_bitsWith s bytes
  have hvalue : appendBytes (s.sr.toNat / 2 ^ (8 - s.cnt.toNat)) bytes / 2 ^ (s.cnt.toNat + 8 * bytes.length - n) =
      natOfBits ((s.bitsWith bytes).take n) := by
    rw [natOfBits_take, hlen, ← natOfBits_buf (by omega), appendBytes_natOfBits, State.bitsWith]
  have hsr : bytes.getLastD 0 <<< (8 - (s.cnt.toNat + 8 * bytes.length - n)) =
      leftJustify ((s.bitsWith bytes).drop n) := by
    obtain ⟨init, b, rfl⟩ : ∃ init b, bytes = init ++ [b] :=
      (List.eq_nil_or_concat' bytes).resolve_left (by rintro rfl; simp at hb'; omega)
    rw [List.length_append, List.length_singleton] at hb' ⊢
    have hinit := length_bitsWith s init
    rw [bitsWith_append, List.drop_append, hinit, List.drop_eq_nil_of_le (by omega), List.nil_append,
      List.flatMap_singleton, leftJustify_drop_byteBits b (by omega) (by omega), List.getLastD_concat]
    congr 1
    omega
  simp only [readParallel, if_neg (Nat.not_le.mpr hn), hb', pullBytes_run hs, hvalue, hsr, State.afterBits,
    List.length_drop, hlen, handedOver]

/-- Over bits that are there the byte-parallel form does what the loop does (R80, R89). -/
theorem readParallel_run (hc : s.Canonical) (hs : s.source = byteAnswers bytes ++ tail)
    (hb : bytes.length = needBytes s.cnt.toNat n) :
    readParallel n s =
      .done (BitVec.ofNat 32 (natOfBits ((s.bitsWith bytes).take n))) (s.afterBits n bytes tail) := by
  by_cases hn : n ≤ s.cnt.toNat
  · obtain rfl : bytes = [] := List.length_eq_zero_iff.mp (by rw [hb, needBytes]; omega)
    rw [readParallel_buffered hc hn, hs, byteAnswers_nil, List.nil_append]
  · exact readParallel_refilled hc (Nat.not_le.mp hn) hs hb

section Stops

variable (hn : s.cnt.toNat < n)
include hn

theorem readParallel_ioerr {e : Err} (h : pullBytes (needBytes s.cnt.toNat n) s = .ioerr e u) :
    readParallel n s = .ioerr e (clearBuffer u) := by
  rw [needBytes] at h
  simp only [readParallel, if_neg (Nat.not_le.mpr hn), h]

theorem readParallel_hold (h : pullBytes (needBytes s.cnt.toNat n) s = .hold () u) :
    readParallel n s = .hold () u := by
  rw [needBytes] at h
  simp only [readParallel, if_neg (Nat.not_le.mpr hn), h]

theorem readParallel_refuse {r : Refusal} (h : pullBytes (needBytes s.cnt.toNat n) s = .refuse r) :
    readParallel n s = .refuse r := by
  rw [needBytes] at h
  simp only [readParallel, if_neg (Nat.not_le.mpr hn), h]

end Stops

/-- Where the source stops handing over bytes too early, both forms stop at that request (R82, R89). -/
theorem sameFetch_of_noByte (hc : s.Canonical) (hs : s.source = byteAnswers bytes ++ tail)
    (hlen : bytes.length < needBytes s.cnt.toNat n) (hstop : NoByte tail) :
    SameFetch (readBits n s) (readParallel n s) := by
  have hlt : s.cnt.toNat + 8 * bytes.length < n := by rw [needBytes] at hlen; omega
  obtain ⟨m, hm⟩ : ∃ m, needBytes s.cnt.toNat n = bytes.length + (m + 1) :=
    ⟨needBytes s.cnt.toNat n - 1 - bytes.length, by omega⟩
  have hn : s.cnt.toNat < n := by omega
  obtain ⟨left, v, hread, hv0, hsrc⟩ := readBits_drained hc hs hlt
  have hpull := pullBytes_byteAnswers (m + 1) hs
  rw [← hm, pullBytes, Config.refillLen] at hpull
  cases hstop with
  | unanswered =>
    rw [srcRead_unanswered (by decide) rfl] at hpull
    rw [hread, shiftIn, nextBit_unanswered hv0 hsrc, readParallel_hold hn hpull]
    trivial
  | delayed rest =>
    rw [srcRead_delayed (by decide) rfl] at hpull
    rw [hread, shiftIn, nextBit_delayed hv0 hsrc, readParallel_hold hn hpull]
    trivial
  | err e rest =>
    rw [srcRead_err (by decide) rfl] at hpull
    rw [readBits_err hc hs hlt, readParallel_ioerr hn hpull]
    exact ⟨rfl, rfl⟩
  | breach more rest h =>
    rw [srcRead_breach (by decide) rfl h] at hpull
    rw [hread, shiftIn, nextBit_breach hv0 hsrc h, readParallel_refuse hn hpull]
    rfl

end Parallel

/-- Settles O24: the source hands over the bytes that are needed, or stops before; either way both forms go on
alike. -/
theorem byteParallelFormAgrees : Obligations.ByteParallelFormAgrees := by
  intro s n hc _
  obtain ⟨bytes, tail, hs, hlen | ⟨hlen, hstop⟩⟩ := source_cases (needBytes s.cnt.toNat n) s.source
  · rw [readBits_run hc hs hlen, readParallel_run hc hs hlen]
    exact ⟨rfl, rfl⟩
  · exact sameFetch_of_noByte hc hs hlen hstop

end Sys2Proof.Machine

/-! Split reads (R92): two runs from states that the reader cannot tell apart, and a command as its loop. -/

namespace Sys2Proof.Machine

open Sys2Proof.Claims

/-! Two runs of the loop that the reader cannot tell apart. -/

theorem requests_record_srcRead (n : Nat) (a : SrcAnswer) (s : State) :
    (s.record (.srcRead n a)).requests = s.requests ++ [(n, a)] := by
  simp [State.requests]

/-- `next_bit` goes by SR, CNT and the source alone (R74). -/
theorem nextBit_sameReader {t u : State} (h : SameReader t u) :
    (∃ b t' u', nextBit t = .done b t' ∧ nextBit u = .done b u' ∧ SameReader t' u' ∧ t'.acc = t.acc ∧ u'.acc = u.acc) ∨
    (∃ e t' u', nextBit t = .ioerr e t' ∧ nextBit u = .ioerr e u' ∧ SameReader t' u') ∨
    (∃ t' u', nextBit t = .hold () t' ∧ nextBit u = .hold () u') ∨
    (∃ r, nextBit t = .refuse r ∧ nextBit u = .refuse r) := by
  obtain ⟨hsr, hcnt, hsrc, hreq⟩ := h
  cases nextBit_cases t with
  | buffered h0 =>
    have hu0 : u.cnt ≠ 0 := hcnt ▸ h0
    have hu : nextBit u = .done (frontBit t) (pop u) := by rw [nextBit_buffered hu0, frontBit, frontBit, hsr]
    exact .inl ⟨_, _, _, nextBit_buffered h0, hu, ⟨by simp [hsr], by simp [hcnt], hsrc, hreq⟩, rfl, rfl⟩
  | byte b rest h0 hs =>
    refine .inl ⟨_, _, _, nextBit_refill h0 hs, nextBit_refill (hcnt ▸ h0) (hsrc ▸ hs), ⟨rfl, rfl, rfl, ?_⟩, rfl, rfl⟩
    change State.requests (State.record _ _) = State.requests (State.record _ _)
    rw [requests_record_srcRead, requests_record_srcRead]
    exact congrArg (· ++ _) hreq
  | err e rest h0 hs =>
    refine .inr (.inl ⟨e, _, _, nextBit_err h0 hs, nextBit_err (hcnt ▸ h0) (hsrc ▸ hs), hsr, hcnt, rfl, ?_⟩)
    rw [requests_record_srcRead, requests_record_srcRead]
    exact congrArg (· ++ _) hreq
  | unanswered h0 hs =>
    exact .inr (.inr (.inl ⟨_, _, nextBit_unanswered h0 hs, nextBit_unanswered (hcnt ▸ h0) (hsrc ▸ hs)⟩))
  | delayed rest h0 hs =>
    exact .inr (.inr (.inl ⟨_, _, nextBit_delayed h0 hs, nextBit_delayed (hcnt ▸ h0) (hsrc ▸ hs)⟩))
  | breach bytes rest h0 hs hl =>
    exact .inr (.inr (.inr ⟨_, nextBit_breach h0 hs hl, nextBit_breach (hcnt ▸ h0) (hsrc ▸ hs) hl⟩))

/-- The loop goes by SR, CNT and the source alone, and takes the same bits into either accumulator (R80). -/
theorem shiftIn_sameReader (n : Nat) {t u : State} (h : SameReader t u) :
    (∃ (bits : List Bool) (t' u' : State), shiftIn n t = .done () t' ∧ shiftIn n u = .done () u' ∧ SameReader t' u' ∧
      bits.length = n ∧ t'.acc = bits.foldl shiftInBit t.acc ∧ u'.acc = bits.foldl shiftInBit u.acc) ∨
    (∃ e t' u', shiftIn n t = .ioerr e t' ∧ shiftIn n u = .ioerr e u' ∧ SameReader t' u') ∨
    (∃ left t' u', shiftIn n t = .hold left t' ∧ shiftIn n u = .hold left u') ∨
    (∃ r, shiftIn n t = .refuse r ∧ shiftIn n u = .refuse r) := by
  induction n generalizing t u with
  | zero => exact .inl ⟨[], t, u, rfl, rfl, h, rfl, rfl, rfl⟩
  | succ n ih =>
    rw [shiftIn, shiftIn]
    rcases nextBit_sameReader h with ⟨b, t1, u1, ht, hu, h1, hta, hua⟩ | ⟨e, t1, u1, ht, hu, h1⟩ | ⟨t1, u1, ht, hu⟩ |
      ⟨r, ht, hu⟩ <;> rw [ht, hu]
    · have h2 : SameReader { t1 with acc := shiftInBit t1.acc b } { u1 with acc := shiftInBit u1.acc b } := h1
      rcases ih h2 with ⟨bits, t', u', ht', hu', h', hl, ha, hb⟩ | hend
      · refine .inl ⟨b :: bits, t', u', ht', hu', h', by simp [hl], ?_, ?_⟩
        · rw [ha, hta, List.foldl_cons]
        · rw [hb, hua, List.foldl_cons]
      · exact .inr hend
    · exact .inr (.inl ⟨e, t1, u1, rfl, rfl, h1⟩)
    · exact .inr (.inr (.inl ⟨n + 1, t1, u1, rfl, rfl⟩))
    · exact .inr (.inr (.inr ⟨r, rfl, rfl⟩))

/-! An extractor command as its loop. -/

/-- The state in which the loop of an extractor command starts (R80). -/
def clearAcc (s : State) : State := { s with acc := 0 }

@[simp] theorem clearAcc_acc (s : State) : (clearAcc s).acc = 0 := rfl

theorem responses_of_shiftIn_done {n : Nat} {s u : State} (h : shiftIn n (clearAcc s) = .done () u) :
    u.freeAcc.responses = s.responses := by
  rcases shiftIn_consumes n (clearAcc s) with ⟨t, _, _, h', c, -⟩ | ⟨e, v, t, _, _, h', -⟩ |
    ⟨left, v, t, _, _, h', -⟩ | ⟨k, h', -⟩ <;> rw [h'] at h <;> cases h
  exact c.responses

theorem responses_of_shiftIn_ioerr {n : Nat} {s u : State} {e : Err} (h : shiftIn n (clearAcc s) = .ioerr e u) :
    u.freeAcc.responses = s.responses := by
  rcases shiftIn_consumes n (clearAcc s) with ⟨t, _, _, h', -⟩ | ⟨e, v, t, _, _, h', c, st, -⟩ |
    ⟨left, v, t, _, _, h', -⟩ | ⟨k, h', -⟩ <;> rw [h'] at h <;> cases h
  exact st.responses.trans c.responses

theorem completes_respond {s u : State} (r : Response) (h : u.responses = s.responses) : Completes s (respond r u) r :=
  ⟨rfl, by rw [responses_respond, h]⟩

section Loop

variable {op : Extract} {n : Nat} (hn : legalBits n) {s : State}
include hn

theorem runExtract_eq : runExtract op n s = finishExtract op n (takeAcc (shiftIn n (clearAcc s))) := by
  rw [runExtract, if_pos hn, readBits, clearAcc]

/-- A command that completes is its loop, come to its end or to an error. -/
theorem runExtract_completes {t : State} {r : Response} (h : runExtract op n s = .next t) (hc : Completes s t r) :
    (∃ u, shiftIn n (clearAcc s) = .done () u ∧ r = .ok (op.value n u.acc) ∧ t = respond r u.freeAcc) ∨
    ∃ e u, shiftIn n (clearAcc s) = .ioerr e u ∧ r = .ioerr e ∧ t = respond r u.freeAcc := by
  rw [runExtract_eq hn] at h
  cases hl : shiftIn n (clearAcc s) with
  | done a u =>
    rw [hl] at h
    cases h
    cases response_eq_of_completes (responses_of_shiftIn_done hl) hc
    exact .inl ⟨u, rfl, rfl, rfl⟩
  | ioerr e u =>
    rw [hl] at h
    cases h
    cases response_eq_of_completes (responses_of_shiftIn_ioerr hl) hc
    exact .inr ⟨e, u, rfl, rfl, rfl⟩
  | hold left u =>
    rw [hl] at h
    cases h
    exact absurd hc not_completes_holdOn
  | refuse r =>
    rw [hl] at h
    cases h

theorem runExtract_ok {t : State} {v : Word} (h : runExtract op n s = .next t) (hc : Completes s t (.ok v)) :
    ∃ u, shiftIn n (clearAcc s) = .done () u ∧ v = op.value n u.acc ∧ t = respond (.ok v) u.freeAcc := by
  rcases runExtract_completes hn h hc with ⟨u, hl, hr, ht⟩ | ⟨e, u, -, hr, -⟩ <;> cases hr
  exact ⟨u, hl, rfl, ht⟩

theorem runExtract_ioerr {t : State} {e : Err} (h : runExtract op n s = .next t) (hc : Completes s t (.ioerr e)) :
    ∃ u, shiftIn n (clearAcc s) = .ioerr e u ∧ t = respond (.ioerr e) u.freeAcc := by
  rcases runExtract_completes hn h hc with ⟨u, -, hr, -⟩ | ⟨e, u, hl, hr, ht⟩ <;> cases hr
  exact ⟨u, hl, ht⟩

theorem runExtract_of_done {u : State} (hl : shiftIn n (clearAcc s) = .done () u) :
    runExtract op n s = .next (respond (.ok (op.value n u.acc)) u.freeAcc) ∧
      Completes s (respond (.ok (op.value n u.acc)) u.freeAcc) (.ok (op.value n u.acc)) := by
  rw [runExtract_eq hn, hl]
  exact ⟨rfl, completes_respond _ (responses_of_shiftIn_done hl)⟩

theorem runExtract_of_ioerr {u : State} {e : Err} (hl : shiftIn n (clearAcc s) = .ioerr e u) :
    runExtract op n s = .next (respond (.ioerr e) u.freeAcc) ∧
      Completes s (respond (.ioerr e) u.freeAcc) (.ioerr e) := by
  rw [runExtract_eq hn, hl]
  exact ⟨rfl, completes_respond _ (responses_of_shiftIn_ioerr hl)⟩

end Loop

/-! The two commands of a split read against the one (R92). -/

theorem requests_respond (r : Response) (s : State) : (respond r s).requests = s.requests := by
  simp [State.requests]

/-- Between two commands the reader is as the first one's loop has left it. -/
theorem sameReader_between (r : Response) (u : State) : SameReader u (clearAcc (respond r u.freeAcc)) :=
  ⟨rfl, rfl, rfl, (requests_respond r u.freeAcc).symm⟩

theorem sameReader_respond {t u : State} (h : SameReader t u) (r r' : Response) :
    SameReader (respond r t.freeAcc) (respond r' u.freeAcc) := by
  obtain ⟨hsr, hcnt, hsrc, hreq⟩ := h
  exact ⟨hsr, hcnt, hsrc, (requests_respond r _).trans (hreq.trans (requests_respond r' _).symm)⟩

/-- The loop from a cleared accumulator gathers a pattern of its width (R80). -/
theorem toNat_acc_lt {n : Nat} {s u : State} (h : shiftIn n (clearAcc s) = .done () u) : u.acc.toNat < 2 ^ n := by
  rcases shiftIn_consumes n (clearAcc s) with ⟨t, bits, _, h', -, hlen, hacc, -⟩ | ⟨e, v, t, _, _, h', -⟩ |
    ⟨left, v, t, _, _, h', -⟩ | ⟨k, h', -⟩ <;> rw [h'] at h <;> cases h
  rw [hacc, clearAcc_acc, foldl_shiftInBit_zero, ← hlen]
  exact toNat_ofNat_natOfBits_lt bits

section Split

variable {s u : State} {a b : Nat}

theorem shiftIn_add_of_ioerr {e : Err} (h : shiftIn a (clearAcc s) = .ioerr e u) :
    shiftIn (a + b) (clearAcc s) = .ioerr e u := by
  rw [shiftIn_add, h, Fetch.andThen]

/-- After `a` bits the one loop and the second command's loop go the same way, and the one value is the two put
together. -/
theorem split_loops (hab : a + b ≤ 32) (r : Response) (h : shiftIn a (clearAcc s) = .done () u) :
    (∃ w v, shiftIn (a + b) (clearAcc s) = .done () w ∧ shiftIn b (clearAcc (respond r u.freeAcc)) = .done () v ∧
      SameReader w v ∧ w.acc.toNat = u.acc.toNat * 2 ^ b + v.acc.toNat) ∨
    (∃ e w v, shiftIn (a + b) (clearAcc s) = .ioerr e w ∧ shiftIn b (clearAcc (respond r u.freeAcc)) = .ioerr e v ∧
      SameReader w v) ∨
    (∃ left w v, shiftIn (a + b) (clearAcc s) = .hold left w ∧
      shiftIn b (clearAcc (respond r u.freeAcc)) = .hold left v) ∨
    (∃ q, shiftIn (a + b) (clearAcc s) = .refuse q ∧ shiftIn b (clearAcc (respond r u.freeAcc)) = .refuse q) := by
  rw [shiftIn_add, h, Fetch.andThen]
  rcases shiftIn_sameReader b (sameReader_between r u) with ⟨bits, w, v, hw, hv, hsame, rfl, hwacc, hvacc⟩ | hend
  · refine .inl ⟨w, v, hw, hv, hsame, ?_⟩
    have hu := toNat_acc_lt h
    have hbits := natOfBits_lt bits
    have hlt : u.acc.toNat * 2 ^ bits.length + natOfBits bits < 2 ^ 32 :=
      calc u.acc.toNat * 2 ^ bits.length + natOfBits bits
          < (u.acc.toNat + 1) * 2 ^ bits.length := by rw [Nat.add_mul, Nat.one_mul]; omega
        _ ≤ 2 ^ a * 2 ^ bits.length := Nat.mul_le_mul_right _ hu
        _ = 2 ^ (a + bits.length) := (pow_add ..).symm
        _ ≤ 2 ^ 32 := Nat.pow_le_pow_right (by decide) hab
    have hv0 : v.acc = BitVec.ofNat 32 (natOfBits bits) := hvacc.trans (foldl_shiftInBit_zero bits)
    rw [hwacc, hv0, toNat_foldl_shiftInBit, BitVec.toNat_ofNat, Nat.mod_eq_of_lt hlt, Nat.mod_eq_of_lt (by omega)]
  · exact .inr hend

variable (ha : legalBits a) (hab : legalBits (a + b))
include ha hab

/-- A first READ that fails is the one READ, failing there. -/
theorem read_of_first_ioerr {t1 : State} {e : Err} (h1 : runExtract .read a s = .next t1)
    (hc1 : Completes s t1 (.ioerr e)) :
    ∃ t, runExtract .read (a + b) s = .next t ∧ Completes s t (.ioerr e) ∧ SameReader t t1 := by
  obtain ⟨u1, hl1, rfl⟩ := runExtract_ioerr ha h1 hc1
  obtain ⟨hrun, hc⟩ := runExtract_of_ioerr (op := .read) hab (shiftIn_add_of_ioerr (b := b) hl1)
  exact ⟨_, hrun, hc, rfl, rfl, rfl, rfl⟩

variable (hb : legalBits b)
include hb

/-- Two commands that complete with OK are one READ. -/
theorem read_of_split_ok {op : Extract} {t1 t2 : State} {v y : Word} (h1 : runExtract op a s = .next t1)
    (hc1 : Completes s t1 (.ok v)) (h2 : runExtract .read b t1 = .next t2) (hc2 : Completes t1 t2 (.ok y)) :
    ∃ t x z, runExtract .read (a + b) s = .next t ∧ Completes s t (.ok z) ∧ SameReader t t2 ∧ v = op.value a x ∧
      z.toNat = x.toNat * 2 ^ b + y.toNat ∧ y.toNat < 2 ^ b := by
  obtain ⟨u1, hl1, rfl, rfl⟩ := runExtract_ok ha h1 hc1
  obtain ⟨u2, hl2, rfl, rfl⟩ := runExtract_ok hb h2 hc2
  rcases split_loops hab.2 _ hl1 with ⟨w, v2, hw, hv2, hsame, hval⟩ | ⟨e, w, v2, -, hv2, -⟩ | ⟨left, w, v2, -, hv2⟩ |
    ⟨q, -, hv2⟩ <;> rw [hl2] at hv2 <;> cases hv2
  obtain ⟨hrun, hc⟩ := runExtract_of_done (op := .read) hab hw
  exact ⟨_, u1.acc, w.acc, hrun, hc, sameReader_respond hsame _ _, rfl, hval, toNat_acc_lt hl2⟩

/-- One READ that completes with OK is two. -/
theorem split_of_read_ok {t : State} {z : Word} (h : runExtract .read (a + b) s = .next t)
    (hc : Completes s t (.ok z)) :
    ∃ t1 t2 x y, runExtract .read a s = .next t1 ∧ Completes s t1 (.ok x) ∧ runExtract .read b t1 = .next t2 ∧
      Completes t1 t2 (.ok y) := by
  obtain ⟨w, hw, -, -⟩ := runExtract_ok hab h hc
  obtain ⟨u1, hl1⟩ : ∃ u1, shiftIn a (clearAcc s) = .done () u1 := by
    rw [shiftIn_add] at hw
    cases hl : shiftIn a (clearAcc s) with
    | done _ u1 => exact ⟨u1, rfl⟩
    | ioerr e u1 => rw [hl] at hw; cases hw
    | hold left u1 => rw [hl] at hw; cases hw
    | refuse q => rw [hl] at hw; cases hw
  obtain ⟨h1, hc1⟩ := runExtract_of_done (op := .read) ha hl1
  rcases split_loops hab.2 (.ok (Extract.value .read a u1.acc)) hl1 with ⟨w', v2, -, hv2, -⟩ | ⟨e, w', v2, hw', -⟩ |
    ⟨left, w', v2, hw', -⟩ | ⟨q, hw', -⟩
  · obtain ⟨h2, hc2⟩ := runExtract_of_done (op := .read) hb hv2
    exact ⟨_, _, _, _, h1, hc1, h2, hc2⟩
  all_goals rw [hw] at hw'; cases hw'

/-- One READ that fails is a first that fails, or a first and then a second that fails, at the same request. -/
theorem split_of_read_ioerr {t : State} {e : Err} (h : runExtract .read (a + b) s = .next t)
    (hc : Completes s t (.ioerr e)) :
    (∃ t1, runExtract .read a s = .next t1 ∧ Completes s t1 (.ioerr e) ∧ SameReader t t1) ∨
    ∃ t1 t2 x, runExtract .read a s = .next t1 ∧ Completes s t1 (.ok x) ∧ runExtract .read b t1 = .next t2 ∧
      Completes t1 t2 (.ioerr e) ∧ SameReader t t2 := by
  obtain ⟨w, hw, rfl⟩ := runExtract_ioerr hab h hc
  cases hl : shiftIn a (clearAcc s) with
  | done _ u1 =>
    obtain ⟨h1, hc1⟩ := runExtract_of_done (op := .read) ha hl
    rcases split_loops hab.2 (.ok (Extract.value .read a u1.acc)) hl with ⟨w', v2, hw', -⟩ |
      ⟨e', w', v2, hw', hv2, hsame⟩ | ⟨left, w', v2, hw', -⟩ | ⟨q, hw', -⟩ <;> rw [hw] at hw' <;> cases hw'
    obtain ⟨h2, hc2⟩ := runExtract_of_ioerr (op := .read) hb hv2
    exact .inr ⟨_, _, _, h1, hc1, h2, hc2, sameReader_respond hsame _ _⟩
  | ioerr e' u1 =>
    rw [shiftIn_add_of_ioerr hl] at hw
    cases hw
    obtain ⟨h1, hc1⟩ := runExtract_of_ioerr (op := .read) ha hl
    exact .inl ⟨_, h1, hc1, rfl, rfl, rfl, rfl⟩
  | hold left u1 => rw [shiftIn_add, hl] at hw; cases hw
  | refuse q => rw [shiftIn_add, hl] at hw; cases hw

/-- A second READ that fails is the one READ, failing there. -/
theorem read_of_second_ioerr {t1 t2 : State} {x : Word} {e : Err} (h1 : runExtract .read a s = .next t1)
    (hc1 : Completes s t1 (.ok x)) (h2 : runExtract .read b t1 = .next t2) (hc2 : Completes t1 t2 (.ioerr e)) :
    ∃ t, runExtract .read (a + b) s = .next t ∧ Completes s t (.ioerr e) ∧ SameReader t t2 := by
  obtain ⟨u1, hl1, -, rfl⟩ := runExtract_ok ha h1 hc1
  obtain ⟨u2, hl2, rfl⟩ := runExtract_ioerr hb h2 hc2
  rcases split_loops hab.2 _ hl1 with ⟨w, v2, -, hv2, -⟩ | ⟨e, w, v2, hw, hv2, hsame⟩ | ⟨left, w, v2, -, hv2⟩ |
    ⟨q, -, hv2⟩ <;> rw [hl2] at hv2 <;> cases hv2
  obtain ⟨hrun, hc⟩ := runExtract_of_ioerr (op := .read) hab hw
  exact ⟨_, hrun, hc, sameReader_respond hsame _ _⟩

end Split

/-- Settles O23: the loop over `a + b` bits is the loop over `a` and then over `b`, and the response between them
changes nothing the reader goes by. -/
theorem splitReadsCompose : Obligations.SplitReadsCompose := by
  intro s a b h1a h1b h32
  have ha : legalBits a := ⟨h1a, show a ≤ 32 by omega⟩
  have hb : legalBits b := ⟨h1b, show b ≤ 32 by omega⟩
  have hab : legalBits (a + b) := ⟨show 1 ≤ a + b by omega, h32⟩
  refine ⟨fun t1 t2 x y h1 hc1 h2 hc2 => ?_, fun t1 t2 v y h1 hc1 h2 hc2 => ?_,
    fun t z h hc => split_of_read_ok ha hab hb h hc, fun t e h hc => split_of_read_ioerr ha hab hb h hc,
    fun t1 e h1 hc1 => read_of_first_ioerr ha hab h1 hc1,
    fun t1 t2 x e h1 hc1 h2 hc2 => read_of_second_ioerr ha hab hb h1 hc1 h2 hc2⟩
  · obtain ⟨t, x', z, h, hc, hsame, rfl, hz, -⟩ := read_of_split_ok (op := .read) ha hab hb h1 hc1 h2 hc2
    exact ⟨t, z, h, hc, hsame, hz⟩
  · obtain ⟨t, x, z, h, hc, hsame, -, hz, hy⟩ := read_of_split_ok (op := .skip) ha hab hb h1 hc1 h2 hc2
    refine ⟨t, z, h, hc, hsame, ?_⟩
    rw [hz, Nat.add_comm, Nat.add_mul_mod_self_right, Nat.mod_eq_of_lt hy]

end Sys2Proof.Machine

/-! The read bytes family: READ_BYTES on its aligned and its unaligned path, and against single reads. -/

namespace Sys2Proof.Machine

open Sys2Proof.Claims

/-! The path is chosen from ALIGNED (R100). -/

section Path

variable {s : State} {len : Nat} (hlen : len < 2 ^ 24)
include hlen

theorem exec_readBytes_aligned (h0 : s.cnt = 0) : exec (.readBytes len) s = bulkRead len s := by
  rw [exec, execReadBytes, if_pos hlen, if_pos ((aligned_iff s).mpr h0)]

theorem exec_readBytes_unaligned (h0 : s.cnt ≠ 0) :
    exec (.readBytes len) s = finishBytes len (fillBytes len 0 s) := by
  rw [exec, execReadBytes, if_pos hlen, if_neg fun ha => h0 ((aligned_iff s).mp ha)]

end Path

/-- Settles O29: the aligned path's request of length 0 is answered at once, the unaligned loop has no turn. -/
theorem readBytesOfLengthZero : Obligations.ReadBytesOfLengthZero := by
  refine fun s => ⟨fun h0 => ?_, fun h0 => ?_⟩
  · rw [exec_readBytes_aligned (by decide) h0, bulkRead, srcRead_zero]
    simp [dstWriteAll, respond, State.record]
  · rw [exec_readBytes_unaligned (by decide) h0, fillBytes, finishBytes]
    rfl

/-! The aligned path (R101, R103). -/

section Bulk

variable {s : State} {len : Nat} {rest : List SrcMove} (h0 : s.cnt = 0) (h1 : 1 ≤ len) (hlen : len < 2 ^ 24)
include h0 h1 hlen

theorem exec_readBytes_of_ok {bytes : List Byte} (hl : bytes.length = len)
    (hs : s.source = .answers (.ok bytes) :: rest) :
    exec (.readBytes len) s = .next (respond (.ok 0)
      (dstWriteAll 0 bytes ({ s with source := rest }.record (.srcRead len (.ok bytes))))) := by
  rw [exec_readBytes_aligned hlen h0, bulkRead, srcRead_ok (by omega) hs hl]

theorem exec_readBytes_of_err {e : Err} (hs : s.source = .answers (.err e) :: rest) :
    exec (.readBytes len) s =
      .next (raiseIOError e ({ s with source := rest }.record (.srcRead len (.err e)))) := by
  rw [exec_readBytes_aligned hlen h0, bulkRead, srcRead_err (by omega) hs]

end Bulk

theorem bulkWrites_eq_map_zipIdx (bytes : List Byte) :
    bulkWrites bytes = (bytes.zipIdx 0).map fun c => .dstWrite c.2 c.1 := by
  refine List.ext_getElem (by simp [bulkWrites]) fun i h _ => ?_
  have hi : i < bytes.length := by simpa [bulkWrites] using h
  simp [bulkWrites, hi]

@[simp] theorem response_bulkWrites (bytes : List Byte) : (bulkWrites bytes).filterMap Event.response = [] := by
  simp [bulkWrites, List.filterMap_map]

@[simp] theorem request_bulkWrites (bytes : List Byte) : (bulkWrites bytes).filterMap Event.request = [] := by
  simp [bulkWrites, List.filterMap_map]

theorem delivered_bulk (len : Nat) (bytes : List Byte) (s : State) :
    (dstWriteAll 0 bytes (s.record (.srcRead len (.ok bytes)))).delivered = s.delivered ++ bytes := by
  rw [dstWriteAll_delivered]
  simp [State.delivered]

/-- Settles O25: the one request brings the bytes, and the writes put each at its own index. -/
theorem alignedReadBytesBypassesTheBuffer : Obligations.AlignedReadBytesBypassesTheBuffer := by
  rintro s _ bytes rest h0 h1 hlen rfl hs
  have hd := delivered_bulk bytes.length bytes { s with source := rest }
  refine ⟨_, exec_readBytes_of_ok h0 h1 hlen rfl hs, ?_, fun j => ?_, ?_, ?_⟩
  · rw [dstWriteAll_eq, bulkWrites_eq_map_zipIdx]
    rfl
  · rw [respond_dst, read_dstWriteAll]
    simp
  · rw [nb_respond, State.nb, hd, List.length_append]
    rfl
  · rw [pos_respond]
    exact pos_of_delivered h0 (by rw [dstWriteAll_eq]; rfl) hd

/-- Settles O26: the failing request comes before the first write, and it delivers nothing. -/
theorem alignedReadBytesFailsWhole : Obligations.AlignedReadBytesFailsWhole := by
  intro s len e rest h0 h1 hlen hs
  refine ⟨_, exec_readBytes_of_err h0 h1 hlen hs, ?_, (buf_eq_nil_iff _).mpr h0, ?_, ?_⟩
  · rw [raiseIOError, respond, State.record, State.record, List.append_assoc]
    rfl
  · simp [State.nb, State.delivered]
  · simp [State.pos, State.nb, State.delivered]

/-! The unaligned path (R102, R104). -/

/-- The events of the byte loop, by index. -/
theorem fillFrom_eq_flatMap (i : Nat) (bits : List Bool) (bytes : List Byte) :
    fillFrom i bits bytes = (List.range bytes.length).flatMap fun k =>
      [.srcRead 1 (.ok [bytes.getD k 0]), .dstWrite (i + k) (assembled bits k)] := by
  induction bytes generalizing i bits with
  | nil => rfl
  | cons b bytes ih =>
    rw [fillFrom, ih, List.length_cons, List.range_succ_eq_map, List.flatMap_cons, List.flatMap_map]
    simp [assembled, Nat.mul_add, Nat.add_comm, Nat.add_left_comm]

theorem fillFrom_zero (bits : List Bool) (bytes : List Byte) : fillFrom 0 bits bytes = fillEvents bits bytes := by
  simp [fillFrom_eq_flatMap, fillEvents]

/-- The byte loop from its start, over the bytes that are there: as many bits stay buffered as before (R107). -/
theorem fillBytes_zero_run {s : State} {bytes : List Byte} {tail : List SrcMove} {len : Nat} (hc : s.Canonical)
    (hs : s.source = byteAnswers bytes ++ tail) (hlen : bytes.length ≤ len) :
    ∃ t, fillBytes len 0 s = fillBytes (len - bytes.length) bytes.length t ∧
      t = { s.afterBits (8 * bytes.length) bytes tail with
        acc := t.acc, fresh := t.fresh, dst := t.dst, trace := s.trace ++ fillEvents (s.bitsWith bytes) bytes } ∧
      t.Canonical ∧ t.cnt = s.cnt ∧
      ∀ j, t.dst.read j =
        if j < bytes.length then some (assembled (s.bitsWith bytes) j) else s.dst.read j := by
  obtain ⟨t, hrun, ht, hcan, hbuf, hdst⟩ := fillBytes_run len 0 hc hs hlen
  rw [Nat.zero_add] at hrun
  rw [fillFrom_zero] at ht
  refine ⟨t, hrun, ht, hcan, BitVec.eq_of_toNat_eq ?_, fun j => ?_⟩
  · rw [← length_buf t, hbuf, List.length_drop, length_bitsWith, Nat.add_sub_cancel_right]
  · simpa [streamByte, assembled] using hdst j

/-- Settles O27: the byte loop over exactly the bytes it needs. -/
theorem unalignedReadBytesAssembles : Obligations.UnalignedReadBytesAssembles := by
  intro s bytes rest hc h0 hlen hs
  obtain ⟨t, hrun, ht, -, hcnt, hdst⟩ := fillBytes_zero_run hc hs (le_refl _)
  refine ⟨respond (.ok 0) t, ?_, ?_, hcnt, hdst⟩
  · rw [exec_readBytes_unaligned hlen h0, hrun, Nat.sub_self, fillBytes, finishBytes]
  · rw [respond, State.record, ht]

/-- The byte loop whose next refill fails (R104): the bits popped for the byte are lost. -/
theorem fillBytes_err {s : State} {n i : Nat} {e : Err} {rest : List SrcMove} (hc : s.Canonical) (hn : 1 ≤ n)
    (hs : s.source = .answers (.err e) :: rest) :
    fillBytes n i s = .ioerr e { s with
      sr := 0, cnt := 0, source := rest, acc := Config.freeWord s.fresh, fresh := s.fresh + 1
      trace := s.trace ++ [.srcRead 1 (.err e)] } := by
  obtain ⟨m, rfl⟩ := Nat.exists_eq_add_of_le' hn
  have h7 : s.cnt.toNat ≤ 7 := hc.1
  rw [fillBytes, readBits_err (bytes := []) hc hs (by simp; omega), byteReads_nil, List.append_nil]

/-- Settles O28: the byte loop over the bytes that are there, and then the failing refill. -/
theorem unalignedReadBytesFillsPartly : Obligations.UnalignedReadBytesFillsPartly := by
  intro s len bytes e rest hc h0 hlen hb hs
  obtain ⟨t, hrun, ht, hcan, -, hdst⟩ := fillBytes_zero_run hc hs hb.le
  have hsrc : t.source = .answers (.err e) :: rest := by rw [ht]; rfl
  have hexec := exec_readBytes_unaligned hlen h0
  rw [hrun, fillBytes_err hcan (by omega) hsrc, finishBytes] at hexec
  refine ⟨_, hexec, ?_, pos_of_aligned rfl, hdst⟩
  rw [raiseIOError, respond, State.record, ht]
  simp [State.afterBits]

/-! The alignment after READ_BYTES (R107). -/

/-- Of a stream whose last byte is `b`, a buffer of at most eight bits is the low ones of `b`. -/
theorem buf_eq_drop_of_getLast? {t : State} {b : Byte} (h : t.BufferIsStreamEnd) (h8 : t.cnt.toNat ≤ 8)
    (hb : t.delivered.getLast? = some b) : t.buf = (byteBits b).drop (8 - t.cnt.toNat) := by
  obtain ⟨front, hfront⟩ := List.getLast?_eq_some_iff.mp hb
  have hstream : t.streamBits = front.flatMap byteBits ++ byteBits b := by
    rw [State.streamBits, hfront, List.flatMap_append, List.flatMap_singleton]
  have hsfx : t.buf <:+ byteBits b := by
    refine List.suffix_of_suffix_length_le h (hstream ▸ List.suffix_append ..) ?_
    rw [length_buf, length_byteBits]
    exact h8
  rw [List.suffix_iff_eq_drop.mp hsfx, length_buf, length_byteBits]

/-- Whole bytes consumed, as many bits buffered as before: both buffers hold less than a byte (R107). -/
theorem Fills.cnt_eq {i n : Nat} {s t : State} {bits : List Bool} {bytes : List Byte} {evs : List Event}
    (c : Fills i n s t bits bytes evs) (hc : s.Canonical) (hbits : bits.length = 8 * n) : t.cnt = s.cnt := by
  have hs : s.cnt.toNat ≤ 7 := hc.1
  have ht : t.cnt.toNat ≤ 7 := (c.canonical hc).1
  have hlen := congrArg List.length c.stream
  rw [length_bitsWith, List.length_append, length_buf] at hlen
  exact BitVec.eq_of_toNat_eq (by omega)

/-- The aligned path never touches the buffer (R101). -/
theorem cnt_bulkRead {len : Nat} {s t : State} (h : bulkRead len s = .next t) : t.cnt = s.cnt := by
  rcases bulkRead_cases len s with ⟨-, h'⟩ | ⟨-, bytes, rest, -, -, h'⟩ | ⟨-, e, rest, -, h'⟩ | ⟨-, -, h'⟩ |
    ⟨-, rest, -, h'⟩ | ⟨-, k, h', -⟩ <;> rw [h'] at h <;> cases h
  case inr.inl => rw [dstWriteAll_eq]; rfl
  all_goals rfl

theorem legalLen_of_exec {s t : State} {len : Nat} (h : exec (.readBytes len) s = .next t) : legalLen len := by
  by_contra hlen
  rw [exec, execReadBytes, if_neg hlen] at h
  cases h

/-- READ_BYTES that ends OK: as many bits are buffered as before, and they end the stream (R18, R107). -/
theorem exec_readBytes_ok {s t : State} {len : Nat} {v : Word} (hc : s.Canonical) (hs : s.BufferIsStreamEnd)
    (h : exec (.readBytes len) s = .next t) (hcomp : Completes s t (.ok v)) :
    t.cnt = s.cnt ∧ t.BufferIsStreamEnd := by
  have hlen := legalLen_of_exec h
  by_cases h0 : s.cnt = 0
  · rw [exec_readBytes_aligned hlen h0] at h
    have hcnt := cnt_bulkRead h
    refine ⟨hcnt, ?_⟩
    rw [State.BufferIsStreamEnd, (buf_eq_nil_iff t).mpr (hcnt.trans h0)]
    exact List.nil_suffix
  · rw [exec_readBytes_unaligned hlen h0] at h
    rcases finishBytes_cases len len 0 s with ⟨u, bits, _, _, h', c, hbits⟩ | ⟨e, u, w, _, _, _, m, h', c, st, -⟩ |
      ⟨left, u, w, _, _, _, m, h', -⟩ | ⟨k, h', -⟩ <;> rw [h'] at h <;> cases h
    · refine ⟨c.cnt_eq hc hbits, ?_⟩
      rw [State.BufferIsStreamEnd, streamBits_respond]
      exact (c.stream_run hs).1
    · cases response_eq_of_completes (st.responses.trans c.responses_eq) hcomp
    · exact absurd hcomp not_completes_holdOn

/-- Settles O30: with status OK the buffer is as long as before and ends the stream, so it ends the last byte. -/
theorem readBytesKeepsAlignment : Obligations.ReadBytesKeepsAlignment := by
  intro s t len r hinv h hcomp
  obtain ⟨hc, hend, -, -⟩ := hinv
  cases r with
  | ok v =>
    obtain ⟨hcnt, hend'⟩ := exec_readBytes_ok hc hend h hcomp
    have h7 : s.cnt.toNat ≤ 7 := hc.1
    refine ⟨by rw [length_buf, length_buf, hcnt], by rw [State.aligned, hcnt, State.aligned], fun b hb => ?_⟩
    rw [length_buf, ← hcnt]
    exact buf_eq_drop_of_getLast? hend' (by rw [hcnt]; omega) hb
  | ioerr e => exact (aligned_iff t).mpr (cnt_of_ioerr h hcomp)

/-! One bulk read against single reads (R105). -/

/-- The events of one `read 8` for each byte. -/
def singleReads (bytes : List Byte) : List Event :=
  bytes.flatMap fun b => [.srcRead 1 (.ok [b]), .respond (.ok (b.zeroExtend 32))]

theorem singleReads_cons (b : Byte) (bytes : List Byte) :
    singleReads (b :: bytes) = singleReads [b] ++ singleReads bytes := by
  simp [singleReads]

@[simp] theorem delivers_singleReads (bytes : List Byte) : (singleReads bytes).flatMap Event.delivers = bytes := by
  simp [singleReads, List.flatMap_assoc]

@[simp] theorem response_singleReads (bytes : List Byte) :
    (singleReads bytes).filterMap Event.response = bytes.map fun b => .ok (b.zeroExtend 32) := by
  simp [singleReads, List.filterMap_flatMap, List.filterMap_cons, List.map_eq_flatMap]

@[simp] theorem request_singleReads (bytes : List Byte) :
    (singleReads bytes).filterMap Event.request = bytes.map fun b => (1, .ok [b]) := by
  simp [singleReads, List.filterMap_flatMap, List.filterMap_cons, List.map_eq_flatMap]

/-- An aligned `read 8` answers with the next byte, and the reader is aligned again. -/
theorem exec_read_byte {s : State} {b : Byte} {tail : List SrcMove} (hc : s.Canonical) (h0 : s.cnt = 0)
    (hs : s.source = .answers (.ok [b]) :: tail) :
    ∃ t, exec (.read 8) s = .next t ∧
      t = { s with
        acc := t.acc, fresh := t.fresh, busy := none, source := tail, trace := s.trace ++ singleReads [b] } := by
  have hbits : s.bitsWith [b] = byteBits b := by
    rw [State.bitsWith, (buf_eq_nil_iff s).mpr h0, List.nil_append, List.flatMap_singleton]
  have hrun := runExtract_run (n := 8) (bytes := [b]) hc (by decide) (by decide) .read hs (by rw [h0]; rfl)
  have htake : (byteBits b).take 8 = byteBits b := List.take_of_length_le (length_byteBits b).le
  have hdrop : (byteBits b).drop 8 = [] := List.drop_of_length_le (length_byteBits b).le
  rw [hbits, htake, natOfBits_byteBits, Extract.value] at hrun
  refine ⟨_, hrun, ?_⟩
  rw [State.afterBits, hbits, hdrop, leftJustify_nil, ← sr_eq_zero_of_aligned hc h0, List.length_nil,
    show BitVec.ofNat 4 0 = s.cnt from h0.symm]
  simp [respond, State.record, State.freeAcc, singleReads]

theorem runReads_next (k : Nat) {s t : State} (h : exec (.read 8) s = .next t) : runReads (k + 1) s = runReads k t := by
  rw [runReads, h]

/-- One `read 8` for each byte that is there, and what is left to do. -/
theorem runReads_byteAnswers {s : State} {bytes : List Byte} {tail : List SrcMove} (k : Nat) (hc : s.Canonical)
    (h0 : s.cnt = 0) (hs : s.source = byteAnswers bytes ++ tail) :
    ∃ u, runReads (bytes.length + k) s = runReads k u ∧
      u = { s with
        acc := u.acc, fresh := u.fresh, busy := u.busy, source := tail, trace := s.trace ++ singleReads bytes } := by
  induction bytes generalizing s with
  | nil =>
    rw [byteAnswers_nil, List.nil_append] at hs
    exact ⟨s, by simp, by simp [singleReads, ← hs]⟩
  | cons b bytes ih =>
    obtain ⟨t, hread, ht⟩ := exec_read_byte hc h0 hs
    have hsr : t.sr = s.sr := by rw [ht]
    have hcnt : t.cnt = s.cnt := by rw [ht]
    obtain ⟨u, hrun, hu⟩ := ih (s := t) (by rw [State.Canonical, hsr, hcnt]; exact hc) (hcnt.trans h0) (by rw [ht]; rfl)
    refine ⟨u, ?_, hu.trans ?_⟩
    · rw [List.length_cons, Nat.add_right_comm, runReads_next _ hread, hrun]
    · rw [ht, List.append_assoc, ← singleReads_cons]

/-- An aligned `read 8` whose refill fails responds with the error. -/
theorem exec_read_byte_err {s : State} {e : Err} {rest : List SrcMove} (hc : s.Canonical) (h0 : s.cnt = 0)
    (hs : s.source = .answers (.err e) :: rest) :
    ∃ t, exec (.read 8) s = .next t ∧ t.trace = s.trace ++ [.srcRead 1 (.err e), .respond (.ioerr e)] :=
  ⟨_, runExtract_err (n := 8) (bytes := []) hc (by decide) (by decide) .read hs (by rw [h0]; decide), by simp⟩

/-- Settles O31: both ways deliver the same bytes to an empty buffer; of a source that runs short the one request fails,
or the last of the single ones. -/
theorem bulkReadEqualsByteReads : Obligations.BulkReadEqualsByteReads := by
  intro s bytes rest hc h0
  refine ⟨fun h1 hlen => ?_, fun len e hb hlen => ?_⟩
  · obtain ⟨t, hbulk, ht, hread, -, hpos⟩ := alignedReadBytesBypassesTheBuffer
      { s with source := .answers (.ok bytes) :: rest } bytes.length bytes rest h0 h1 hlen rfl rfl
    obtain ⟨u, hruns, hu⟩ := runReads_byteAnswers (s := { s with source := byteAnswers bytes ++ rest }) 0 hc h0 rfl
    have htcnt : t.cnt = s.cnt := by rw [ht]
    have hucnt : u.cnt = s.cnt := by rw [hu]
    have hupos : u.pos = s.pos + 8 * bytes.length := pos_of_delivered h0 hucnt (by rw [hu]; simp [State.delivered])
    refine ⟨t, u, hbulk, hruns, ⟨by rw [ht], ?_⟩, ?_, fun j hj => by rw [hread, if_pos hj], by rw [ht, hu],
      htcnt.trans hucnt.symm, htcnt.trans h0, hpos.trans hupos.symm, ?_, ?_⟩
    · rw [ht]
      simp [State.responses, List.filterMap_cons]
    · rw [hu]
      simp [State.responses]
    · rw [ht]
      simp [State.requests, List.filterMap_cons]
    · rw [hu]
      simp [State.requests]
  · obtain ⟨t, hbulk, ht, -⟩ := alignedReadBytesFailsWhole
      { s with source := .answers (.err e) :: rest } len e rest h0 (by omega) hlen rfl
    obtain ⟨u, hruns, hu⟩ := runReads_byteAnswers
      (s := { s with source := byteAnswers bytes ++ .answers (.err e) :: rest }) 1 hc h0 rfl
    obtain ⟨v, hlast, hv⟩ := exec_read_byte_err (s := u) (e := e) (rest := rest) (by rw [hu]; exact hc)
      (by rw [hu]; exact h0) (by rw [hu])
    refine ⟨t, v, hbulk, hruns.trans (runReads_next 0 hlast), ⟨by rw [ht], ?_⟩, by rw [ht], ?_⟩
    · rw [ht]
      simp [State.responses, List.filterMap_cons]
    · rw [State.responses, hv, hu]
      simp [State.responses, List.filterMap_cons]

end Sys2Proof.Machine

/-! The unary family: the count up to the stop bit, and how a unary read ends without one. -/

namespace Sys2Proof.Machine

open Sys2Proof.Claims

theorem exec_unaryOf (stop : Bool) (s : State) : exec (unaryOf stop) s = runUnary stop s := by
  cases stop <;> rfl

/-! One turn of the loop. -/

section Turn

variable {stop : Bool} {s : State} {bytes : List Byte} {tail : List SrcMove} {more : List Bool} (hc : s.Canonical)
  (hs : s.source = byteAnswers bytes ++ tail)
include hc hs

/-- `read(1)` yields the first bit ahead, however many bytes follow it, and leaves the count. -/
theorem readBits_one {b : Bool} (hb : s.bitsWith bytes = b :: more) :
    ∃ v u, readBits 1 s = .done v u ∧ v.getLsbD 0 = b ∧ u.uc = s.uc := by
  have hlen := congrArg List.length hb
  rw [length_bitsWith, List.length_cons] at hlen
  obtain ⟨b', t, bytes', hbit, -, -, hcons, -, -, ht⟩ :=
    nextBit_run (n := 0) (s := { s with acc := 0 }) hc hs (by simp only [needBytes]; omega)
  obtain ⟨rfl, -⟩ := List.cons.inj (hcons.symm.trans hb)
  have hread : readBits 1 s = .done (shiftInBit t.acc b') ({ t with acc := shiftInBit t.acc b' } : State).freeAcc := by
    simp only [readBits, shiftIn, hbit, takeAcc]
  refine ⟨_, _, hread, ?_, by rw [ht]; rfl⟩
  rw [show t.acc = 0 by rw [ht]]
  cases b' <;> rfl

/-- A counted bit past the greatest count is refused (R114). -/
theorem finishUnary_overflow (turns : Nat) (hb : s.bitsWith bytes = (!stop) :: more) (hu : s.uc = Config.ucMax) :
    finishUnary stop (unaryLoop stop (turns + 1) s) = .refused .unaryOverflow := by
  obtain ⟨v, u, hread, hv, huc⟩ := readBits_one hc hs hb
  have hne : ¬ v.getLsbD 0 = stop := by rw [hv]; exact Bool.not_not_eq.mpr rfl
  rw [unaryLoop, hread]
  simp only [if_neg hne, if_pos (huc.trans hu), finishUnary]

/-- The stop bit ends the loop, consumed and not counted: the count so far is the response (R110, R111). -/
theorem finishUnary_stop (turns : Nat) (hb : s.bitsWith bytes = stop :: more)
    (hn : bytes.length = needBytes s.cnt.toNat 1) :
    finishUnary stop (unaryLoop stop (turns + 1) s) =
      .next (respond (.ok s.uc) (s.afterBits 1 bytes tail).freeAcc.freeUc) := by
  rw [unaryLoop, readBits_run hc hs hn, hb]
  simp only [List.take_succ_cons, List.take_zero, ofNat_one_bit, if_true, finishUnary]
  rfl

end Turn

/-! A unary read from its start, up to any of its counted bits (R110, R111). -/

/-- After `c` counted bits the count is `c` and the bits `more` are ahead. `k` more bits are known to need no more bytes
than there are. -/
theorem exec_unary_counted {stop : Bool} {s : State} {c : Nat} {bytes : List Byte} {tail : List SrcMove}
    {more : List Bool} (hc : s.Canonical) (h32 : c < 2 ^ 32) (hs : s.source = byteAnswers bytes ++ tail)
    (hb : s.bitsWith bytes = List.replicate c (!stop) ++ more) (k : Nat)
    (hn : needBytes s.cnt.toNat (c + k) ≤ bytes.length) :
    ∃ t bytes' turns, exec (unaryOf stop) s = finishUnary stop (unaryLoop stop (turns + 1) t) ∧ t.Canonical ∧
      t.source = byteAnswers bytes' ++ tail ∧ t.bitsWith bytes' = more ∧
      t = { s with
        sr := t.sr, cnt := t.cnt, acc := t.acc, uc := BitVec.ofNat 32 c, fresh := t.fresh
        source := t.source, trace := t.trace } ∧
      t.trace ++ byteReads bytes' = s.trace ++ byteReads bytes ∧
      needBytes t.cnt.toNat k + bytes.length = needBytes s.cnt.toNat (c + k) + bytes'.length := by
  have hlen := congrArg List.length hb
  have hsrc := congrArg List.length hs
  simp only [length_bitsWith, List.length_append, List.length_replicate, byteAnswers, List.length_map] at hlen hsrc
  have hahead : c ≤ bitsAhead s := by rw [bitsAhead]; omega
  obtain ⟨t, bytes', hrun, hcan, hsrc', hbits, ht, htr, hneed⟩ :=
    unaryLoop_run stop k c (s := { s with uc := 0 }) (bitsAhead s + 1) hc hs (by simpa using h32) hb hn (by omega)
  refine ⟨t, bytes', bitsAhead s - c, ?_, hcan, hsrc', hbits, ?_, htr, hneed⟩
  · rw [exec_unaryOf, runUnary, resumeUnary, show bitsAhead s - c + 1 = bitsAhead s + 1 - c by omega, ← hrun]
    rfl
  · have hcount : (0 : Word) + BitVec.ofNat 32 c = BitVec.ofNat 32 c := BitVec.zero_add _
    rw [← hcount]
    exact ht

/-- Settles O33: the run over the counted bits, and the turn of the stop bit. -/
theorem unaryReadCountsToTheStopBit : Obligations.UnaryReadCountsToTheStopBit := by
  intro stop s c left bytes rest hc h32 hs hb hn
  obtain ⟨t, bytes', turns, hrun, hcan, hsrc, hbits, ht, htr, hneed⟩ := exec_unary_counted hc h32 hs hb 1 hn.ge
  have hn' : bytes'.length = needBytes t.cnt.toNat 1 := by omega
  have hdrop : (s.bitsWith bytes).drop (c + 1) = (t.bitsWith bytes').drop 1 := by
    rw [hb, hbits, ← List.drop_drop, List.drop_left' (List.length_replicate ..)]
  obtain ⟨-, hbuf, -⟩ := afterBits_facts hcan hsrc hn'
  rw [finishUnary_stop hcan hsrc turns hbits hn'] at hrun
  refine ⟨_, hrun, ?_, hbuf.trans (by rw [hbits]; rfl)⟩
  have huc : t.uc = BitVec.ofNat 32 c := by rw [ht]
  simp only [State.afterBits, hdrop, respond, State.record, State.freeAcc, State.freeUc, ← htr, huc]
  rw [ht]

/-! A unary read that finds no stop bit (R112, R113). -/

/-- All bits that are there counted: the next turn asks the source for more, with the count reached (R112). -/
theorem exec_unary_drained {stop : Bool} {s : State} {c : Nat} {bytes : List Byte} {tail : List SrcMove}
    (hc : s.Canonical) (h32 : c < 2 ^ 32) (hs : s.source = byteAnswers bytes ++ tail)
    (hb : s.bitsWith bytes = List.replicate c (!stop)) :
    ∃ t turns, exec (unaryOf stop) s = finishUnary stop (unaryLoop stop (turns + 1) t) ∧ t.Canonical ∧
      t = { s with
        sr := 0, cnt := 0, acc := t.acc, uc := BitVec.ofNat 32 c, fresh := t.fresh, source := tail
        trace := s.trace ++ byteReads bytes } := by
  have hlen := congrArg List.length hb
  rw [length_bitsWith, List.length_replicate] at hlen
  obtain ⟨t, bytes', turns, hrun, hcan, hsrc, hbits, ht, htr, -⟩ :=
    exec_unary_counted hc h32 hs (hb.trans (List.append_nil _).symm) 0 (by rw [needBytes]; omega)
  obtain ⟨hbuf, hbytes⟩ := List.append_eq_nil_iff.mp hbits
  have hcnt : t.cnt = 0 := (buf_eq_nil_iff t).mp hbuf
  obtain rfl : bytes' = [] := by
    have := length_flatMap_byteBits bytes'
    rw [hbytes] at this
    exact List.length_eq_zero_iff.mp (by simpa using this.symm)
  rw [byteReads_nil, List.append_nil] at htr
  rw [sr_eq_zero_of_aligned hcan hcnt, hcnt, htr, show t.source = tail from hsrc] at ht
  exact ⟨t, turns, hrun, hcan, ht⟩

/-- Settles O34: the bits there are counted, and the next refill fails. -/
theorem unaryReadFailsWithoutAStopBit : Obligations.UnaryReadFailsWithoutAStopBit := by
  intro stop s c bytes e rest hc h32 hs hb
  obtain ⟨t, turns, hrun, hcan, ht⟩ := exec_unary_drained hc h32 hs hb
  have hsrc : t.source = byteAnswers [] ++ .answers (.err e) :: rest := by rw [ht]; rfl
  have hcnt : t.cnt = 0 := by rw [ht]
  rw [unaryLoop, readBits_err hcan hsrc (by rw [hcnt]; decide), finishUnary] at hrun
  refine ⟨_, hrun, ?_, rfl, pos_of_aligned rfl⟩
  rw [ht]
  simp [raiseIOError, respond, State.record, State.freeUc]

/-- Settles O35: the bits there are counted, and the next refill is not answered. -/
theorem unaryReadIsHeldWithoutAnAnswer : Obligations.UnaryReadIsHeldWithoutAnAnswer := by
  intro stop s c bytes hc h32 hs hb
  obtain ⟨t, turns, hrun, hcan, ht⟩ := exec_unary_drained hc h32 (hs.trans (List.append_nil _).symm) hb
  have hsrc : t.source = byteAnswers [] := by rw [ht]; rfl
  have hcnt : t.cnt = 0 := by rw [ht]
  rw [unaryLoop, readBits_hold hcan hsrc (by rw [hcnt]; decide), finishUnary] at hrun
  refine ⟨_, hrun, ?_⟩
  rw [bitsWith_nil, (buf_eq_nil_iff t).mpr hcnt, ht]
  simp [holdOn]

/-! The greatest count (R114). -/

/-- The requests of a run of bits give no response. -/
theorem responses_afterBits (s : State) (n : Nat) (bytes : List Byte) (tail : List SrcMove) :
    (s.afterBits n bytes tail).responses = s.responses := by
  simp [State.responses, State.afterBits, byteReads, List.filterMap_map, Function.comp_def]

/-- A unary read at the greatest count: one more counted bit is refused, the stop bit is answered (R114). -/
theorem resumeUnary_at_max {stop b : Bool} {s : State} {bytes : List Byte} {tail : List SrcMove} {more : List Bool}
    (hc : s.Canonical) (hu : s.uc = 0xFFFFFFFF) (hs : s.source = byteAnswers bytes ++ tail)
    (hb : s.bitsWith bytes = b :: more) (hn : bytes.length = needBytes s.cnt.toNat 1) :
    (b ≠ stop → resumeUnary stop s = .refused .unaryOverflow) ∧
    (b = stop → ∃ t, resumeUnary stop s = .next t ∧ Completes s t (.ok 0xFFFFFFFF) ∧ t.buf = more ∧ t.source = tail) := by
  refine ⟨fun hne => ?_, ?_⟩
  · obtain rfl : b = !stop := Bool.eq_not_of_ne hne
    exact finishUnary_overflow hc hs _ hb hu
  · rintro rfl
    obtain ⟨-, hbuf, -⟩ := afterBits_facts hc hs hn
    refine ⟨_, finishUnary_stop hc hs _ hb hn, ?_, hbuf.trans (by rw [hb]; rfl), rfl⟩
    rw [hu]
    exact completes_respond _ (responses_afterBits s 1 bytes tail)

/-- A unary read whose first `n + 1 = 2^32` bits are all counted: the last of them is refused (R114). -/
theorem exec_unary_overflow {stop : Bool} {s : State} {n : Nat} {bytes : List Byte} {tail : List SrcMove}
    {more : List Bool} (hc : s.Canonical) (hn : n + 1 = 2 ^ 32) (hs : s.source = byteAnswers bytes ++ tail)
    (hb : s.bitsWith bytes = List.replicate n (!stop) ++ (!stop) :: more) :
    exec (unaryOf stop) s = .refused .unaryOverflow := by
  have hlen := congrArg List.length hb
  rw [length_bitsWith, List.length_append, List.length_replicate] at hlen
  obtain ⟨t, bytes', turns, hrun, hcan, hsrc, hbits, ht, -, -⟩ :=
    exec_unary_counted hc (by omega) hs hb 0 (by rw [needBytes]; omega)
  have hmax : t.uc = Config.ucMax := by
    obtain rfl : n = 4294967295 := by omega
    rw [ht]
    rfl
  rw [hrun, finishUnary_overflow hcan hsrc turns hbits hmax]

/-- Settles O36: from its start the count reaches the maximum one bit before the refusal; a held read's next byte and a
buffer give a read that stands at the maximum its next bit. -/
theorem unaryCountNeverWraps : Obligations.UnaryCountNeverWraps := by
  refine ⟨fun stop s c more bytes rest hc h32 hs hb => ?_, fun stop s b rest hinv hbusy hu hs => ?_,
    fun stop b s rest hc hu hb => ?_⟩
  · obtain ⟨d, rfl⟩ := Nat.exists_eq_add_of_le h32
    refine exec_unary_overflow (n := 2 ^ 32 - 1) (more := List.replicate d (!stop) ++ more) hc (by omega) hs ?_
    rw [hb, show 2 ^ 32 + d = (2 ^ 32 - 1) + (d + 1) by omega, List.replicate_add, List.append_assoc,
      List.replicate_succ, List.cons_append]
  · obtain ⟨hc, -, hhold, -⟩ := hinv
    obtain ⟨-, h0, -⟩ := (holdLegal_busy hbusy).mp hhold
    have hbits : s.bitsWith [b] = b.getLsbD 7 :: (byteBits b).drop 1 := by
      rw [State.bitsWith, (buf_eq_nil_iff s).mpr h0, List.nil_append, List.flatMap_singleton]
      rfl
    have hstep : step s = resumeUnary stop s := by rw [step, hbusy]; rfl
    rw [hstep]
    exact resumeUnary_at_max (bytes := [b]) hc hu hs hbits (by rw [h0]; rfl)
  · have hpos : 0 < s.cnt.toNat := by rw [← length_buf, hb]; simp
    obtain ⟨hcount, hstop⟩ := resumeUnary_at_max (bytes := []) hc hu rfl ((bitsWith_nil s).trans hb)
      (by simp only [needBytes, List.length_nil]; omega)
    refine ⟨hcount, fun h => ?_⟩
    obtain ⟨t, hrun, hcomp, hbuf, -⟩ := hstop h
    exact ⟨t, hrun, hcomp, hbuf⟩

end Sys2Proof.Machine

/-! The align family: BYTE_ALIGNED and BYTE_ALIGN, and where the cursor of an aligned reader stands. -/

namespace Sys2Proof.Machine

open Sys2Proof.Claims

/-! The cursor and the buffer in the stream (R18, R124). -/

/-- The source is ahead of the cursor by the buffered bits (R18, R173). -/
theorem pos_add_length_buf {s : State} (h : s.BufferIsStreamEnd) : s.pos + s.buf.length = 8 * s.nb := by
  rw [State.pos, length_buf, Nat.sub_add_cancel (cnt_le_of_streamEnd h)]

theorem buf_eq_drop_pos {s : State} (h : s.BufferIsStreamEnd) : s.buf = s.streamBits.drop s.pos := by
  obtain ⟨pre, hpre, hs⟩ := streamBits_eq h
  rw [hs, ← hpre, List.drop_left]

/-- The cursor stands at a byte boundary exactly when no bit of the last byte is left (R124). -/
theorem aligned_iff_pos_mod {s : State} (hc : s.Canonical) (hs : s.BufferIsStreamEnd) :
    s.aligned = true ↔ s.pos % 8 = 0 := by
  have hahead := pos_add_length_buf hs
  have h7 : s.cnt.toNat ≤ 7 := hc.1
  have hzero : s.cnt = 0 ↔ s.cnt.toNat = 0 := BitVec.toNat_eq
  rw [length_buf] at hahead
  rw [aligned_iff, hzero]
  omega

/-- Settles O40: the buffer is the end of the stream behind the cursor, and it is shorter than a byte. -/
theorem alignedExactlyOnByteBoundaries : Obligations.AlignedExactlyOnByteBoundaries := by
  rintro s ⟨hc, hs, -, -⟩
  exact ⟨aligned_iff_pos_mod hc hs, pos_add_length_buf hs, (length_buf s).trans_le hc.1, buf_eq_drop_pos hs⟩

/-! BYTE_ALIGNED (R120) and BYTE_ALIGN (R121). -/

theorem exec_byteAligned (s : State) :
    exec .byteAligned s = .next (respond (.ok (if s.buf = [] then 1 else 0)) s) := by
  simp only [buf_eq_nil_iff, ← aligned_iff]
  rfl

theorem exec_byteAlign (s : State) : exec .byteAlign s = .next (respond (.ok 0) (clearBuffer s)) := rfl

/-- Settles O37: the command only responds, with the flag. -/
theorem byteAlignedReportsTheFlag : Obligations.ByteAlignedReportsTheFlag := exec_byteAligned

/-- Settles O38: the command clears the buffer and responds; an empty buffer puts the cursor at the end of the stream. -/
theorem byteAlignClearsTheBuffer : Obligations.ByteAlignClearsTheBuffer := by
  intro s
  have hpos : (respond (.ok 0) (clearBuffer s)).pos = 8 * s.nb := (pos_respond _ _).trans (pos_of_aligned rfl)
  exact ⟨_, exec_byteAlign s, rfl, rfl, rfl, hpos⟩

/-- The reader of an empty buffer is not changed by clearing the buffer again, nor by a response (R123). -/
theorem sameReader_respond_clearBuffer {s : State} (r : Response) (hsr : s.sr = 0) (hcnt : s.cnt = 0) :
    SameReader (respond r (clearBuffer s)) s :=
  ⟨hsr.symm, hcnt.symm, rfl, requests_respond r (clearBuffer s)⟩

/-- Settles O39: after BYTE_ALIGN the buffer is empty, which BYTE_ALIGNED reports and a second BYTE_ALIGN keeps. -/
theorem byteAlignIsIdempotent : Obligations.ByteAlignIsIdempotent := by
  intro s t h
  obtain rfl := next_inj h
  exact ⟨⟨_, exec_byteAligned _, completes_respond _ rfl⟩,
    _, exec_byteAlign _, sameReader_respond_clearBuffer _ rfl rfl, rfl, rfl, rfl⟩

end Sys2Proof.Machine

/-! The exceptions family: the one error, the hold and its end, and what a command is refused for. -/

namespace Sys2Proof.Machine

open Sys2Proof.Claims

/-! The idle block (R149) and the held one (R146). -/

/-- Settles O55: with no move, or with an attach move, the turn is the client's alone. -/
theorem idleBlockKeepsItsState : Obligations.IdleBlockKeepsItsState := by
  refine fun s hidle => ⟨fun hcl => ?_, fun cells rest hcl => ?_⟩
  · simp only [step, hidle, clientTurn, hcl]
  · simp only [step, hidle, clientTurn, hcl, attachBuffer]

theorem step_of_busy {s : State} {k : Task} (hbusy : s.busy = some k) : step s = resumeTask k s := by
  rw [step, hbusy]

/-- Holding a command that is held already changes nothing. -/
theorem holdOn_of_busy {s : State} {k : Task} (hbusy : s.busy = some k) : holdOn k s = s := by
  rw [holdOn, ← hbusy]

/-- The size of the request that a held command has outstanding (R35). -/
def Task.asks : Task → Nat
  | .bulk len => len
  | .extract _ _ _ => 1
  | .assemble _ _ _ => 1
  | .unary _ => 1

theorem outstanding_of_busy {s : State} {k : Task} (hbusy : s.busy = some k) : s.outstanding = some k.asks := by
  rw [State.outstanding, hbusy]
  cases k <;> rfl

theorem busy_of_outstanding {s : State} {n : Nat} (h : s.outstanding = some n) : ∃ k, s.busy = some k ∧ k.asks = n := by
  cases hbusy : s.busy with
  | none =>
    rw [State.outstanding, hbusy] at h
    cases h
  | some k => exact ⟨k, rfl, Option.some.inj ((outstanding_of_busy hbusy).symm.trans h)⟩

/-! Requests, bits and extractions that are not answered, fail or go on. -/

/-- The state once the source has given this answer to a request of `n` bytes and is left with `rest`. -/
def afterAnswer (n : Nat) (a : SrcAnswer) (rest : List SrcMove) (s : State) : State :=
  { s with source := rest }.record (.srcRead n a)

theorem responses_afterAnswer (n : Nat) (a : SrcAnswer) (rest : List SrcMove) (s : State) :
    (afterAnswer n a rest s).responses = s.responses := by
  simp [afterAnswer, State.responses]

theorem srcRead_of_stopsUnanswered {n : Nat} {s u : State} (hn : n ≠ 0) (st : StopsUnanswered s u) :
    srcRead n s = .hold () u := by
  obtain ⟨-, ⟨hs, rfl⟩ | ⟨rest, hs, rfl⟩⟩ := st
  · exact srcRead_unanswered hn hs
  · exact srcRead_delayed hn hs

theorem nextBit_of_stopsUnanswered {s u : State} (st : StopsUnanswered s u) : nextBit s = .hold () u := by
  rw [nextBit, if_pos st.1, srcRead_of_stopsUnanswered (by decide) st]

theorem resumeBits_of_hold {s u : State} (m : Nat) (h : nextBit s = .hold () u) :
    resumeBits (m + 1) s = .hold (m + 1) u := by
  rw [resumeBits, shiftIn, h]
  rfl

theorem resumeBits_of_ioerr {s u : State} {e : Err} (m : Nat) (h : nextBit s = .ioerr e u) :
    resumeBits (m + 1) s = .ioerr e u.freeAcc := by
  rw [resumeBits, shiftIn, h]
  rfl

theorem resumeBits_of_done {s u : State} {b : Bool} (m : Nat) (h : nextBit s = .done b u) :
    resumeBits (m + 1) s = resumeBits m { u with acc := shiftInBit u.acc b } := by
  rw [resumeBits, shiftIn, h]
  rfl

/-- From a cleared accumulator an extraction from its start and one taken up again are the same (R80). -/
theorem readBits_eq_resumeBits {s : State} (n : Nat) (hacc : s.acc = 0) : readBits n s = resumeBits n s := by
  rw [readBits, ← hacc, resumeBits]

/-! A held command lacks something (R146). -/

theorem left_of_legal_extract {op : Extract} {n left : Nat} {acc : Word}
    (hk : (Task.extract op n left).legal acc = true) : ∃ m, left = m + 1 := by
  obtain ⟨-, h1, -, -⟩ := (legal_extract_iff ..).mp hk
  exact Nat.exists_eq_add_of_le' h1

theorem left_of_legal_assemble {len i left : Nat} {acc : Word}
    (hk : (Task.assemble len i left).legal acc = true) : ∃ m, left = m + 1 := by
  obtain ⟨-, -, h1, -, -⟩ := (legal_assemble_iff ..).mp hk
  exact Nat.exists_eq_add_of_le' h1

theorem len_ne_zero_of_legal_bulk {len : Nat} {acc : Word} (hk : (Task.bulk len).legal acc = true) : len ≠ 0 := by
  obtain ⟨h1, -⟩ := (legal_bulk_iff ..).mp hk
  exact Nat.one_le_iff_ne_zero.mp h1

/-! A held command whose request is still not answered, fails, or is answered with bytes (R146). -/

section Held

variable {k : Task} {s : State} (hk : k.legal s.acc = true)
include hk

/-- Without an answer the command is held as before: only a turn of the source may be used up. -/
theorem resumeTask_unanswered {u : State} (st : StopsUnanswered s u) : resumeTask k s = .next (holdOn k u) := by
  have hbit := nextBit_of_stopsUnanswered st
  cases k with
  | extract op n left =>
    obtain ⟨m, rfl⟩ := left_of_legal_extract hk
    rw [resumeTask, resumeExtract, resumeBits_of_hold m hbit, finishExtract]
  | bulk len =>
    rw [resumeTask, bulkRead, srcRead_of_stopsUnanswered (len_ne_zero_of_legal_bulk hk) st]
  | assemble len i left =>
    obtain ⟨m, rfl⟩ := left_of_legal_assemble hk
    rw [resumeTask, resumeAssemble, resumeBits_of_hold m hbit]
  | unary stop =>
    have hacc := (legal_unary_iff ..).mp hk
    rw [resumeTask, resumeUnary, unaryLoop, readBits_eq_resumeBits 1 hacc, resumeBits_of_hold 0 hbit, finishUnary]

variable {rest : List SrcMove} (h0 : s.cnt = 0)
include h0

/-- An error ends the command at this request; of the registers only ACC and UC may have changed (R136). -/
theorem resumeTask_err {e : Err} (hs : s.source = .answers (.err e) :: rest) :
    ∃ a c f, resumeTask k s = .next (raiseIOError e
      { afterAnswer k.asks (.err e) rest s with acc := a, uc := c, fresh := f }) := by
  have hbit : nextBit s = .ioerr e (afterAnswer 1 (.err e) rest s) := nextBit_err h0 hs
  cases k with
  | extract op n left =>
    obtain ⟨m, rfl⟩ := left_of_legal_extract hk
    rw [resumeTask, resumeExtract, resumeBits_of_ioerr m hbit]
    exact ⟨_, _, _, rfl⟩
  | bulk len =>
    rw [resumeTask, bulkRead, srcRead_err (len_ne_zero_of_legal_bulk hk) hs]
    exact ⟨_, _, _, rfl⟩
  | assemble len i left =>
    obtain ⟨m, rfl⟩ := left_of_legal_assemble hk
    rw [resumeTask, resumeAssemble, resumeBits_of_ioerr m hbit]
    exact ⟨_, _, _, rfl⟩
  | unary stop =>
    have hacc := (legal_unary_iff ..).mp hk
    rw [resumeTask, resumeUnary, unaryLoop, readBits_eq_resumeBits 1 hacc, resumeBits_of_ioerr 0 hbit]
    exact ⟨_, _, _, rfl⟩

end Held

/-- The registers and the counter of free values at the start do not show in it. -/
theorem Grows.of_registers {s t : State} {sr : Byte} {cnt : BitVec 4} {a c : Word} {f : Nat}
    (h : Grows { s with sr := sr, cnt := cnt, acc := a, uc := c, fresh := f } t) : Grows s t :=
  ⟨h.client, h.live, h.detached, h.source, h.trace⟩

/-- A refill and one bit of the byte it brings: with that the bits ahead are one less. -/
theorem readBits_one_byte {s : State} {b : Byte} {rest : List SrcMove} (h0 : s.cnt = 0)
    (hs : s.source = .answers (.ok [b]) :: rest) :
    ∃ v u, readBits 1 s = .done v u ∧ Grows (afterAnswer 1 (.ok [b]) rest s) u ∧ bitsAhead s = bitsAhead u + 1 := by
  have hread : readBits 1 s = _ := resumeBits_of_done 0 (nextBit_refill (s := { s with acc := 0 }) h0 hs)
  refine ⟨_, _, hread, Grows.of_registers (.refl _), ?_⟩
  simp only [bitsAhead, h0, hs, List.length_cons, freeAcc_cnt, freeAcc_source, pop_cnt, pop_source, refill_cnt,
    refill_source, record_source]
  change 0 + 8 * (rest.length + 1) = 7 + 8 * rest.length + 1
  omega

/-- A unary read whose request is answered with a byte: the byte's first bit ends it, or the count goes on. -/
theorem resumeUnary_byte_grows {stop : Bool} {s t : State} {b : Byte} {rest : List SrcMove} (h0 : s.cnt = 0)
    (hs : s.source = .answers (.ok [b]) :: rest) (h : resumeUnary stop s = .next t) :
    Grows (afterAnswer 1 (.ok [b]) rest s) t := by
  obtain ⟨v, u, hread, hu, hahead⟩ := readBits_one_byte h0 hs
  rw [resumeUnary, unaryLoop, hread] at h
  dsimp only at h
  split at h
  · cases h
    exact hu.trans (Grows.of_registers (grows_respond (.ok u.uc) u.freeUc))
  · split at h
    · cases h
    · rw [hahead] at h
      exact hu.trans (Grows.of_registers (resumeUnary_grows (s := { u with uc := u.uc + 1 }) h))

/-- Bytes of the size asked for are taken first, and the command goes on from there (R31). -/
theorem resumeTask_ok_grows {k : Task} {s t : State} {bytes : List Byte} {rest : List SrcMove}
    (hk : k.legal s.acc = true) (h0 : s.cnt = 0) (hs : s.source = .answers (.ok bytes) :: rest)
    (hl : bytes.length = k.asks) (h : resumeTask k s = .next t) :
    Grows (afterAnswer k.asks (.ok bytes) rest s) t := by
  cases k with
  | extract op n left =>
    obtain ⟨m, rfl⟩ := left_of_legal_extract hk
    obtain ⟨b, rfl⟩ := List.length_eq_one_iff.mp hl
    rw [resumeTask, resumeExtract, resumeBits_of_done m (nextBit_refill h0 hs)] at h
    exact Grows.of_registers (resumeExtract_grows h)
  | bulk len =>
    rw [resumeTask, bulkRead, srcRead_ok (len_ne_zero_of_legal_bulk hk) hs hl] at h
    cases h
    exact (grows_dstWriteAll ..).trans (grows_respond ..)
  | assemble len i left =>
    obtain ⟨m, rfl⟩ := left_of_legal_assemble hk
    obtain ⟨b, rfl⟩ := List.length_eq_one_iff.mp hl
    rw [resumeTask, resumeAssemble, resumeBits_of_done m (nextBit_refill h0 hs)] at h
    exact Grows.of_registers (resumeAssemble_grows h)
  | unary stop =>
    obtain ⟨b, rfl⟩ := List.length_eq_one_iff.mp hl
    exact resumeUnary_byte_grows h0 hs h

/-- Settles O9: a held command that is not answered is held as before, and none takes a move of the client. -/
theorem heldBlockWaitsForItsSource : Obligations.HeldBlockWaitsForItsSource := by
  refine ⟨fun s k => step_of_busy, fun s hinv hb => ?_⟩
  obtain ⟨k, hbusy⟩ := Option.ne_none_iff_exists'.mp hb
  obtain ⟨-, -, hhold, -⟩ := hinv
  obtain ⟨-, h0, hk⟩ := (holdLegal_busy hbusy).mp hhold
  rw [step_of_busy hbusy]
  refine ⟨fun hs => ?_, fun rest hs => ?_, fun t h => (resumeTask_grows h).client⟩
  · rw [resumeTask_unanswered hk ⟨h0, .inl ⟨hs, rfl⟩⟩, holdOn_of_busy hbusy]
  · rw [resumeTask_unanswered hk ⟨h0, .inr ⟨rest, hs, rfl⟩⟩, holdOn_of_busy (s := { s with source := rest }) hbusy]

/-- Settles O56: an error ends the held command at its request, and bytes are the first thing its record gains. -/
theorem sourceAnswerLiftsTheHold : Obligations.SourceAnswerLiftsTheHold := by
  rintro s n rest ⟨-, -, hhold, -⟩ hout
  obtain ⟨k, hbusy, rfl⟩ := busy_of_outstanding hout
  obtain ⟨-, h0, hk⟩ := (holdLegal_busy hbusy).mp hhold
  rw [step_of_busy hbusy]
  refine ⟨fun e hs => ?_, fun bytes t hs hl h => ?_⟩
  · obtain ⟨a, c, f, herr⟩ := resumeTask_err hk h0 hs
    refine ⟨_, herr, completes_respond _ (responses_afterAnswer ..), rfl, (buf_eq_nil_iff _).mpr h0, rfl, ?_⟩
    simp [afterAnswer]
  · obtain ⟨-, -, -, hsrc, evs, htr⟩ := resumeTask_ok_grows hk h0 hs hl h
    exact ⟨hsrc, evs, by simpa [afterAnswer] using htr.symm⟩

/-! Commands that come to a request without an answer (R146). -/

/-- Settles O19: the loop drains the bytes that are there, and the next request is not answered. -/
theorem extractorIsHeldWithoutAnAnswer : Obligations.ExtractorIsHeldWithoutAnAnswer := by
  intro op s n bytes hc h1 h32 hs hn
  rw [exec_extractOf, runExtract, if_pos ⟨h1, h32⟩, readBits_hold hc hs hn, finishExtract]
  rfl

/-- The buffer of an unaligned READ_BYTES after whole bytes: the bits left over (R102). -/
theorem buf_afterBits_bytes {s : State} {bytes : List Byte} {tail : List SrcMove} (hc : s.Canonical) (h0 : s.cnt ≠ 0)
    (hs : s.source = byteAnswers bytes ++ tail) :
    (s.afterBits (8 * bytes.length) bytes tail).buf = (s.bitsWith bytes).drop (8 * bytes.length) := by
  have h7 : s.cnt.toNat ≤ 7 := hc.1
  have hpos := (cnt_pos_iff s).mpr h0
  obtain ⟨-, hbuf, -⟩ := afterBits_facts (n := 8 * bytes.length) hc hs (by rw [needBytes]; omega)
  exact hbuf

/-- Settles O32: aligned the one request waits; unaligned the byte loop writes the bytes that are there, and the request
for the next one waits. -/
theorem readBytesIsHeldWithoutAnAnswer : Obligations.ReadBytesIsHeldWithoutAnAnswer := by
  refine fun s len bytes hc hb hlen => ⟨fun h0 hs => ?_, fun h0 hs => ?_⟩
  · rw [exec_readBytes_aligned hlen h0, bulkRead, srcRead_unanswered (by omega) hs]
    rfl
  · have hs' : s.source = byteAnswers bytes ++ [] := hs.trans (List.append_nil _).symm
    obtain ⟨t, hrun, ht, hcan, hcnt, hdst⟩ := fillBytes_zero_run hc hs' hb.le
    have hsrc : t.source = byteAnswers [] := by rw [ht]; rfl
    have hbuf : t.buf = (s.bitsWith bytes).drop (8 * bytes.length) := by
      rw [ht]
      exact buf_afterBits_bytes hc h0 hs'
    have h7 : s.cnt.toNat ≤ 7 := hc.1
    obtain ⟨m, hm⟩ : ∃ m, len - bytes.length = m + 1 := ⟨len - bytes.length - 1, by omega⟩
    have hexec := exec_readBytes_unaligned hlen h0
    rw [hrun, hm, fillBytes, readBits_hold hcan hsrc (by rw [hcnt, List.length_nil]; omega), bitsWith_nil, hbuf, hcnt,
      finishBytes] at hexec
    refine ⟨_, hexec, ?_, hdst⟩
    rw [ht]
    simp [holdOn, State.afterBits]

/-! A command that completes (R131 to R138). -/

/-- Settles O42: the failing request was made on an empty buffer, and BYTE_ALIGNED reports it. -/
theorem errorLeavesTheReaderAligned : Obligations.ErrorLeavesTheReaderAligned := by
  intro i s t e _ h hc
  have h0 := cnt_of_ioerr h hc
  have hbuf := (buf_eq_nil_iff t).mpr h0
  refine ⟨hbuf, (aligned_iff t).mpr h0, pos_of_aligned h0, _, exec_byteAligned t, ?_⟩
  rw [if_pos hbuf]
  exact completes_respond _ rfl

/-- Settles O43: the effects hold no error, and only the end with IOERR adds one, right before its response. -/
theorem errorExactlyWhenTheSourceErrs : Obligations.ErrorExactlyWhenTheSourceErrs := by
  intro i s t r h hc
  cases exec_ends h with
  | ok u evs v he ht =>
    subst ht
    cases response_eq_of_completes he.responses hc
    exact ⟨evs ++ [.respond (.ok v)], by simp [he.trace], fun n e hm => he.noError n e (by simpa using hm)⟩
  | err u evs n e rest he _ _ _ ht =>
    subst ht
    cases response_eq_of_completes ((responses_afterAnswer n (.err e) rest u).trans he.responses) hc
    exact ⟨evs, n, by simp [he.trace], he.noError⟩
  | hold u evs k src _ _ _ ht =>
    subst ht
    exact absurd hc not_completes_holdOn

end Sys2Proof.Machine

/-! What a legal command can come to (R133, R147). -/

namespace Sys2Proof.Machine

/-- The outcomes a legal command has: a next state, or one of the two refusals that R147 names. -/
inductive NamedOutcome (i : Instr) : Host.Outcome State Fault Refusal → Prop where
  /-- It responds or is held. -/
  | next (t : State) : NamedOutcome i (.next t)
  /-- A request was answered with the wrong number of bytes (R163). -/
  | contract (n k : Nat) (h : k ≠ n) : NamedOutcome i (.refused (.sourceContract n k))
  /-- The count of a unary read outgrew 32 bits (R114). -/
  | overflow (h : i = .readUnary0 ∨ i = .readUnary1) : NamedOutcome i (.refused .unaryOverflow)

theorem runExtract_outcome (i : Instr) (op : Extract) {n : Nat} (hn : legalBits n) (s : State) :
    NamedOutcome i (runExtract op n s) := by
  rcases runExtract_cases op hn s with ⟨u, _, _, h, -⟩ | ⟨e, u, v, _, _, h, -⟩ | ⟨left, u, v, _, _, h, -⟩ |
    ⟨k, h, hk⟩ <;> rw [h]
  · exact .next _
  · exact .next _
  · exact .next _
  · exact .contract 1 k hk

theorem bulkRead_outcome (i : Instr) (len : Nat) (s : State) : NamedOutcome i (bulkRead len s) := by
  rcases bulkRead_cases len s with ⟨-, h⟩ | ⟨-, bytes, rest, -, -, h⟩ | ⟨-, e, rest, -, h⟩ | ⟨-, -, h⟩ |
    ⟨-, rest, -, h⟩ | ⟨-, k, h, hk⟩ <;> rw [h]
  case inr.inr.inr.inr.inr => exact .contract len k hk
  all_goals exact .next _

theorem finishBytes_outcome (i : Instr) (len n j : Nat) (s : State) :
    NamedOutcome i (finishBytes len (fillBytes n j s)) := by
  rcases finishBytes_cases len n j s with ⟨u, _, _, _, h, -⟩ | ⟨e, u, v, _, _, _, m, h, -⟩ |
    ⟨left, u, v, _, _, _, m, h, -⟩ | ⟨k, h, hk⟩ <;> rw [h]
  · exact .next _
  · exact .next _
  · exact .next _
  · exact .contract 1 k hk

theorem execReadBytes_outcome (i : Instr) {len : Nat} (hlen : legalLen len) (s : State) :
    NamedOutcome i (execReadBytes len s) := by
  rw [execReadBytes, if_pos hlen]
  split
  · exact bulkRead_outcome i len s
  · exact finishBytes_outcome i len len 0 s

theorem resumeUnary_outcome {i : Instr} (hi : i = .readUnary0 ∨ i = .readUnary1) (stop : Bool) (s : State) :
    NamedOutcome i (resumeUnary stop s) := by
  rcases resumeUnary_cases stop s with ⟨u, c, _, h, -⟩ | ⟨e, u, v, c, _, h, -⟩ | ⟨u, v, c, _, h, -⟩ | ⟨k, h, hk⟩ |
    ⟨h, -⟩ <;> rw [h]
  · exact .next _
  · exact .next _
  · exact .next _
  · exact .contract 1 k hk
  · exact .overflow hi

theorem exec_outcome {i : Instr} (hi : i.wf = true) (s : State) : NamedOutcome i (exec i s) := by
  cases i with
  | read n => exact runExtract_outcome _ .read (of_decide_eq_true hi) s
  | readSigned n => exact runExtract_outcome _ .readSigned (of_decide_eq_true hi) s
  | skip n => exact runExtract_outcome _ .skip (of_decide_eq_true hi) s
  | readBytes len => exact execReadBytes_outcome _ (of_decide_eq_true hi) s
  | readUnary0 => exact resumeUnary_outcome (.inl rfl) false _
  | readUnary1 => exact resumeUnary_outcome (.inr rfl) true _
  | byteAligned => exact .next _
  | byteAlign => exact .next _

/-- Settles O48: the outcomes of each command, and none of them is a fault or another refusal. -/
theorem legalCommandsHaveNamedRefusalsOnly : Obligations.LegalCommandsHaveNamedRefusalsOnly := by
  intro i s hi
  have hout := exec_outcome hi s
  refine ⟨fun f _ => (nomatch f), fun r h => ?_⟩
  rw [h] at hout
  cases hout with
  | contract n k hk => exact .inl ⟨n, k, rfl, hk⟩
  | overflow hu => exact .inr ⟨rfl, hu⟩

end Sys2Proof.Machine

/-! Payloads renamed (R132): every operation commutes with the renaming. -/

namespace Sys2Proof.Machine

open Sys2Proof.Claims

/-- Payloads renamed in how an operation goes. -/
def mapFetch {ω α : Type} (f : Err → Err) : Fetch ω α → Fetch ω α
  | .done a s => .done a (mapState f s)
  | .ioerr e s => .ioerr (f e) (mapState f s)
  | .hold w s => .hold w (mapState f s)
  | .refuse r => .refuse r

theorem record_mapState (f : Err → Err) (ev : Event) (s : State) :
    (mapState f s).record (mapEvent f ev) = mapState f (s.record ev) := by
  simp [mapState, State.record]

theorem srcRead_mapState (f : Err → Err) (n : Nat) (s : State) :
    srcRead n (mapState f s) = mapFetch f (srcRead n s) := by
  have hsrc : (mapState f s).source = s.source.map (mapMove f) := rfl
  by_cases hn : n = 0
  · subst hn
    exact congrArg (Fetch.done []) (record_mapState f (.srcRead 0 (.ok [])) s)
  · rcases hs : s.source with _ | ⟨⟨bytes | e⟩ | _, rest⟩ <;> rw [hs] at hsrc
    · rw [srcRead_unanswered hn hs, srcRead_unanswered hn hsrc]
      rfl
    · by_cases hl : bytes.length = n
      · rw [srcRead_ok hn hs hl, srcRead_ok hn hsrc hl]
        exact congrArg (Fetch.done bytes) (record_mapState f (.srcRead n (.ok bytes)) { s with source := rest })
      · rw [srcRead_breach hn hs hl, srcRead_breach hn hsrc hl]
        rfl
    · rw [srcRead_err hn hs, srcRead_err hn hsrc]
      exact congrArg (Fetch.ioerr (f e)) (record_mapState f (.srcRead n (.err e)) { s with source := rest })
    · rw [srcRead_delayed hn hs, srcRead_delayed hn hsrc]
      rfl

theorem nextBit_mapState (f : Err → Err) (s : State) : nextBit (mapState f s) = mapFetch f (nextBit s) := by
  by_cases h0 : s.cnt = 0
  · rw [nextBit, nextBit, if_pos h0, if_pos (show (mapState f s).cnt = 0 from h0), srcRead_mapState]
    cases srcRead Config.refillLen s <;> rfl
  · rw [nextBit_buffered h0, nextBit_buffered (s := mapState f s) h0]
    rfl

theorem shiftIn_mapState (f : Err → Err) (n : Nat) (s : State) :
    shiftIn n (mapState f s) = mapFetch f (shiftIn n s) := by
  induction n generalizing s with
  | zero => rfl
  | succ n ih =>
    rw [shiftIn, shiftIn, nextBit_mapState]
    cases nextBit s with
    | done b u => exact ih { u with acc := shiftInBit u.acc b }
    | ioerr e u => rfl
    | hold w u => rfl
    | refuse r => rfl

theorem readBits_mapState (f : Err → Err) (n : Nat) (s : State) :
    readBits n (mapState f s) = mapFetch f (readBits n s) := by
  have hloop : shiftIn n { mapState f s with acc := 0 } = _ := shiftIn_mapState f n { s with acc := 0 }
  rw [readBits, readBits, hloop]
  cases shiftIn n { s with acc := 0 } <;> rfl

theorem dstWrite_mapState (f : Err → Err) (i : Nat) (b : Byte) (s : State) :
    dstWrite i b (mapState f s) = mapState f (dstWrite i b s) :=
  record_mapState f (.dstWrite i b) { s with dst := s.dst.write i b }

theorem dstWriteAll_mapState (f : Err → Err) (i : Nat) (bytes : List Byte) (s : State) :
    dstWriteAll i bytes (mapState f s) = mapState f (dstWriteAll i bytes s) := by
  induction bytes generalizing i s with
  | nil => rfl
  | cons b bytes ih => rw [dstWriteAll, dstWriteAll, dstWrite_mapState, ih]

theorem fillBytes_mapState (f : Err → Err) (n i : Nat) (s : State) :
    fillBytes n i (mapState f s) = mapFetch f (fillBytes n i s) := by
  induction n generalizing i s with
  | zero => rfl
  | succ n ih =>
    rw [fillBytes, fillBytes, readBits_mapState]
    cases readBits 8 s with
    | done v u =>
      simp only [mapFetch, dstWrite_mapState]
      exact ih (i + 1) (dstWrite i (lowByte v) u)
    | ioerr e u => rfl
    | hold w u => rfl
    | refuse r => rfl

theorem unaryLoop_mapState (f : Err → Err) (stop : Bool) (turns : Nat) (s : State) :
    unaryLoop stop turns (mapState f s) = mapFetch f (unaryLoop stop turns s) := by
  induction turns generalizing s with
  | zero => rfl
  | succ turns ih =>
    rw [unaryLoop, unaryLoop, readBits_mapState]
    cases readBits 1 s with
    | done v u =>
      simp only [mapFetch]
      split
      · rfl
      · by_cases hmax : u.uc = Config.ucMax
        · rw [if_pos hmax, if_pos (show (mapState f u).uc = Config.ucMax from hmax)]
        · rw [if_neg hmax, if_neg (show ¬ (mapState f u).uc = Config.ucMax from hmax)]
          exact ih { u with uc := u.uc + 1 }
    | ioerr e u => rfl
    | hold w u => rfl
    | refuse r => rfl

/-! The ends of a command. -/

theorem next_respond_ok_mapState (f : Err → Err) (v : Word) (s : State) :
    .next (respond (.ok v) (mapState f s)) = mapOutcome f (.next (respond (.ok v) s)) :=
  congrArg Host.Outcome.next (record_mapState f (.respond (.ok v)) { s with busy := none })

theorem next_raiseIOError_mapState (f : Err → Err) (e : Err) (s : State) :
    .next (raiseIOError (f e) (mapState f s)) = mapOutcome f (.next (raiseIOError e s)) :=
  congrArg Host.Outcome.next (record_mapState f (.respond (.ioerr e)) { s with busy := none })

theorem runExtract_mapState (f : Err → Err) (op : Extract) (n : Nat) (s : State) :
    runExtract op n (mapState f s) = mapOutcome f (runExtract op n s) := by
  by_cases hn : legalBits n
  · rw [runExtract, runExtract, if_pos hn, if_pos hn, readBits_mapState]
    cases readBits n s with
    | done v u => exact next_respond_ok_mapState f _ u
    | ioerr e u => exact next_raiseIOError_mapState f e u
    | hold left u => rfl
    | refuse r => rfl
  · rw [runExtract, runExtract, if_neg hn, if_neg hn]
    rfl

theorem bulkRead_mapState (f : Err → Err) (len : Nat) (s : State) :
    bulkRead len (mapState f s) = mapOutcome f (bulkRead len s) := by
  rw [bulkRead, bulkRead, srcRead_mapState]
  cases srcRead len s with
  | done bytes u =>
    simp only [mapFetch, dstWriteAll_mapState]
    exact next_respond_ok_mapState f 0 _
  | ioerr e u => exact next_raiseIOError_mapState f e u
  | hold w u => rfl
  | refuse r => rfl

theorem finishBytes_mapFetch (f : Err → Err) (len : Nat) (x : Fetch (Nat × Nat) Unit) :
    finishBytes len (mapFetch f x) = mapOutcome f (finishBytes len x) := by
  cases x with
  | done a u => exact next_respond_ok_mapState f 0 u
  | ioerr e u => exact next_raiseIOError_mapState f e u
  | hold w u => rfl
  | refuse r => rfl

theorem execReadBytes_mapState (f : Err → Err) (len : Nat) (s : State) :
    execReadBytes len (mapState f s) = mapOutcome f (execReadBytes len s) := by
  have ha : (mapState f s).aligned = s.aligned := rfl
  rw [execReadBytes, execReadBytes, ha, bulkRead_mapState, fillBytes_mapState, finishBytes_mapFetch]
  split
  · split <;> rfl
  · rfl

theorem runUnary_mapState (f : Err → Err) (stop : Bool) (s : State) :
    runUnary stop (mapState f s) = mapOutcome f (runUnary stop s) := by
  have hahead : bitsAhead { mapState f s with uc := 0 } = bitsAhead { s with uc := 0 } := by
    simp [bitsAhead, mapState]
  have hloop : unaryLoop stop (bitsAhead { s with uc := 0 } + 1) { mapState f s with uc := 0 } = _ :=
    unaryLoop_mapState f stop _ { s with uc := 0 }
  rw [runUnary, resumeUnary, hahead, hloop, runUnary, resumeUnary]
  cases unaryLoop stop (bitsAhead { s with uc := 0 } + 1) { s with uc := 0 } with
  | done a u => exact next_respond_ok_mapState f u.uc u.freeUc
  | ioerr e u => exact next_raiseIOError_mapState f e u.freeUc
  | hold w u => rfl
  | refuse r => rfl

/-- Settles O49: every command commutes with the renaming, since its requests, its loops and its response do. -/
theorem payloadIsNeverInspected : Obligations.PayloadIsNeverInspected := by
  intro f i s
  cases i with
  | read n => exact runExtract_mapState f .read n s
  | readSigned n => exact runExtract_mapState f .readSigned n s
  | skip n => exact runExtract_mapState f .skip n s
  | readBytes len => exact execReadBytes_mapState f len s
  | readUnary0 => exact runUnary_mapState f false s
  | readUnary1 => exact runUnary_mapState f true s
  | byteAligned => exact next_respond_ok_mapState f _ s
  | byteAlign => exact next_respond_ok_mapState f 0 (clearBuffer s)

end Sys2Proof.Machine

/-! The reset and hazards family: a presented command, reset, construction and release; delayed answers follow. -/

namespace Sys2Proof.Machine

/-! An idle block takes the client's move (R166, R167). -/

theorem presentCommand_decoded {s : State} {w : Word} {i : Instr} (hl : s.live = true) (hw : decode w = .ok i) :
    presentCommand w s = .run i s := by
  rw [presentCommand, if_pos hl, hw]

theorem step_of_run {s u : State} {i : Instr} (hidle : s.busy = none) (h : clientTurn s = .run i u) :
    step s = exec i u := by
  rw [step, hidle]
  dsimp only
  rw [h]

theorem step_of_settled {s u : State} (hidle : s.busy = none) (h : clientTurn s = .settled u) : step s = .next u := by
  rw [step, hidle]
  dsimp only
  rw [h]

/-- An idle live block runs the command it is presented, the move being used up (R51, R167). -/
theorem step_of_command {s : State} {w : Word} {rest : List ClientMove} {i : Instr} (hidle : s.busy = none)
    (hl : s.live = true) (hcl : s.client = .command w :: rest) (hw : decode w = .ok i) :
    step s = exec i { s with client := rest } :=
  step_of_run hidle ((clientTurn_command hcl).trans (presentCommand_decoded hl hw))

theorem decodeTableWord_eq_some {nbits w : Nat} {i : Instr} :
    decodeTableWord nbits w = some i ↔ decode (BitVec.ofNat 32 (w % 2 ^ nbits)) = .ok i := by
  rw [decodeTableWord]
  split <;> simp [*]

/-- Settles O7: the client's next move is the word, and placing one makes it so. -/
theorem stepRunsThePresentedCommand : Obligations.StepRunsThePresentedCommand :=
  ⟨fun _ _ _ _ => step_of_command, fun s nbits w _ h =>
    step_of_command (s := s.withFetchWord nbits w) rfl rfl rfl (decodeTableWord_eq_some.mp h)⟩

theorem clientTurn_release {s : State} {rest : List ClientMove} (hl : s.live = true)
    (hcl : s.client = .release :: rest) :
    clientTurn s = .settled (releaseInstance { s with client := rest }) := by
  rw [clientTurn, hcl]
  exact if_pos hl

/-- Settles O54: an idle step is the release itself, and a held one is its command going on. -/
theorem releaseEndsTheInstance : Obligations.ReleaseEndsTheInstance := by
  refine ⟨fun s rest hidle hl hcl => step_of_settled hidle (clientTurn_release hl hcl), fun s t hbusy h => ?_⟩
  obtain ⟨k, hk⟩ := Option.ne_none_iff_exists'.mp hbusy
  have hgrows := resumeTask_grows ((step_of_busy hk).symm.trans h)
  exact ⟨hgrows.live, hgrows.client⟩

/-! Reset and construction (R26, R160). -/

theorem buf_reset : State.reset.buf = [] := (buf_eq_nil_iff _).mpr rfl

/-- Settles O52: nothing is buffered, nothing is in progress and the record is empty. -/
theorem resetState : Obligations.ResetState :=
  ⟨buf_reset, rfl, rfl, rfl, rfl, rfl, rfl, rfl, rfl⟩

theorem clientTurn_construct {s : State} {src : Option (List SrcMove)} {rest : List ClientMove}
    (hcl : s.client = .construct src :: rest) :
    clientTurn s = .settled (construct src { s with client := rest }) := by
  rw [clientTurn, hcl]

/-- Settles O53: the step is the construction, which leaves the buffer and the record empty. -/
theorem constructionStartsANewInstance : Obligations.ConstructionStartsANewInstance := fun _ _ _ hidle hcl =>
  ⟨_, step_of_settled hidle (clientTurn_construct hcl), rfl, (buf_eq_nil_iff _).mpr rfl, rfl, rfl, rfl, rfl⟩

end Sys2Proof.Machine

/-! Delayed answers (R146, R180): a run over a script that goes on, against the run that is held where it ends. -/

namespace Sys2Proof.Machine

/-! A script that goes on. -/

/-- What the source does once it has come to the end of its script. -/
inductive Sequel where
  /-- It still does not answer. -/
  | silent
  /-- It delays its answer by a turn, and then does `more`. -/
  | late (more : List SrcMove)
  /-- It goes straight on with `more`. -/
  | prompt (more : List SrcMove)

/-- The turns that the sequel adds to the script. -/
def Sequel.script : Sequel → List SrcMove
  | .silent => []
  | .late more => .delays :: more
  | .prompt more => more

/-- A hold can only come at the end of the script, where the sequel decides what becomes of it; a silent sequel decides
nothing, so there a hold may come anywhere. -/
def Sequel.Fits (q : Sequel) (s : State) : Prop := q = .silent ∨ SrcMove.delays ∉ s.source

/-- The state with the sequel after its script, whatever command the block takes to be in progress. -/
def State.extended (b : Option Task) (q : Sequel) (s : State) : State :=
  { s with busy := b, source := s.source ++ q.script }

/-- How an operation goes with the sequel after the script: what was held at its end stays held, is held one turn
later, or is taken up again. -/
def Fetch.extended {ω α : Type} (b : Option Task) (q : Sequel) (resume : ω → State → Fetch ω α) : Fetch ω α → Fetch ω α
  | .done a s => .done a (s.extended b q)
  | .ioerr e s => .ioerr e (s.extended b q)
  | .hold w s =>
    match q with
    | .silent => .hold w { s with busy := b }
    | .late more => .hold w { s with busy := b, source := more }
    | .prompt more => resume w { s with busy := b, source := more }
  | .refuse r => .refuse r

theorem extended_silent (b : Option Task) (s : State) : s.extended b .silent = { s with busy := b } := by
  simp [State.extended, Sequel.script]

/-- Where the sequel decides nothing, nothing is taken up again. -/
theorem extended_silent_resume {ω α : Type} (b : Option Task) (r r' : ω → State → Fetch ω α)
    (x : Fetch ω α) : x.extended b .silent r = x.extended b .silent r' := by cases x <;> rfl

theorem Sequel.Fits.of_suffix {q : Sequel} {s u : State} (h : q.Fits s) (hsrc : u.source <:+ s.source) : q.Fits u :=
  h.imp_right fun hs hu => hs (hsrc.subset hu)

theorem bitsAhead_extended (b : Option Task) (q : Sequel) (s : State) :
    bitsAhead (s.extended b q) = bitsAhead s + 8 * q.script.length := by
  simp only [bitsAhead, State.extended, List.length_append]
  omega

/-! What a request, a bit and a run of bits leave behind. -/

theorem cnt_of_srcRead_hold {n : Nat} {s u : State} (h : srcRead n s = .hold () u) : u.cnt = s.cnt := by
  rw [srcRead] at h
  split at h
  · cases h
  · split at h
    · cases h; rfl
    · cases h; rfl
    · cases h
    · split at h <;> cases h

theorem consumes_of_nextBit_done {s u : State} {b : Bool} (h : nextBit s = .done b u) :
    ∃ bytes, Consumes s u [b] bytes := by
  rcases nextBit_consumes s with ⟨_, t, y, h', c, -⟩ | ⟨e, t, h', -⟩ | ⟨t, h', -⟩ | ⟨k, h', -⟩ <;> rw [h'] at h <;>
    cases h
  exact ⟨y, c⟩

theorem consumes_of_readBits_done {n : Nat} {s u : State} {v : Word} (h : readBits n s = .done v u) :
    ∃ bits bytes, Consumes s u bits bytes ∧ bits.length = n := by
  rcases readBits_consumes n s with ⟨t, bits, y, h', c, l, -⟩ | ⟨e, w, t, bits, y, h', -⟩ |
    ⟨left, w, t, bits, y, h', -⟩ | ⟨k, h', -⟩ <;> rw [h'] at h <;> cases h
  exact ⟨bits, y, c, l⟩

/-- A hold of `read(1)` lacks its one bit: ACC is still cleared and the buffer empty. -/
theorem readBits_one_hold {s u : State} {left : Nat} (h : readBits 1 s = .hold left u) :
    left = 1 ∧ u.acc = 0 ∧ u.cnt = 0 := by
  rcases readBits_consumes 1 s with ⟨t, bits, y, h', -⟩ | ⟨e, w, t, bits, y, h', -⟩ |
    ⟨left', w, t, bits, y, h', c, st, l1, l, a, -⟩ | ⟨k, h', -⟩ <;> rw [h'] at h <;> cases h
  obtain rfl : bits = [] := List.length_eq_zero_iff.mp (by omega)
  obtain ⟨h0, ⟨-, rfl⟩ | ⟨rest, -, rfl⟩⟩ := st
  · exact ⟨by simpa using l, a, h0⟩
  · exact ⟨by simpa using l, a, h0⟩

/-! Requests, bits and extractions with the sequel after the script. -/

section Extended

variable (b : Option Task) {q : Sequel} {s : State} (hq : q.Fits s)
include hq

theorem srcRead_extended (n : Nat) :
    srcRead n (s.extended b q) = (srcRead n s).extended b q fun _ => srcRead n := by
  by_cases hn : n = 0
  · subst hn
    rfl
  · have hsrc : (s.extended b q).source = s.source ++ q.script := rfl
    rcases hs : s.source with _ | ⟨⟨bytes | e⟩ | _, rest⟩ <;> rw [hs] at hsrc
    · rw [srcRead_unanswered hn hs]
      cases q with
      | silent =>
        rw [srcRead_unanswered hn hsrc, extended_silent]
        rfl
      | late more =>
        rw [srcRead_delayed hn hsrc]
        rfl
      | prompt more =>
        rw [State.extended, hs]
        rfl
    · by_cases hl : bytes.length = n
      · rw [srcRead_ok hn hs hl, srcRead_ok hn hsrc hl]
        rfl
      · rw [srcRead_breach hn hs hl, srcRead_breach hn hsrc hl]
        rfl
    · rw [srcRead_err hn hs, srcRead_err hn hsrc]
      rfl
    · obtain rfl : q = .silent := hq.resolve_right fun h => h (by simp [hs])
      rw [extended_silent, srcRead_delayed hn hs, srcRead_delayed (s := { s with busy := b }) hn hs]
      rfl

theorem nextBit_extended : nextBit (s.extended b q) = (nextBit s).extended b q fun _ => nextBit := by
  by_cases h0 : s.cnt = 0
  · rw [nextBit, nextBit, if_pos h0, if_pos (show (s.extended b q).cnt = 0 from h0), srcRead_extended b hq]
    cases hr : srcRead Config.refillLen s with
    | done bytes u => rfl
    | ioerr e u => rfl
    | hold w u =>
      cases q with
      | silent => rfl
      | late more => rfl
      | prompt more => exact (if_pos ((cnt_of_srcRead_hold hr).trans h0)).symm
    | refuse r => rfl
  · rw [nextBit_buffered h0, nextBit_buffered (s := s.extended b q) h0]
    rfl

theorem shiftIn_extended (n : Nat) : shiftIn n (s.extended b q) = (shiftIn n s).extended b q shiftIn := by
  induction n generalizing s with
  | zero => rfl
  | succ n ih =>
    rw [shiftIn, shiftIn, nextBit_extended b hq]
    cases hbit : nextBit s with
    | done x u =>
      obtain ⟨_, c⟩ := consumes_of_nextBit_done hbit
      exact ih (s := { u with acc := shiftInBit u.acc x }) (hq.of_suffix c.grows.source)
    | ioerr e u => rfl
    | hold w u => cases q <;> rfl
    | refuse r => rfl

end Extended

theorem takeAcc_extended (b : Option Task) (q : Sequel) (x : Fetch Nat Unit) :
    takeAcc (x.extended b q shiftIn) = (takeAcc x).extended b q resumeBits := by
  cases x with
  | done a u => rfl
  | ioerr e u => rfl
  | hold left u => cases q <;> rfl
  | refuse r => rfl

/-- The byte loop once byte `i` has been read: it is written, and `n` more are to come (R102). -/
def putByte (n i : Nat) : Fetch Nat Word → Fetch (Nat × Nat) Unit
  | .done v s => fillBytes n (i + 1) (dstWrite i (lowByte v) s)
  | .ioerr e s => .ioerr e s
  | .hold left s => .hold (i, left) s
  | .refuse r => .refuse r

theorem fillBytes_succ (n i : Nat) (s : State) : fillBytes (n + 1) i s = putByte n i (readBits 8 s) := rfl

/-- READ_BYTES of `len` taken up again where its byte `w.1` lacks `w.2` bits. -/
def resumeFill (len : Nat) (w : Nat × Nat) (s : State) : Fetch (Nat × Nat) Unit :=
  putByte (len - (w.1 + 1)) w.1 (resumeBits w.2 s)

theorem resumeAssemble_eq (len i left : Nat) (s : State) :
    resumeAssemble len i left s = finishBytes len (resumeFill len (i, left) s) := by
  rw [resumeAssemble, resumeFill]
  cases resumeBits left s <;> rfl

/-- The loop of a unary read, with as many turns as it can take. -/
def countOn (stop : Bool) (_ : Unit) (s : State) : Fetch Unit Unit := unaryLoop stop (bitsAhead s + 1) s

theorem unaryLoop_eq_countOn (stop : Bool) {turns : Nat} {s : State} (h : bitsAhead s < turns) :
    unaryLoop stop turns s = countOn stop () s := by
  obtain ⟨k, rfl⟩ := Nat.exists_eq_add_of_le (Nat.succ_le_of_lt h)
  exact unaryLoop_turns stop (bitsAhead s + 1) k s (Nat.lt_succ_self _)

section Extended

variable (b : Option Task) {q : Sequel} {s : State} (hq : q.Fits s)
include hq

theorem resumeBits_extended (n : Nat) :
    resumeBits n (s.extended b q) = (resumeBits n s).extended b q resumeBits := by
  rw [resumeBits, shiftIn_extended b hq, takeAcc_extended, resumeBits]

theorem readBits_extended (n : Nat) : readBits n (s.extended b q) = (readBits n s).extended b q resumeBits :=
  resumeBits_extended b (s := { s with acc := 0 }) hq n

theorem fillBytes_extended (n i : Nat) :
    fillBytes n i (s.extended b q) = (fillBytes n i s).extended b q (resumeFill (i + n)) := by
  induction n generalizing i s with
  | zero => rfl
  | succ n ih =>
    rw [fillBytes_succ, fillBytes_succ, readBits_extended b hq]
    cases hread : readBits 8 s with
    | done v u =>
      obtain ⟨_, _, c, -⟩ := consumes_of_readBits_done hread
      rw [show i + (n + 1) = i + 1 + n by omega]
      exact ih (s := dstWrite i (lowByte v) u) (hq.of_suffix c.grows.source) (i + 1)
    | ioerr e u => rfl
    | hold left u =>
      cases q with
      | silent => rfl
      | late more => rfl
      | prompt more =>
        have hn : i + (n + 1) - (i + 1) = n := by omega
        rw [Fetch.extended, putByte, Fetch.extended, resumeFill, hn]
    | refuse r => rfl

theorem unaryLoop_extended (stop : Bool) {turns : Nat} (ht : bitsAhead (s.extended b q) < turns) :
    unaryLoop stop turns (s.extended b q) = (unaryLoop stop turns s).extended b q (countOn stop) := by
  induction turns generalizing s with
  | zero => omega
  | succ turns ih =>
    rw [unaryLoop, unaryLoop, readBits_extended b hq]
    cases hread : readBits 1 s with
    | done v u =>
      obtain ⟨_, _, c, hl⟩ := consumes_of_readBits_done hread
      simp only [Fetch.extended]
      split
      · rfl
      · by_cases hmax : u.uc = Config.ucMax
        · rw [if_pos hmax, if_pos (show (u.extended b q).uc = Config.ucMax from hmax)]
        · rw [if_neg hmax, if_neg (show ¬ (u.extended b q).uc = Config.ucMax from hmax)]
          refine ih (s := { u with uc := u.uc + 1 }) (hq.of_suffix c.grows.source) ?_
          have hahead := c.bitsAhead
          rw [bitsAhead_extended] at ht ⊢
          change bitsAhead u + _ < turns
          omega
    | ioerr e u => rfl
    | hold left u =>
      cases q with
      | silent => rfl
      | late more => rfl
      | prompt more =>
        obtain ⟨rfl, hacc, h0⟩ := readBits_one_hold hread
        have hahead : bitsAhead { u with busy := b, source := more } < turns + 1 := by
          rw [bitsAhead_extended] at ht
          simp only [bitsAhead, h0, Sequel.script] at ht ⊢
          change 0 + 8 * more.length < _
          omega
        simp only [Fetch.extended]
        rw [← unaryLoop_eq_countOn stop hahead, unaryLoop,
          readBits_eq_resumeBits (s := { u with busy := b, source := more }) 1 hacc]
    | refuse r => rfl

theorem countOn_extended (stop : Bool) :
    countOn stop () (s.extended b q) = (countOn stop () s).extended b q (countOn stop) := by
  have hahead : bitsAhead s < bitsAhead (s.extended b q) + 1 := by
    rw [bitsAhead_extended]
    omega
  rw [countOn, unaryLoop_extended b hq stop (Nat.lt_succ_self _), unaryLoop_eq_countOn stop hahead]

end Extended

theorem resumeFill_silent (b : Option Task) (len : Nat) (w : Nat × Nat) (s : State) :
    resumeFill len w (s.extended b .silent) = (resumeFill len w s).extended b .silent (resumeFill len) := by
  rw [resumeFill, resumeFill, resumeBits_extended b (.inl rfl)]
  cases resumeBits w.2 s with
  | done v u =>
    exact (fillBytes_extended b (s := dstWrite w.1 (lowByte v) u) (.inl rfl) _ _).trans (extended_silent_resume ..)
  | ioerr e u => rfl
  | hold left u => rfl
  | refuse r => rfl

/-! The ends of a command with the sequel after the script. -/

/-- What a held command comes to by the sequel: `t` is the state it was held in. -/
def Sequel.after (k : Task) (t : State) : Sequel → Host.Outcome State Fault Refusal
  | .silent => .next t
  | .late more => .next { t with source := more }
  | .prompt more => resumeTask k { t with source := more }

/-- An end of commands: a response leaves the block idle; a hold leaves the command in progress as its task, which comes
to the same end when it is taken up again. Nothing of this rests on what the block took to be in progress. -/
structure Finishes {ω α : Type} (finish : Fetch ω α → Host.Outcome State Fault Refusal)
    (resume : ω → State → Fetch ω α) (task : ω → Task) : Prop where
  done : ∀ (a : α) (s : State), ∃ t, t.busy = none ∧ ∀ b, finish (.done a { s with busy := b }) = .next t
  ioerr : ∀ (e : Err) (s : State), ∃ t, t.busy = none ∧ ∀ b, finish (.ioerr e { s with busy := b }) = .next t
  hold : ∀ w s, finish (.hold w s) = .next (holdOn (task w) s)
  refuse : ∀ r, finish (.refuse r) = .refused r
  taken : ∀ w s, finish (resume w s) = resumeTask (task w) s
  silent : ∀ b w s, resume w (s.extended b .silent) = (resume w s).extended b .silent resume

section Finishes

variable {ω α : Type} {finish : Fetch ω α → Host.Outcome State Fault Refusal} {resume : ω → State → Fetch ω α}
  {task : ω → Task} (hf : Finishes finish resume task) (b : Option Task)
include hf

theorem Finishes.finish_silent (x : Fetch ω α) : finish (x.extended b .silent resume) = finish x := by
  cases x with
  | done a s =>
    obtain ⟨t, -, ht⟩ := hf.done a s
    rw [Fetch.extended, extended_silent]
    exact (ht b).trans (ht s.busy).symm
  | ioerr e s =>
    obtain ⟨t, -, ht⟩ := hf.ioerr e s
    rw [Fetch.extended, extended_silent]
    exact (ht b).trans (ht s.busy).symm
  | hold w s => exact (hf.hold w _).trans (hf.hold w s).symm
  | refuse r => rfl

theorem Finishes.resumeTask_busy (w : ω) (s : State) :
    resumeTask (task w) { s with busy := b } = resumeTask (task w) s := by
  rw [← extended_silent, ← hf.taken, hf.silent, hf.finish_silent, hf.taken]

/-- A command that was held comes to what the sequel makes of its hold. -/
theorem Finishes.finish_extended {x : Fetch ω α} {t : State} {k : Task} (h : finish x = .next t)
    (hk : t.busy = some k) (q : Sequel) : finish (x.extended b q resume) = q.after k t := by
  cases x with
  | done a s =>
    obtain ⟨u, hu, hdone⟩ := hf.done a s
    cases (hdone s.busy).symm.trans h
    cases hu.symm.trans hk
  | ioerr e s =>
    obtain ⟨u, hu, herr⟩ := hf.ioerr e s
    cases (herr s.busy).symm.trans h
    cases hu.symm.trans hk
  | hold w s =>
    cases (hf.hold w s).symm.trans h
    cases hk
    cases q with
    | silent => exact hf.hold w _
    | late more => exact hf.hold w _
    | prompt more =>
      exact (hf.taken w _).trans
        ((hf.resumeTask_busy b w { s with source := more }).trans
          (hf.resumeTask_busy (some (task w)) w { s with source := more }).symm)
  | refuse r => cases (hf.refuse r).symm.trans h

end Finishes

/-- The end of aligned READ_BYTES (R101, R103). -/
def finishBulk (len : Nat) : Fetch Unit (List Byte) → Host.Outcome State Fault Refusal
  | .done bytes s => .next (respond (.ok 0) (dstWriteAll 0 bytes s))
  | .ioerr e s => .next (raiseIOError e s)
  | .hold _ s => .next (holdOn (.bulk len) s)
  | .refuse r => .refused r

theorem bulkRead_eq (len : Nat) (s : State) : bulkRead len s = finishBulk len (srcRead len s) := by
  rw [bulkRead]
  cases srcRead len s <;> rfl

theorem finishes_extract (op : Extract) (n : Nat) : Finishes (finishExtract op n) resumeBits (.extract op n) where
  done v s := ⟨respond (.ok (op.value n v)) s, rfl, fun _ => rfl⟩
  ioerr e s := ⟨raiseIOError e s, rfl, fun _ => rfl⟩
  hold _ _ := rfl
  refuse _ := rfl
  taken _ _ := rfl
  silent b left _ := resumeBits_extended b (.inl rfl) left

theorem finishes_bulk (len : Nat) : Finishes (finishBulk len) (fun _ => srcRead len) fun _ => .bulk len where
  done bytes s := by
    refine ⟨respond (.ok 0) (dstWriteAll 0 bytes s), rfl, fun b => ?_⟩
    rw [finishBulk, dstWriteAll_eq, dstWriteAll_eq]
    rfl
  ioerr e s := ⟨raiseIOError e s, rfl, fun _ => rfl⟩
  hold _ _ := rfl
  refuse _ := rfl
  taken _ s := (bulkRead_eq len s).symm
  silent b _ _ := srcRead_extended b (.inl rfl) len

theorem finishes_assemble (len : Nat) :
    Finishes (finishBytes len) (resumeFill len) fun w => .assemble len w.1 w.2 where
  done _ s := ⟨respond (.ok 0) s, rfl, fun _ => rfl⟩
  ioerr e s := ⟨raiseIOError e s, rfl, fun _ => rfl⟩
  hold _ _ := rfl
  refuse _ := rfl
  taken w s := (resumeAssemble_eq len w.1 w.2 s).symm
  silent b w s := resumeFill_silent b len w s

theorem finishes_unary (stop : Bool) : Finishes (finishUnary stop) (countOn stop) fun _ => .unary stop where
  done _ s := ⟨respond (.ok s.uc) s.freeUc, rfl, fun _ => rfl⟩
  ioerr e s := ⟨raiseIOError e s.freeUc, rfl, fun _ => rfl⟩
  hold _ _ := rfl
  refuse _ := rfl
  taken _ _ := rfl
  silent b _ _ := countOn_extended b (.inl rfl) stop

/-! Every command with the sequel after its script. -/

section Commands

variable {s t : State} {k : Task} (hd : SrcMove.delays ∉ s.source) (hk : t.busy = some k) (q : Sequel)
include hd hk

theorem runExtract_extended {op : Extract} {n : Nat} (h : runExtract op n s = .next t) :
    runExtract op n (s.extended s.busy q) = q.after k t := by
  have hn := legalBits_of_runExtract h
  rw [runExtract, if_pos hn] at h ⊢
  rw [readBits_extended s.busy (.inr hd)]
  exact (finishes_extract op n).finish_extended s.busy h hk q

theorem execReadBytes_extended {len : Nat} (h : execReadBytes len s = .next t) :
    execReadBytes len (s.extended s.busy q) = q.after k t := by
  have hlen : legalLen len := legalLen_of_exec h
  rw [execReadBytes, if_pos hlen] at h ⊢
  by_cases ha : s.aligned = true
  · rw [if_pos ha, bulkRead_eq] at h
    rw [if_pos (show (s.extended s.busy q).aligned = true from ha), bulkRead_eq, srcRead_extended s.busy (.inr hd)]
    exact (finishes_bulk len).finish_extended s.busy h hk q
  · rw [if_neg ha] at h
    rw [if_neg (show ¬ (s.extended s.busy q).aligned = true from ha), fillBytes_extended s.busy (.inr hd), Nat.zero_add]
    exact (finishes_assemble len).finish_extended s.busy h hk q

theorem runUnary_extended {stop : Bool} (h : runUnary stop s = .next t) :
    runUnary stop (s.extended s.busy q) = q.after k t := by
  have hcount := countOn_extended s.busy (s := { s with uc := 0 }) (q := q) (.inr hd) stop
  exact (congrArg (finishUnary stop) hcount).trans ((finishes_unary stop).finish_extended s.busy h hk q)

/-- A command that was held at the end of its script comes to what the sequel makes of the hold (R146, R180). -/
theorem exec_extended {i : Instr} (h : exec i s = .next t) : exec i (s.extended s.busy q) = q.after k t := by
  cases i with
  | read n => exact runExtract_extended hd hk q h
  | readSigned n => exact runExtract_extended hd hk q h
  | skip n => exact runExtract_extended hd hk q h
  | readBytes len => exact execReadBytes_extended hd hk q h
  | readUnary0 => exact runUnary_extended hd hk q h
  | readUnary1 => exact runUnary_extended hd hk q h
  | byteAligned =>
    cases h
    cases hk
  | byteAlign =>
    cases h
    cases hk

end Commands

/-- Settles O10: after one more delay the command is held as before, and with the answers it is taken up where it was
held. -/
theorem delaysChangeNothingElse : Obligations.DelaysChangeNothingElse := by
  intro i s t k more hd h hk
  have hprompt : exec i { s with source := s.source ++ more } = resumeTask k { t with source := more } :=
    exec_extended hd hk (.prompt more) h
  exact ⟨exec_extended hd hk (.late more) h, hprompt.symm,
    (step_of_busy (s := { t with source := more }) hk).trans hprompt.symm⟩

end Sys2Proof.Machine
